-- ==== Sys2Proof/Word.lean ====
section
/-! DEFINITION. The value types of the BCJ2 reversal core: bytes, 32-bit words, 11-bit probabilities, slot and stream numbers. -/

namespace Sys2Proof

/-- A byte: 8 bits, 0..255 (R10). -/
abbrev Byte := BitVec 8

/-- A 32-bit register value; its arithmetic is modulo 2^32 (R5 `RC_W`, R10 `u32`). -/
abbrev Word := BitVec 32

/-- An adaptive probability, 11-bit fixed point in [0, 2048) (R22, D12). -/
abbrev Prob := BitVec 11

/-- A probability slot, 0..257 (R5 `NUM_SLOTS`, R94). -/
abbrev Slot := Fin 258

/-- A stream number, 0..3 (R5 `NUM_STREAMS`, R155). -/
abbrev StreamIx := Fin 4

end Sys2Proof
end

