-- ==== Sys2Proof/Config.lean ====
section
/-! DEFINITION. The constants the document fixes (R5), the result record's type (R31), and the free values of the model. -/

namespace Sys2Proof

/-- `RANGE_INIT`: "the maximum 32-bit value" (R5, R120). -/
def Config.rangeInit : Word := 0xFFFFFFFF

/-- `SEED_BYTES` (R5, R120). -/
def Config.seedBytes : Nat := 5

/-- `TOP`, the normalisation threshold 2^24 (R5, R124). -/
def Config.top : Word := 0x01000000

/-- `PROB_BITS`, the shift of `bound = (range >> 11) * p` (R5, R121). -/
def Config.probBits : Nat := 11

/-- `PROB_ONE` (R5, R142). -/
def Config.probOne : Nat := 2048

/-- `PROB_INIT` (R5, R141). -/
def Config.probInit : Prob := 1024

/-- `MOVE_BITS`, the adaptation shift (R5, R142, R143). -/
def Config.moveBits : Nat := 5

/-- `SLOT_JMP` (R5, R94). -/
def Config.slotJmp : Slot := 256

/-- `SLOT_JCC` (R5, R94). -/
def Config.slotJcc : Slot := 257

/-- `HEADER_BYTES` (R5, R91). -/
def Config.headerBytes : Nat := 20

/-- `TAR_BLOCK` (R5, R98). -/
def Config.tarBlock : Nat := 512

/-- How a session ended: `result.tag` with `result.which` and `result.offset`, which only a `Partial` end has
(R31; one constructor each, as U19 and D10 ask; assumption log 16). -/
inductive EndTag where
  | complete
  | partialAt (which : StreamIx) (offset : Nat)
deriving DecidableEq, Repr, Inhabited

/-- The result record, valid when `phase = Done` (R31). -/
structure Result where
  tag : EndTag
  length : Word
deriving DecidableEq, Repr, Inhabited

/-- `result.which` as a number, 0 on `Complete` (R31). -/
def Result.which (r : Result) : StreamIx :=
  match r.tag with
  | .complete => 0
  | .partialAt k _ => k

/-- `result.offset`, 0 on `Complete` (R31). -/
def Result.offset (r : Result) : Nat :=
  match r.tag with
  | .complete => 0
  | .partialAt _ off => off

/-- FREE VALUE (assumption log 5): the latch `b` after START, which R39 leaves unspecified. -/
opaque Config.freeLatchB : Nat → Byte

/-- FREE VALUE (assumption log 5): the latch `dest` after START, which R39 leaves unspecified. -/
opaque Config.freeLatchDest : Nat → Word

/-- FREE VALUE (assumption log 5): the counter `j` after START, which R39 leaves unspecified. -/
opaque Config.freeLatchJ : Nat → BitVec 2

/-- FREE VALUE (assumption log 5): the result record after START, not valid until `Done` (R39). -/
opaque Config.freeResult : Nat → Result

end Sys2Proof
end

