-- ==== Sys2Proof/Syntax.lean ====
section
/-! DEFINITION. The instructions: one constructor for each row of spec/opcode_table.json (R107). -/

namespace Sys2Proof

/-- The rows of the opcode table: (a) the four main-stream instructions of format M, (b) the internal operations,
(c) the selectors of the tar header, format T (R107). -/
inductive Instr where
  /-- CALL, byte `E8` (R179). -/
  | call
  /-- JMP, byte `E9` (R180). -/
  | jmp
  /-- JCC, byte `8c` after an output byte `0F` (R181). -/
  | jcc (c : BitVec 4)
  /-- LIT, any other byte (R178). -/
  | lit (b : Byte)
  /-- START: begin a session (R175). -/
  | start
  /-- STEP: one main-loop iteration (R176). -/
  | step
  /-- RESOLVE(b, slot, k) (R182). -/
  | resolve (b : Byte) (slot : Slot) (k : StreamIx)
  /-- PATCH(b, k) (R183). -/
  | patch (b : Byte) (k : StreamIx)
  /-- EMIT4(dest) (R184). -/
  | emit4 (dest : Word)
  /-- OUT_EMIT(v) (R185). -/
  | outEmit (v : Byte)
  /-- RC_INIT (R120). -/
  | rcInit
  /-- RC_DECODE_BIT(slot) (R121). -/
  | rcDecodeBit (slot : Slot)
  /-- RC_NORMALIZE (R124). -/
  | rcNormalize
  /-- PROB_INIT (R141). -/
  | probInit
  /-- PROB_UP(slot) (R142). -/
  | probUp (slot : Slot)
  /-- PROB_DOWN(slot) (R143). -/
  | probDown (slot : Slot)
  /-- DEMUX_SETUP on the launch record (R156). -/
  | demuxSetup
  /-- CUR_FETCH(k) (R158). -/
  | curFetch (k : StreamIx)
  /-- CUR_READ1(k) (R157). -/
  | curRead1 (k : StreamIx)
  /-- CUR_READ4BE(k) (R159). -/
  | curRead4be (k : StreamIx)
  /-- LOAD_HEADER (R283). -/
  | loadHeader
  /-- TAR_START_OP (R210). -/
  | tarStartOp
  /-- TAR_STEP, TAR_READ_HEADER included (R211). -/
  | tarStep
  /-- TAR_NAME on the held header (R214). -/
  | tarName
  /-- TAR_SIZE on the held header (R216). -/
  | tarSize
  /-- TAR_KIND on the held header and joined name (R217). -/
  | tarKind
  /-- TAR_SANITIZE on the joined name (R218). -/
  | tarSanitize
  /-- TAR_DIR on the sanitised name (R219). -/
  | tarDir
  /-- TAR_FILE on the sanitised name and the size (R220). -/
  | tarFile
  /-- TAR_ADVANCE on the kind and the size (R221). -/
  | tarAdvance
  /-- Header bytes 257..261 all zero (R212). -/
  | tarMagicEnd
  /-- Header bytes 257..261 spell "ustar" (R213). -/
  | tarMagicUstar
  /-- Header bytes 257..264 are the GNU variant of the magic (R213). -/
  | tarMagicGnu
  /-- Any other five bytes `m` at 257..261, first byte most significant (R213). -/
  | tarMagicOther (m : BitVec 40)
  /-- Type flag `35` (R217). -/
  | tarTypeDir
  /-- Any other type flag `f` (R217, R100). -/
  | tarTypeFile (f : Byte)
deriving DecidableEq, Repr

/-- The format of a row: a main-stream byte, an internal operation, or a tar-header selector of 5, 8 or 1 bytes (R107). -/
inductive Format where
  | main
  | internal
  | magic5
  | magic8
  | typeFlag
deriving DecidableEq, Repr

/-- How many bytes an instruction of a format occupies where it is encoded (R104, R98); internal operations have no encoding. -/
def Format.bytes : Format → Nat
  | .main => 1
  | .internal => 0
  | .magic5 => 5
  | .magic8 => 8
  | .typeFlag => 1

/-- The format of each row (R107). -/
def Instr.format : Instr → Format
  | .call => .main
  | .jmp => .main
  | .jcc _ => .main
  | .lit _ => .main
  | .start => .internal
  | .step => .internal
  | .resolve _ _ _ => .internal
  | .patch _ _ => .internal
  | .emit4 _ => .internal
  | .outEmit _ => .internal
  | .rcInit => .internal
  | .rcDecodeBit _ => .internal
  | .rcNormalize => .internal
  | .probInit => .internal
  | .probUp _ => .internal
  | .probDown _ => .internal
  | .demuxSetup => .internal
  | .curFetch _ => .internal
  | .curRead1 _ => .internal
  | .curRead4be _ => .internal
  | .loadHeader => .internal
  | .tarStartOp => .internal
  | .tarStep => .internal
  | .tarName => .internal
  | .tarSize => .internal
  | .tarKind => .internal
  | .tarSanitize => .internal
  | .tarDir => .internal
  | .tarFile => .internal
  | .tarAdvance => .internal
  | .tarMagicEnd => .magic5
  | .tarMagicUstar => .magic5
  | .tarMagicGnu => .magic8
  | .tarMagicOther _ => .magic5
  | .tarTypeDir => .typeFlag
  | .tarTypeFile _ => .typeFlag

end Sys2Proof
end

