-- ==== Sys2Proof/Machine/State.lean ====
section
/-! DEFINITION. The state of the machine, grouped by component (R1): every register of R41, the memories of R60 to R63, the launch
record (R9, R37), and the model's own fields (marked). Also the faults, the refusals and the state after power-on reset. -/

namespace Sys2Proof.Machine

/-- A byte memory: (address, byte) pairs with strictly rising addresses. An address that is not listed holds NO value:
nothing has written it and reading it is a fault (assumption log 3). -/
abbrev Memory := List Host.Cell

/-- The canonical form: addresses strictly rise. (No entry can equal what an unlisted address reads as: that is no value.) -/
abbrev Memory.wf (m : Memory) : Prop := m.Pairwise fun p q => p.1 < q.1

/-- RangeDecoder registers (R20, R21). -/
structure RangeDecoder where
  code : Word
  range : Word
deriving DecidableEq, Repr

/-- StreamDemux registers: the windows and the cursors of the four streams (R23, R24); `pos[0]` is the program counter (R33). -/
structure Demux where
  base : Vector Nat 4
  len : Vector Nat 4
  pos : Vector Nat 4
deriving DecidableEq, Repr

/-- `phase` (R28). -/
inductive Phase where
  | idle
  | run
  | done
deriving DecidableEq, Repr

/-- Bcj2Decoder registers (R25 to R31). -/
structure Decoder where
  phase : Phase
  originalSize : Word
  outPos : Word
  prevByte : Byte
  resolving : Bool
  b : Byte
  dest : Word
  j : BitVec 2
  result : Result
deriving DecidableEq, Repr

/-- `tar_stop` (R36, R222). -/
inductive TarStop where
  | none
  | endMarker
  | magicMismatch
  | truncated
  | badSize
deriving DecidableEq, Repr

/-- A tar header block: 512 bytes (R98). -/
abbrev Header := Vector Byte 512

/-- TarExtractor registers (R36), and the entry in hand: the values `h`, `full`, `size`, `isdir`, `clean` that TAR_STEP writes with
`<-` and discards before it ends (R211, R224, R11; assumption log 11). `running` is the model's own: an extraction has been started and has not stopped
(assumption log 7). -/
structure Tar where
  running : Bool
  tpos : Nat
  stop : TarStop
  count : Nat
  hdr : Header
  full : List Byte
  size : Nat
  isdir : Bool
  clean : List Byte
deriving DecidableEq, Repr

/-- An event of the file-system sink (R63). -/
inductive SinkEvent where
  | createDir (name : List Byte)
  | writeFile (name content : List Byte)
deriving DecidableEq, Repr

/-- The launch descriptor (R175, R283). -/
structure Descriptor where
  originalSize : Word
  size : Vector Word 4
deriving DecidableEq, Repr

/-- The launch record: the descriptor, the loader's flag `size_mismatch` (R32), TAR_START (R6), and the model's own latch
for the loader's HeaderTooSmall (assumption log 9). -/
structure Launch where
  desc : Descriptor
  sizeMismatch : Bool
  headerTooSmall : Bool
  tarStart : Nat
deriving DecidableEq, Repr

/-- The BLOB memory and its length `N` (R60, R6). -/
structure Blob where
  cells : Memory
  size : Nat
deriving DecidableEq, Repr

/-- What the component ports last returned: `bit` (R129), the byte of CUR_FETCH and CUR_READ1 and the word of CUR_READ4BE
(R165). The model's own latches, written only where such an operation is executed on its own, never within another (assumption log 10). -/
structure Ports where
  bit : Bool
  byte : Byte
  word : Word
deriving DecidableEq, Repr

/-- The operations the host can start, and no others (R42, R190, R282): every other operation is the block's own. -/
inductive HostOp where
  /-- LOAD_HEADER (R282 (2)). -/
  | loadHeader
  /-- START (R282 (4)). -/
  | start
  /-- TAR_START_OP, after which the extractor runs by itself (R282 (7), R210). -/
  | tarStart
deriving DecidableEq, Repr

/-- The instruction a host operation is. -/
def HostOp.instr : HostOp → Instr
  | .loadHeader => .loadHeader
  | .start => .start
  | .tarStart => .tarStartOp

/-- What the outside asks of the block, in the order in which it asks; a command that comes while a session or an extraction runs waits for its end
(R7, R282, R290; assumption log 1). -/
inductive Cmd where
  /-- Place the post-decompression buffer in BLOB at 0 .. N-1 (R282 (1)). -/
  | place (bytes : List Byte)
  /-- Write the launch descriptor (R42). -/
  | setDescriptor (d : Descriptor)
  /-- Choose TAR_START (R282 (7)). -/
  | setTarStart (n : Nat)
  /-- Start one of the host's operations (R190, R282). -/
  | issue (op : HostOp)
  /-- Wait until no session and no extraction runs (R282 (5)). -/
  | await
  /-- Power-on reset (R280). -/
  | powerOn
deriving DecidableEq, Repr

/-- The machine's state. -/
structure State where
  /-- `code`, `range`. -/
  rc : RangeDecoder
  /-- `P[0..257]` (R22). -/
  prob : Vector Prob 258
  /-- `base`, `len`, `pos`. -/
  demux : Demux
  /-- `phase`, `ORIGINAL_SIZE`, `out_pos`, `prev_byte`, the latches, the result record. -/
  dec : Decoder
  /-- The extractor's registers. -/
  tar : Tar
  /-- The launch record. -/
  launch : Launch
  /-- BLOB (R60). -/
  blob : Blob
  /-- OUT (R61). -/
  out : Memory
  /-- The file-system sink, oldest event first (R63). -/
  sink : List SinkEvent
  /-- The component ports' outputs (the model's own). -/
  ports : Ports
  /-- The host's commands not yet taken, oldest first (the model's own). -/
  cmds : List Cmd
  /-- How many free values have been drawn (the model's own, assumption log 5). -/
  free : Nat
deriving DecidableEq, Repr

/-- Why the machine stops with a fault. No rule of the spec gives the access a meaning ("defined only when", R11), and no lawful run
reaches one. -/
inductive Fault where
  /-- A BLOB read at an address `N` or above, raised by the cursor operations and LOAD_HEADER; safe. -/
  | blobOutOfRange (a : Nat)
  /-- A BLOB read of a byte nothing has placed, raised by the same operations; safe (assumption log 3). -/
  | blobUnwritten (a : Nat)
  /-- An OUT access at an address `ORIGINAL_SIZE` or above, raised by OUT_EMIT and by the extractor's reads; safe (R185, R61). -/
  | outOutOfRange (a : Nat)
  /-- An OUT read of a byte the session has not written, raised by the extractor's reads; safe (assumption log 3). -/
  | outUnwritten (a : Nat)
deriving DecidableEq, Repr

/-- Why the machine refuses. -/
inductive Refusal where
  /-- `exec`'s arm of an instruction that has no meaning yet; safe. -/
  | notModelled (mnemonic : String)
  /-- The host places a buffer while `phase = Run`: R284 forbids it and U5 asks for a refusal; raised by the sequencer on `Cmd.place`;
  safe (assumption log 20). -/
  | blobWriteDuringRun
deriving DecidableEq, Repr

/-- The state right after power-on reset (R280, R39): `phase` Idle, `resolving`, `size_mismatch` 0, the sink empty, both memories unlisted;
every register the spec calls unspecified is zero (assumption log 2). -/
def State.reset : State where
  rc := { code := 0, range := 0 }
  prob := Vector.replicate 258 0
  demux := { base := Vector.replicate 4 0, len := Vector.replicate 4 0, pos := Vector.replicate 4 0 }
  dec :=
    { phase := .idle, originalSize := 0, outPos := 0, prevByte := 0, resolving := false, b := 0, dest := 0, j := 0,
      result := { tag := .complete, length := 0 } }
  tar :=
    { running := false, tpos := 0, stop := .none, count := 0, hdr := Vector.replicate 512 0, full := [], size := 0,
      isdir := false, clean := [] }
  launch :=
    { desc := { originalSize := 0, size := Vector.replicate 4 0 }, sizeMismatch := false, headerTooSmall := false,
      tarStart := 0 }
  blob := { cells := [], size := 0 }
  out := []
  sink := []
  ports := { bit := false, byte := 0, word := 0 }
  cmds := []
  free := 0

end Sys2Proof.Machine
end

