-- ==== Sys2Proof/Machine/Flags.lean ====
section
/-! DEFINITION. The derived condition signals of R34, combinational and not stored: the only flags the block has. -/

namespace Sys2Proof.Machine

/-- `out_full`: `out_pos == ORIGINAL_SIZE` (R34). -/
def outFull (s : State) : Bool := s.dec.outPos == s.dec.originalSize

/-- `rem[k]`: `len[k] - pos[k]` (R34). -/
def rem (s : State) (k : StreamIx) : Nat := s.demux.len[k] - s.demux.pos[k]

/-- `cand`: the candidate test on the byte fetched and the current `prev_byte` (R34, R177). -/
def cand (s : State) (b : Byte) : Bool :=
  b &&& 0xFE == 0xE8 || (s.dec.prevByte == 0x0F && b &&& 0xF0 == 0x80)

/-- `bound = u32((range >> 11) * p)`, the product taken exactly and then reduced (R121, R126). -/
def bound (s : State) (p : Prob) : Word :=
  BitVec.ofNat 32 (s.rc.range.toNat / 2 ^ Config.probBits * p.toNat)

/-- `lt`: `code < bound`, unsigned (R34, R121). -/
def lt (s : State) (p : Prob) : Bool := s.rc.code.ult (bound s p)

/-- `need_norm`: `range < 0x01000000` (R34, R124). -/
def needNorm (s : State) : Bool := s.rc.range.ult Config.top

/-- The loader's mismatch test, a natural-number comparison: the declared sizes against the `N - 20` bytes there are (R283, R253). -/
def sizesMismatch (d : Descriptor) (n : Nat) : Bool :=
  d.size[0].toNat + d.size[1].toNat + d.size[2].toNat + d.size[3].toNat != n - Config.headerBytes

end Sys2Proof.Machine
end

