-- ==== Sys2Proof/WellFormed.lean ====
section
/-! DEFINITION. Which instructions are well formed: the operands the spec lets each operation have, and the
register context a main-stream byte needs to be read as that instruction. -/

namespace Sys2Proof

/-- `IsControlTransferCandidate(prev_byte, b)`, the document's predicate (R92, R177). -/
def isCandidate (prev b : Byte) : Bool :=
  b &&& 0xFE == 0xE8 || (prev == 0x0F && b &&& 0xF0 == 0x80)

/-- The address stream of a candidate byte: 1 for `E8`, else 2 (R155, R183). -/
def addressStream (b : Byte) : StreamIx := if b == 0xE8 then 1 else 2

/-- The slots a candidate byte can select: 0..255 for `E8`, 256 for `E9`, 257 otherwise (R94). -/
def slotOfByte (b : Byte) (slot : Slot) : Bool :=
  if b == 0xE8 then decide (slot.val < 256)
  else if b == 0xE9 then slot == Config.slotJmp
  else slot == Config.slotJcc

/-- The five bytes "ustar", first byte most significant (R99). -/
def magicUstar : BitVec 40 := 0x7573746172

/-- Well-formedness of an instruction on its own.
LIT is never `E8` or `E9` (R92). RESOLVE and PATCH are given a candidate byte with the slot and stream that belong to it
(R94, R182, R183). CUR_FETCH is used on stream 0, CUR_READ1 on streams 0 and 3, CUR_READ4BE on streams 1 and 2 (R155, R157 to R159).
The default selectors stand for no byte that an earlier row takes (R99, R100). -/
def Instr.wellFormed : Instr → Bool
  | .call => true
  | .jmp => true
  | .jcc _ => true
  | .lit b => b != 0xE8 && b != 0xE9
  | .start => true
  | .step => true
  | .resolve b slot k => isCandidate 0x0F b && slotOfByte b slot && k == addressStream b
  | .patch b k => isCandidate 0x0F b && k == addressStream b
  | .emit4 _ => true
  | .outEmit _ => true
  | .rcInit => true
  | .rcDecodeBit _ => true
  | .rcNormalize => true
  | .probInit => true
  | .probUp _ => true
  | .probDown _ => true
  | .demuxSetup => true
  | .curFetch k => k == 0
  | .curRead1 k => k == 0 || k == 3
  | .curRead4be k => k == 1 || k == 2
  | .loadHeader => true
  | .tarStartOp => true
  | .tarStep => true
  | .tarName => true
  | .tarSize => true
  | .tarKind => true
  | .tarSanitize => true
  | .tarDir => true
  | .tarFile => true
  | .tarAdvance => true
  | .tarMagicEnd => true
  | .tarMagicUstar => true
  | .tarMagicGnu => true
  | .tarMagicOther m => m != 0 && m != magicUstar
  | .tarTypeDir => true
  | .tarTypeFile f => f != 0x35

/-- Well-formedness of a main-stream instruction where `prev_byte` is `prev`: JCC needs `prev_byte = 0F`, and a byte
`80`..`8F` is LIT only where it does not hold (R92, R103). Other instructions need no context. -/
def Instr.wellFormedAt (prev : Byte) (i : Instr) : Bool :=
  i.wellFormed &&
    match i with
    | .jcc _ => prev == 0x0F
    | .lit b => !isCandidate prev b
    | _ => true

end Sys2Proof
end

