-- ==== Sys2Proof/Decode.lean ====
section
/-! DEFINITION. The decoders of format M (a byte of stream0) and format T (the selectors of a tar header), total on any
bytes and rejecting by name; then the encoder, written from the same tables (R92, R98 to R100). -/

namespace Sys2Proof

/-- The four classes of a main-stream byte (R92). -/
inductive MainOp where
  | call
  | jmp
  | jcc (c : BitVec 4)
  | lit (b : Byte)
deriving DecidableEq, Repr

/-- The four outcomes of the magic test (R99). -/
inductive MagicOp where
  | endMark
  | ustar
  | gnu
  | other (m : BitVec 40)
deriving DecidableEq, Repr

/-- The two outcomes of the type-flag test (R100). -/
inductive TypeOp where
  | dir
  | file (f : Byte)
deriving DecidableEq, Repr

/-- Why bytes do not decode: an empty stream, or fewer bytes than a selector has. -/
inductive DecodeError where
  | noByte
  | shortMagic
deriving DecidableEq, Repr

def MainOp.toInstr : MainOp → Instr
  | .call => .call
  | .jmp => .jmp
  | .jcc c => .jcc c
  | .lit b => .lit b

def MagicOp.toInstr : MagicOp → Instr
  | .endMark => .tarMagicEnd
  | .ustar => .tarMagicUstar
  | .gnu => .tarMagicGnu
  | .other m => .tarMagicOther m

def TypeOp.toInstr : TypeOp → Instr
  | .dir => .tarTypeDir
  | .file f => .tarTypeFile f

/-- The class table of R92, in priority order, first match wins; `prev` is `prev_byte`. -/
def classifyMain (prev b : Byte) : MainOp :=
  if b &&& 0xFF = 0xE8 then .call
  else if b &&& 0xFF = 0xE9 then .jmp
  else if b &&& 0xF0 = 0x80 ∧ prev = 0x0F then .jcc (b.extractLsb' 0 4)
  else .lit b

/-- The number a byte string spells, first byte most significant. -/
def beNat (bs : List Byte) : Nat := bs.foldl (fun acc b => acc * 256 + b.toNat) 0

/-- The number a byte string spells, first byte least significant. -/
def leNat : List Byte → Nat
  | [] => 0
  | b :: bs => b.toNat + 256 * leNat bs

/-- The five bytes of the magic "ustar" (R99). -/
def ustarBytes : List Byte := [0x75, 0x73, 0x74, 0x61, 0x72]

/-- The eight bytes of the GNU variant of the magic (R99). -/
def gnuBytes : List Byte := [0x75, 0x73, 0x74, 0x61, 0x72, 0x20, 0x20, 0x00]

/-- The magic test of R99 on the header bytes from offset 257 on. The longer GNU pattern is tried before "ustar", which it
begins with: both accept the header and the separate test changes nothing (R99 (3), R213; DEDUCED, assumption log 15). -/
def classifyMagic (bs : List Byte) : MagicOp :=
  if bs.take 5 = [0, 0, 0, 0, 0] then .endMark
  else if bs.take 8 = gnuBytes then .gnu
  else if bs.take 5 = ustarBytes then .ustar
  else .other (BitVec.ofNat 40 (beNat (bs.take 5)))

/-- The type-flag test of R100 on header byte 156. -/
def classifyType (f : Byte) : TypeOp := if f = 0x35 then .dir else .file f

/-- The main-stream instruction a byte is, where `prev_byte` is `prev` (R92). -/
def decodeMain (prev b : Byte) : Instr := (classifyMain prev b).toInstr

/-- The next main-stream instruction of a byte list and the bytes after it: every instruction is one byte (R104). -/
def decodeStream (prev : Byte) : List Byte → Except DecodeError (Instr × List Byte)
  | [] => .error .noByte
  | b :: rest => .ok (decodeMain prev b, rest)

/-- The magic selector at the front of a byte list and the bytes after it (R99). -/
def decodeMagic (bs : List Byte) : Except DecodeError (Instr × List Byte) :=
  if bs.length < 5 then .error .shortMagic
  else
    match classifyMagic bs with
    | .gnu => .ok (.tarMagicGnu, bs.drop 8)
    | .endMark => .ok (.tarMagicEnd, bs.drop 5)
    | .ustar => .ok (.tarMagicUstar, bs.drop 5)
    | .other m => .ok (.tarMagicOther m, bs.drop 5)

/-- The type-flag selector at the front of a byte list and the bytes after it (R100). -/
def decodeType : List Byte → Except DecodeError (Instr × List Byte)
  | [] => .error .noByte
  | f :: rest => .ok ((classifyType f).toInstr, rest)

/-- The low `n` bytes of a number, most significant first. -/
def bytesMsb : Nat → Nat → List Byte
  | 0, _ => []
  | n + 1, w => BitVec.ofNat 8 (w >>> (8 * n)) :: bytesMsb n w

/-- The bytes of an instruction, from the spec's tables: one byte for format M (R92), five, eight or one for format T (R99, R100),
none for an internal operation, which no encoding selects (R107). -/
def encode : Instr → List Byte
  | .call => [0xE8]
  | .jmp => [0xE9]
  | .jcc c => [(0x8 : BitVec 4) ++ c]
  | .lit b => [b]
  | .start => []
  | .step => []
  | .resolve _ _ _ => []
  | .patch _ _ => []
  | .emit4 _ => []
  | .outEmit _ => []
  | .rcInit => []
  | .rcDecodeBit _ => []
  | .rcNormalize => []
  | .probInit => []
  | .probUp _ => []
  | .probDown _ => []
  | .demuxSetup => []
  | .curFetch _ => []
  | .curRead1 _ => []
  | .curRead4be _ => []
  | .loadHeader => []
  | .tarStartOp => []
  | .tarStep => []
  | .tarName => []
  | .tarSize => []
  | .tarKind => []
  | .tarSanitize => []
  | .tarDir => []
  | .tarFile => []
  | .tarAdvance => []
  | .tarMagicEnd => [0, 0, 0, 0, 0]
  | .tarMagicUstar => ustarBytes
  | .tarMagicGnu => gnuBytes
  | .tarMagicOther m => bytesMsb 5 m.toNat
  | .tarTypeDir => [0x35]
  | .tarTypeFile f => [f]

/-- The decoder of an instruction's own format, on the bytes at hand; an internal operation has no words to read (R107). -/
def decodeAs (f : Format) (prev : Byte) (bs : List Byte) : Except DecodeError (Instr × List Byte) :=
  match f with
  | .main => decodeStream prev bs
  | .internal => .error .noByte
  | .magic5 => decodeMagic bs
  | .magic8 => decodeMagic bs
  | .typeFlag => decodeType bs

/-- The instruction read from a word numbered as the opcode table numbers it (assumption log 14).
The table's rows are read as one list, its default rows last. Eight bits are a main-stream byte in the context that lets
every class occur (`prev_byte = 0F`), but for `35`, which the row TAR_TYPE_DIR takes before the default row LIT. Forty and
sixty-four bits are the magic selectors, written as the table writes them, first header byte most significant. -/
def decodeTableWord (nbits w : Nat) : Option Instr :=
  let v := w % 2 ^ nbits
  if nbits = 0 then none
  else if nbits = 40 ∨ nbits = 64 then
    match decodeMagic (bytesMsb (nbits / 8) v) with
    | .ok r => some r.1
    | .error _ => none
  else if nbits ≤ 8 ∧ v = 0x35 then some .tarTypeDir
  else some (decodeMain 0x0F (BitVec.ofNat 8 v))

end Sys2Proof
end

