-- ==== Sys2Proof/Machine/Operands.lean ====
section
/-! DEFINITION. Operand forms: multi-byte values and their byte orders (R66), slot selection (R94), stream windows (R156), the header
fields of a tar block (R98) and the values computed from them (R101, R214, R217, R218, R221). -/

namespace Sys2Proof.Machine

/-- `BE32` of four bytes (R10). -/
def be32 (bs : List Byte) : Word := BitVec.ofNat 32 (beNat bs)

/-- `LE32` of four bytes (R10). -/
def le32 (bs : List Byte) : Word := BitVec.ofNat 32 (leNat bs)

/-- Byte `j` of a patch: `dest[8j+7 : 8j]` (R184). -/
def destByte (dest : Word) (j : BitVec 2) : Byte := dest.extractLsb' (8 * j.toNat) 8

/-- The rebased displacement `u32(T - u32(out_pos + 4))` (R183). -/
def rebase (t outPos : Word) : Word := t - (outPos + 4)

/-- The slot of a CALL: the value of `prev_byte` (R94). -/
def slotOfPrev (prev : Byte) : Slot := ⟨prev.toNat, by have := prev.isLt; omega⟩

/-- The byte of a JCC with condition nibble `c` (R92). -/
def jccByte (c : BitVec 4) : Byte := (0x8 : BitVec 4) ++ c

/-- The upward update `p + ((2048 - p) >> 5)`, computed exactly; it never leaves 11 bits (R142). -/
def probUpValue (p : Prob) : Prob := BitVec.ofNat 11 (p.toNat + (Config.probOne - p.toNat) / 2 ^ Config.moveBits)

/-- The downward update `p - (p >> 5)`, computed exactly (R143). -/
def probDownValue (p : Prob) : Prob := BitVec.ofNat 11 (p.toNat - p.toNat / 2 ^ Config.moveBits)

/-- `start[k] = 20 + SIZE[0] + … + SIZE[k-1]`, an exact sum (R65, R156). -/
def windowStart (d : Descriptor) (k : Nat) : Nat :=
  Config.headerBytes + ((d.size.toList.take k).map BitVec.toNat).sum

/-- `base[k] = min(start[k], N)` (R65, R156). -/
def windowBase (d : Descriptor) (n k : Nat) : Nat := min (windowStart d k) n

/-- `len[k] = min(end[k], N) - base[k]` (R65, R156). -/
def windowLen (d : Descriptor) (n k : Nat) : Nat := min (windowStart d (k + 1)) n - windowBase d n k

/-- A header word: `LE32` of the four header bytes from offset `o` (R91). -/
def headerWord (h : List Byte) (o : Nat) : Word := le32 ((h.drop o).take 4)

/-- The descriptor of a 20-byte launch header (R91, R283). -/
def headerDescriptor (h : List Byte) : Descriptor where
  originalSize := headerWord h 0
  size := #v[headerWord h 4, headerWord h 8, headerWord h 12, headerWord h 16]

/-- Five hundred and twelve bytes as a header block (a shorter list is filled with zeros; TAR_STEP never has one). -/
def Header.ofBytes (bs : List Byte) : Header :=
  ⟨((bs ++ List.replicate 512 0).take 512).toArray, by
    rw [List.size_toArray, List.length_take, List.length_append, List.length_replicate]
    omega⟩

/-- The `n` header bytes at offset `o` (R98). -/
def headerField (h : Header) (o n : Nat) : List Byte := (h.toList.drop o).take n

/-- `cstr(f)`: the bytes of a field before its first NUL, or all of them (R214). -/
def cstr (f : List Byte) : List Byte := f.takeWhile (· != 0)

/-- The joined name of a header: name, or prefix, "/" and name when the prefix is not empty (R214). -/
def joinedName (h : Header) : List Byte :=
  let name := cstr (headerField h 0 100)
  let pre := cstr (headerField h 345 155)
  if pre = [] then name else pre ++ 0x2F :: name

/-- A field without its trailing NUL and space bytes (R101). -/
def trimField (f : List Byte) : List Byte := (f.reverse.dropWhile fun b => b == 0 || b == 0x20).reverse

/-- An ASCII octal digit `30`..`37` (R101). -/
def isOctal (b : Byte) : Bool := decide (0x30 ≤ b.toNat) && decide (b.toNat ≤ 0x37)

/-- The value of a string of octal digits, first digit most significant (R101). -/
def octalNat (f : List Byte) : Nat := f.foldl (fun acc b => acc * 8 + (b.toNat - 0x30)) 0

/-- The size a 12-byte size field gives, or nothing where a byte that is left after trimming is no octal digit (R101, R216). -/
def sizeOfField (f : List Byte) : Option Nat :=
  if (trimField f).all isOctal then some (octalNat (trimField f)) else none

/-- The last byte of a name is "/" (R217). -/
def endsInSlash (full : List Byte) : Bool := full.getLast? == some 0x2F

/-- Each non-overlapping ".." replaced by "_", scanning left to right (R218 (2)). -/
def replaceDots : List Byte → List Byte
  | [] => []
  | [a] => [a]
  | a :: b :: rest =>
    if a = 0x2E ∧ b = 0x2E then 0x5F :: replaceDots rest else a :: replaceDots (b :: rest)

/-- TAR_SANITIZE's value: every leading "/" removed, then ".." replaced (R218). -/
def sanitize (full : List Byte) : List Byte := replaceDots (full.dropWhile (· == 0x2F))

/-- The padding after a file's content (R221). -/
def tarPad (size : Nat) : Nat :=
  if size > 0 then (Config.tarBlock - size % Config.tarBlock) % Config.tarBlock else 0

/-- How far TAR_ADVANCE moves `tpos` (R221). -/
def tarAdvanceBy (isdir : Bool) (size : Nat) : Nat :=
  if isdir then Config.tarBlock else Config.tarBlock + size + tarPad size

end Sys2Proof.Machine
end

