-- ==== Sys2Proof/Machine/Ops.lean ====
section
/-! DEFINITION. The named operations over memories and registers: how an operation ends, the memories, the end of a session (finish and the
entry of StreamExhausted), the cursors, the output, the extractor's stop. -/

namespace Sys2Proof.Machine

/-- What one step of the machine answers. -/
abbrev Out := Host.Outcome State Fault Refusal

/-- How an operation ends: it returns a value; or it has ended the session or the extraction, and no later statement of it or
of its callers runs (R12, R211 `stop`); or it made an access that does not exist. -/
inductive Res (α : Type) where
  | ok (a : α) (s : State)
  | ended (s : State)
  | fault (f : Fault)
deriving Repr

/-- Sequencing: what follows an operation runs only where that operation returned. -/
def Res.bind {α β : Type} (r : Res α) (k : α → State → Res β) : Res β :=
  match r with
  | .ok a s => k a s
  | .ended s => .ended s
  | .fault f => .fault f

/-- The outcome of a whole operation; `store` puts the returned value where it belongs. -/
def Res.outcome {α : Type} (r : Res α) (store : α → State → State) : Out :=
  match r with
  | .ok a s => .next (store a s)
  | .ended s => .next s
  | .fault f => .fault f

/-- The outcome of an operation that returns nothing. -/
def Res.done (r : Res Unit) : Out := r.outcome fun _ s => s

/-! ## Memory -/

/-- The byte at an address, if one has been written. -/
def Memory.read : Memory → Nat → Option Byte
  | [], _ => none
  | (x, v) :: m, a => if x = a then some v else Memory.read m a

/-- Store one byte, keeping the addresses in order. -/
def Memory.write : Memory → Nat → Byte → Memory
  | [], a, v => [(a, v)]
  | (x, w) :: m, a, v =>
    if a < x then (a, v) :: (x, w) :: m
    else if a = x then (a, v) :: m
    else (x, w) :: Memory.write m a v

/-- The entries of a memory from the first one at or past address `a` on. -/
def Memory.skipTo (m : Memory) (a : Nat) : Memory := m.dropWhile fun c => c.1 < a

/-- The memory that holds a byte list from address `a` on. -/
def Memory.ofBytes : Nat → List Byte → Memory
  | _, [] => []
  | a, v :: vs => (a, v) :: Memory.ofBytes (a + 1) vs

/-- Store a byte list from address `a` on, keeping the addresses in order. -/
def Memory.overlay (m : Memory) (a : Nat) (bs : List Byte) : Memory :=
  m.filter (fun c => c.1 < a) ++ Memory.ofBytes a bs ++ m.filter (fun c => a + bs.length ≤ c.1)

/-- One byte of BLOB, defined for addresses below `N` (R11, R60). -/
def blobByte (s : State) (a : Nat) : Except Fault Byte :=
  if a < s.blob.size then
    match s.blob.cells.read a with
    | some v => .ok v
    | none => .error (.blobUnwritten a)
  else .error (.blobOutOfRange a)

/-- One byte of an output memory with addresses below `limit`. -/
def outByteIn (limit : Nat) (m : Memory) (a : Nat) : Except Fault Byte :=
  if a < limit then
    match m.read a with
    | some v => .ok v
    | none => .error (.outUnwritten a)
  else .error (.outOutOfRange a)

/-- One byte of OUT, defined for addresses below `ORIGINAL_SIZE` (R11, R61). -/
def outByte (s : State) (a : Nat) : Except Fault Byte := outByteIn s.dec.originalSize.toNat s.out a

/-- `n` bytes of an output memory at consecutive addresses, read one by one; what lies below the address reached is passed over. The same
as `readRun` of its bytes (`outRunIn_eq`). -/
def outRunIn (limit : Nat) : Memory → Nat → Nat → Except Fault (List Byte)
  | _, _, 0 => .ok []
  | m, a, n + 1 =>
    match outByteIn limit (m.skipTo a) a with
    | .error f => .error f
    | .ok v =>
      match outRunIn limit (m.skipTo a) (a + 1) n with
      | .error f => .error f
      | .ok vs => .ok (v :: vs)

/-- `MemRead(OUT, a, n)` (R11, R211, R220). -/
def outRun (s : State) (a n : Nat) : Except Fault (List Byte) := outRunIn s.dec.originalSize.toNat s.out a n

/-- `n` bytes at consecutive addresses, read one by one (R66, R68). -/
def readRun (byte : Nat → Except Fault Byte) : Nat → Nat → Except Fault (List Byte)
  | _, 0 => .ok []
  | a, n + 1 =>
    match byte a with
    | .error f => .error f
    | .ok v =>
      match readRun byte (a + 1) n with
      | .error f => .error f
      | .ok vs => .ok (v :: vs)

/-- A memory read as an operation; it changes nothing (R69). -/
def readOp {α : Type} (r : Except Fault α) (s : State) : Res α :=
  match r with
  | .ok v => .ok v s
  | .error f => .fault f

/-! ## The end of a session -/

/-- The transition to `Done`: `phase`, the result record, and the latch `resolving` (R187, R188, R259). -/
def finish (tag : EndTag) (s : State) : State :=
  { s with dec := { s.dec with phase := .done, resolving := false, result := { tag := tag, length := s.dec.outPos } } }

/-- `finish(Complete)` (R187). -/
def finishComplete (s : State) : State := finish .complete s

/-- TAKING AN EXCEPTION, the one entry there is: `raise StreamExhausted(k, off)` with `off = pos[k]` (R161, R188, R259). Nothing else
changes: every other register keeps what the rules had given it. There is no return from it (R261); START begins afresh. -/
def raiseExhausted (k : StreamIx) (s : State) : State := finish (.partialAt k s.demux.pos[k]) s

/-- An operation of a session: it acts while `phase = Run` and has no effect otherwise (R189, last row; assumption log 6). -/
def inSession (s : State) (o : Out) : Out := if s.dec.phase = .run then o else .next s

/-! ## Cursors (R155 to R165) -/

/-- Move the cursor of stream `k` forward by `n` (R162). -/
def advance (k : StreamIx) (n : Nat) (s : State) : State :=
  { s with demux := { s.demux with pos := s.demux.pos.set k (s.demux.pos[k] + n) } }

/-- The BLOB address of the next byte of stream `k` (R70). -/
def cursorAddress (s : State) (k : StreamIx) : Nat := s.demux.base[k] + s.demux.pos[k]

/-- CUR_FETCH(k): the next byte of stream `k`, not consumed (R158). -/
def curFetch (k : StreamIx) (s : State) : Res Byte :=
  if s.demux.pos[k] ≥ s.demux.len[k] then .ended (raiseExhausted k s)
  else readOp (blobByte s (cursorAddress s k)) s

/-- CUR_READ1(k): consume one byte of stream `k` (R157). -/
def curRead1 (k : StreamIx) (s : State) : Res Byte :=
  if s.demux.pos[k] ≥ s.demux.len[k] then .ended (raiseExhausted k s)
  else (readOp (blobByte s (cursorAddress s k)) s).bind fun v s => .ok v (advance k 1 s)

/-- CUR_READ4BE(k): consume one address word of stream `k`; the check comes first and a failure consumes nothing (R159). -/
def curRead4be (k : StreamIx) (s : State) : Res Word :=
  if rem s k < 4 then .ended (raiseExhausted k s)
  else (readOp (readRun (blobByte s) (cursorAddress s k) 4) s).bind fun a s => .ok (be32 a) (advance k 4 s)

/-! ## Output -/

/-- OUT_EMIT(v): store `v` at `out_pos`, then step `out_pos`; defined only for `out_pos < ORIGINAL_SIZE` (R185, R11; assumption log 12). -/
def outEmit (v : Byte) (s : State) : Res Unit :=
  if s.dec.outPos.ult s.dec.originalSize then
    .ok () { s with out := s.out.write s.dec.outPos.toNat v, dec := { s.dec with outPos := s.dec.outPos + 1 } }
  else .fault (.outOutOfRange s.dec.outPos.toNat)

/-- `prev_byte <- v`. -/
def setPrev (v : Byte) (s : State) : State := { s with dec := { s.dec with prevByte := v } }

/-- `resolving <- r`. -/
def setResolving (r : Bool) (s : State) : State := { s with dec := { s.dec with resolving := r } }

/-! ## The extractor -/

/-- `IMG_LEN`, the length of the image (R36, R210). -/
def imgLen (s : State) : Nat := s.dec.result.length.toNat

/-- The entry in hand discarded: nothing of a header or an entry is retained (R36, R224; assumption log 11). -/
def Tar.discard (x : Tar) : Tar :=
  { x with hdr := Vector.replicate 512 0, full := [], size := 0, isdir := false, clean := [] }

/-- The extractor lets go of the entry it has finished with (R224). -/
def tarDiscard (s : State) : State := { s with tar := s.tar.discard }

/-- `stop(r)`: the step and the extraction end with reason `r` (R211), and the entry in hand is discarded (R224). -/
def tarStopWith (r : TarStop) (s : State) : State := { s with tar := { s.tar.discard with stop := r, running := false } }

/-- `Sink(e)` (R63). -/
def sinkEvent (e : SinkEvent) (s : State) : State := { s with sink := s.sink ++ [e] }

/-- An operation of the extractor: it acts while `phase = Done` and has no effect otherwise (R285; assumption log 7). -/
def inExtraction (s : State) (o : Out) : Out := if s.dec.phase = .done then o else .next s

/-! ## Component ports -/

/-- The bit port of the range decoder (R129). -/
def portBit (v : Bool) (s : State) : State := { s with ports := { s.ports with bit := v } }

/-- The byte port of the demux (R165). -/
def portByte (v : Byte) (s : State) : State := { s with ports := { s.ports with byte := v } }

/-- The word port of the demux (R165). -/
def portWord (v : Word) (s : State) : State := { s with ports := { s.ports with word := v } }

end Sys2Proof.Machine
end

