-- ==== Sys2Proof/Machine/Extractor.lean ====
section
/-! DEFINITION. The TarExtractor: TAR_START_OP, TAR_STEP, its parts, and the selectors of the header (R210 to R226). -/

namespace Sys2Proof.Machine

/-! ## The parts -/

/-- TAR_START_OP's operation (R210). -/
def tarStartOp (s : State) : State :=
  { s with tar := { s.tar with tpos := s.launch.tarStart, count := 0, stop := .none, running := true } }

/-- `h <- MemRead(OUT, tpos, 512)` (R211). -/
def tarReadHeader (s : State) : Res Unit :=
  (readOp (outRun s s.tar.tpos Config.tarBlock) s).bind fun bs s =>
    .ok () { s with tar := { s.tar with hdr := Header.ofBytes bs } }

/-- TAR_NAME's operation (R214). -/
def tarName (s : State) : State := { s with tar := { s.tar with full := joinedName s.tar.hdr } }

/-- TAR_SIZE's operation (R216, R101). -/
def tarSize (s : State) : Res Unit :=
  match sizeOfField (headerField s.tar.hdr 124 12) with
  | some n => .ok () { s with tar := { s.tar with size := n } }
  | none => .ended (tarStopWith .badSize s)

/-- `isdir <- v`. -/
def setIsdir (v : Bool) (s : State) : State := { s with tar := { s.tar with isdir := v } }

/-- The meaning of a type-flag selector: '5' is a directory; any other flag a file unless the joined name ends in "/" (R217, R100). -/
def tarType (op : TypeOp) (s : State) : State :=
  match op with
  | .dir => setIsdir true s
  | .file _ => setIsdir (endsInSlash s.tar.full) s

/-- TAR_KIND's operation: the selector of header byte 156 (R217). -/
def tarKind (s : State) : State := tarType (classifyType s.tar.hdr[156]) s

/-- TAR_SANITIZE's operation (R218). -/
def tarSanitize (s : State) : State := { s with tar := { s.tar with clean := sanitize s.tar.full } }

/-- TAR_DIR's operation (R219). -/
def tarDir (s : State) : State := sinkEvent (.createDir s.tar.clean) s

/-- TAR_FILE's operation (R220). -/
def tarFile (s : State) : Res Unit :=
  if s.tar.tpos + Config.tarBlock + s.tar.size > imgLen s then .ended (tarStopWith .truncated s)
  else
    (readOp (outRun s (s.tar.tpos + Config.tarBlock) s.tar.size) s).bind fun content s =>
      .ok () (sinkEvent (.writeFile s.tar.clean content) s)

/-- TAR_ADVANCE's operation (R221). -/
def tarAdvance (s : State) : State :=
  { s with tar := { s.tar with tpos := s.tar.tpos + tarAdvanceBy s.tar.isdir s.tar.size } }

/-- The meaning of a magic selector: the end marker and a foreign magic stop, the two valid magics go on (R212, R213). -/
def tarMagic (op : MagicOp) (s : State) : Res Unit :=
  match op with
  | .endMark => .ended (tarStopWith .endMarker s)
  | .ustar => .ok () s
  | .gnu => .ok () s
  | .other _ => .ended (tarStopWith .magicMismatch s)

/-- The magic test on the held header: the selector of its bytes from 257 on (R211, R99). -/
def tarCheckMagic (s : State) : Res Unit := tarMagic (classifyMagic (headerField s.tar.hdr 257 8)) s

/-- The entry's event: a directory or a file (R211). -/
def tarEmit (s : State) : Res Unit := if s.tar.isdir then .ok () (tarDir s) else tarFile s

/-- `tar_count <- tar_count + 1`. -/
def tarCountUp (s : State) : State := { s with tar := { s.tar with count := s.tar.count + 1 } }

/-- What TAR_STEP does with a valid header: the name, the size, the kind, the sanitised name, the event, the count and the advance (R211); then
the entry, consumed once, is discarded (R224). -/
def tarEntry (s : State) : Res Unit :=
  (tarSize (tarName s)).bind fun _ s =>
    (tarEmit (tarSanitize (tarKind s))).bind fun _ s => .ok () (tarDiscard (tarAdvance (tarCountUp s)))

/-- TAR_STEP's operation (R211). -/
def tarStep (s : State) : Res Unit :=
  if s.tar.tpos + Config.tarBlock > imgLen s then .ended (tarStopWith .truncated s)
  else
    (tarReadHeader s).bind fun _ s => (tarCheckMagic s).bind fun _ s => tarEntry s

/-! ## The operations of the table -/

/-- TAR_START_OP (R210). -/
def execTarStartOp (s : State) : Out := inExtraction s (.next (tarStartOp s))

/-- TAR_STEP: repeated until `tar_stop ≠ None`, and without effect where no extraction runs (R210, R211; assumption log 7). -/
def execTarStep (s : State) : Out := inExtraction s (if s.tar.running then (tarStep s).done else .next s)

/-- TAR_NAME (R214). -/
def execTarName (s : State) : Out := inExtraction s (.next (tarName s))

/-- TAR_SIZE (R216). -/
def execTarSize (s : State) : Out := inExtraction s (tarSize s).done

/-- TAR_KIND (R217). -/
def execTarKind (s : State) : Out := inExtraction s (.next (tarKind s))

/-- TAR_SANITIZE (R218). -/
def execTarSanitize (s : State) : Out := inExtraction s (.next (tarSanitize s))

/-- TAR_DIR (R219). -/
def execTarDir (s : State) : Out := inExtraction s (.next (tarDir s))

/-- TAR_FILE (R220). -/
def execTarFile (s : State) : Out := inExtraction s (tarFile s).done

/-- TAR_ADVANCE (R221). -/
def execTarAdvance (s : State) : Out := inExtraction s (.next (tarAdvance s))

/-- TAR_MAGIC_END (R212). -/
def execTarMagicEnd (s : State) : Out := inExtraction s (tarMagic .endMark s).done

/-- TAR_MAGIC_USTAR: a valid header (R213). -/
def execTarMagicUstar (s : State) : Out := inExtraction s (tarMagic .ustar s).done

/-- TAR_MAGIC_GNU: a valid header, not distinguished (R213). -/
def execTarMagicGnu (s : State) : Out := inExtraction s (tarMagic .gnu s).done

/-- TAR_MAGIC_OTHER: a corrupt or foreign header (R213). -/
def execTarMagicOther (m : BitVec 40) (s : State) : Out := inExtraction s (tarMagic (.other m) s).done

/-- TAR_TYPE_DIR (R217). -/
def execTarTypeDir (s : State) : Out := inExtraction s (.next (tarType .dir s))

/-- TAR_TYPE_FILE (R217). -/
def execTarTypeFile (f : Byte) (s : State) : Out := inExtraction s (.next (tarType (.file f) s))

end Sys2Proof.Machine
end

