-- ==== Sys2Proof/Machine/Loader.lean ====
section
/-! DEFINITION. The loader, LOAD_HEADER (R283), which puts the core into its launch state. -/

namespace Sys2Proof.Machine

/-- HeaderTooSmall: fatal, the pipeline is aborted, so what the host still had to ask is dropped and no session starts; no state of the core is
touched (R250, R252; assumption log 9). -/
def raiseHeaderTooSmall (s : State) : State :=
  { s with launch := { s.launch with headerTooSmall := true }, cmds := [] }

/-- The descriptor and the mismatch flag of a header (R283). -/
def loadDescriptor (h : List Byte) (s : State) : State :=
  { s with
    launch :=
      { s.launch with
        desc := headerDescriptor h
        sizeMismatch := sizesMismatch (headerDescriptor h) s.blob.size
        headerTooSmall := false } }

/-- LOAD_HEADER (R283). -/
def execLoadHeader (s : State) : Out :=
  if s.blob.size < Config.headerBytes then .next (raiseHeaderTooSmall s)
  else ((readOp (readRun (blobByte s) 0 Config.headerBytes) s).outcome loadDescriptor)

end Sys2Proof.Machine
end

