-- ==== Sys2Proof/Machine/Demux.lean ====
section
/-! DEFINITION. The StreamDemux: DEMUX_SETUP, CUR_FETCH, CUR_READ1, CUR_READ4BE (R155 to R165). -/

namespace Sys2Proof.Machine

/-- The four windows of a descriptor over `N` bytes, every cursor at 0 (R156). -/
def windows (d : Descriptor) (n : Nat) : Demux where
  base := #v[windowBase d n 0, windowBase d n 1, windowBase d n 2, windowBase d n 3]
  len := #v[windowLen d n 0, windowLen d n 1, windowLen d n 2, windowLen d n 3]
  pos := Vector.replicate 4 0

/-- DEMUX_SETUP's operation, on the launch descriptor and `N` (R156). -/
def demuxSetup (s : State) : State := { s with demux := windows s.launch.desc s.blob.size }

/-- DEMUX_SETUP (R156). -/
def execDemuxSetup (s : State) : Out := inSession s (.next (demuxSetup s))

/-- CUR_FETCH(k): the byte goes to the byte port (R158, R165). -/
def execCurFetch (k : StreamIx) (s : State) : Out := inSession s ((curFetch k s).outcome portByte)

/-- CUR_READ1(k): the byte goes to the byte port (R157, R165). -/
def execCurRead1 (k : StreamIx) (s : State) : Out := inSession s ((curRead1 k s).outcome portByte)

/-- CUR_READ4BE(k): the word goes to the word port (R159, R165). -/
def execCurRead4be (k : StreamIx) (s : State) : Out := inSession s ((curRead4be k s).outcome portWord)

end Sys2Proof.Machine
end

