-- ==== Sys2Proof/Machine/Probability.lean ====
section
/-! DEFINITION. The ProbabilityModel: PROB_INIT, PROB_UP, PROB_DOWN (R140 to R148). -/

namespace Sys2Proof.Machine

/-- All 258 slots to 1024 (R141). -/
def probInit (s : State) : State := { s with prob := Vector.replicate 258 Config.probInit }

/-- The upward update of one slot (R142). -/
def probUp (slot : Slot) (s : State) : State := { s with prob := s.prob.set slot (probUpValue s.prob[slot]) }

/-- The downward update of one slot (R143). -/
def probDown (slot : Slot) (s : State) : State := { s with prob := s.prob.set slot (probDownValue s.prob[slot]) }

/-- PROB_INIT (R141). -/
def execProbInit (s : State) : Out := inSession s (.next (probInit s))

/-- PROB_UP(slot) (R142). -/
def execProbUp (slot : Slot) (s : State) : Out := inSession s (.next (probUp slot s))

/-- PROB_DOWN(slot) (R143). -/
def execProbDown (slot : Slot) (s : State) : Out := inSession s (.next (probDown slot s))

end Sys2Proof.Machine
end

