-- ==== Sys2Proof/Machine/RangeDecoder.lean ====
section
/-! DEFINITION. The RangeDecoder: RC_INIT, RC_DECODE_BIT, RC_NORMALIZE (R120 to R131). -/

namespace Sys2Proof.Machine

/-- `range <- r; code <- c`. -/
def setRc (range code : Word) (s : State) : State := { s with rc := { range := range, code := code } }

/-- `u32((code << 8) | v)` (R120, R124). -/
def shiftIn (code : Word) (v : Byte) : Word := (code <<< 8) ||| v.setWidth 32

/-- The seed loop: `n` bytes of stream3 shifted into `code` (R120). -/
def seedLoop : Nat → State → Res Unit
  | 0, s => .ok () s
  | n + 1, s => (curRead1 3 s).bind fun v s => seedLoop n (setRc s.rc.range (shiftIn s.rc.code v) s)

/-- RC_INIT's operation (R120). -/
def rcInit (s : State) : Res Unit := seedLoop Config.seedBytes (setRc Config.rangeInit 0 s)

/-- The normalisation loop. Each iteration consumes a byte, so `rem[3]` iterations are enough; where none is left and one more is
needed, the read raises (R124; DEDUCED, assumption log 18). The byte is requested before either register is shifted (D14). -/
def normLoop : Nat → State → Res Unit
  | 0, s => if needNorm s then .ended (raiseExhausted 3 s) else .ok () s
  | n + 1, s =>
    if needNorm s then
      (curRead1 3 s).bind fun v s => normLoop n (setRc (s.rc.range <<< 8) (shiftIn s.rc.code v) s)
    else .ok () s

/-- RC_NORMALIZE's operation (R124). -/
def rcNormalize (s : State) : Res Unit := normLoop (rem s 3) s

/-- The decision and the updates of RC_DECODE_BIT, before normalisation (R121 to R123, R125): the bit and the state. -/
def decide1 (slot : Slot) (s : State) : Bool × State :=
  if lt s s.prob[slot] then
    (false, probUp slot (setRc (bound s s.prob[slot]) s.rc.code s))
  else
    (true, probDown slot (setRc (s.rc.range - bound s s.prob[slot]) (s.rc.code - bound s s.prob[slot]) s))

/-- RC_DECODE_BIT's operation: decision, updates, normalisation, and only then the bit (R121, R125). -/
def decodeBit (slot : Slot) (s : State) : Res Bool :=
  (rcNormalize (decide1 slot s).2).bind fun _ t => .ok (decide1 slot s).1 t

/-- RC_INIT (R120). -/
def execRcInit (s : State) : Out := inSession s (rcInit s).done

/-- RC_DECODE_BIT(slot): the bit goes to the bit port (R121, R129). -/
def execRcDecodeBit (slot : Slot) (s : State) : Out := inSession s ((decodeBit slot s).outcome portBit)

/-- RC_NORMALIZE (R124). -/
def execRcNormalize (s : State) : Out := inSession s (rcNormalize s).done

end Sys2Proof.Machine
end

