-- ==== Sys2Proof/Machine/Orchestrator.lean ====
section
/-! DEFINITION. The Bcj2Decoder: the four main-stream instructions, RESOLVE, PATCH, EMIT4, OUT_EMIT, the main loop and START
(R175 to R193). -/

namespace Sys2Proof.Machine

/-! ## Shared procedures -/

/-- One round of EMIT4's loop: emit byte `j` of `dest`, track `prev_byte`, test fullness (R184). -/
def emitByte (dest : Word) (j : BitVec 2) (s : State) : Res Unit :=
  (outEmit (destByte dest j) { s with dec := { s.dec with j := j } }).bind fun _ s =>
    let s := setPrev (destByte dest j) s
    if outFull s then .ended (finishComplete s) else .ok () s

/-- EMIT4's loop over the byte numbers still to emit (R184). -/
def emitBytes (dest : Word) : List (BitVec 2) → State → Res Unit
  | [], s => .ok () s
  | j :: js, s => (emitByte dest j s).bind fun _ s => emitBytes dest js s

/-- EMIT4's operation (R184). -/
def emit4 (dest : Word) (s : State) : Res Unit := emitBytes dest [0, 1, 2, 3] s

/-- PATCH's operation: read `T`, rebase it against `out_pos`, latch and emit it (R183). -/
def patch (k : StreamIx) (s : State) : Res Unit :=
  (curRead4be k s).bind fun t s =>
    emit4 (rebase t s.dec.outPos) { s with dec := { s.dec with dest := rebase t s.dec.outPos } }

/-- RESOLVE's operation after the bit: bit 0 makes `b` the previous byte, bit 1 patches; then the state is Copying again (R182). -/
def resolveBit (b : Byte) (k : StreamIx) (bit : Bool) (s : State) : Res Unit :=
  if bit then (patch k s).bind fun _ s => .ok () (setResolving false s)
  else .ok () (setResolving false (setPrev b s))

/-- RESOLVE's operation after the opcode byte has been emitted: the fullness test, then the decision (R182). -/
def resolveEmitted (b : Byte) (slot : Slot) (k : StreamIx) (s : State) : Res Unit :=
  if outFull s then .ended (finishComplete s)
  else (decodeBit slot s).bind fun bit s => resolveBit b k bit s

/-- RESOLVE's operation (R182). The latch `b` is loaded as `resolving` is set, and is not cleared when RESOLVE ends: it keeps the opcode byte, dead, until the
next candidate (DESIGN CHOICE: R29 gives a dead latch no value; assumption log 22). -/
def resolve (b : Byte) (slot : Slot) (k : StreamIx) (s : State) : Res Unit :=
  (curRead1 0 { s with dec := { s.dec with resolving := true, b := b } }).bind fun _ s =>
    (outEmit b s).bind fun _ s => resolveEmitted b slot k s

/-- LIT's operation: copy the byte at the cursor (R178; the operand of LIT is that byte, assumption log 13). -/
def copyLiteral (s : State) : Res Unit :=
  (curRead1 0 s).bind fun v s => (outEmit v s).bind fun _ s => .ok () (setPrev v s)

/-! ## The instructions -/

/-- LIT (R178). -/
def execLit (_b : Byte) (s : State) : Out := inSession s (copyLiteral s).done

/-- CALL: slot `prev_byte`, stream 1 (R179). -/
def execCall (s : State) : Out := inSession s (resolve 0xE8 (slotOfPrev s.dec.prevByte) 1 s).done

/-- JMP: slot 256, stream 2 (R180). -/
def execJmp (s : State) : Out := inSession s (resolve 0xE9 Config.slotJmp 2 s).done

/-- JCC: slot 257, stream 2, whatever the condition nibble (R181). -/
def execJcc (c : BitVec 4) (s : State) : Out := inSession s (resolve (jccByte c) Config.slotJcc 2 s).done

/-- RESOLVE(b, slot, k) (R182). -/
def execResolve (b : Byte) (slot : Slot) (k : StreamIx) (s : State) : Out := inSession s (resolve b slot k s).done

/-- PATCH(b, k) (R183): `b` only says which stream `k` is. -/
def execPatch (_b : Byte) (k : StreamIx) (s : State) : Out := inSession s (patch k s).done

/-- EMIT4(dest) (R184). -/
def execEmit4 (dest : Word) (s : State) : Out :=
  inSession s (emit4 dest { s with dec := { s.dec with dest := dest } }).done

/-- OUT_EMIT(v) (R185). -/
def execOutEmit (v : Byte) (s : State) : Out := inSession s (outEmit v s).done

/-! ## The main loop and START -/

/-- The instruction a fetched byte is classified as, executed (R176). -/
def execMain (op : MainOp) (s : State) : Out :=
  match op with
  | .call => execCall s
  | .jmp => execJmp s
  | .jcc c => execJcc c s
  | .lit b => execLit b s

/-- STEP's iteration: fullness first, then fetch, classify and execute (R176, D7). -/
def mainLoop (s : State) : Out :=
  if outFull s then .next (finishComplete s)
  else
    match curFetch 0 s with
    | .ok b0 s => execMain (classifyMain s.dec.prevByte b0) s
    | .ended s => .next s
    | .fault f => .fault f

/-- STEP: one main-loop iteration (R176). -/
def execStep (s : State) : Out := inSession s (mainLoop s)

/-- What START writes before the seed (R175, R39): the windows, the probabilities, the decoder's registers. OUT's contents are unspecified,
so no byte of it is listed (assumption log 4); `b`, `dest`, `j` and the result record are free values (assumption log 5); a tar
extraction that had not stopped is over, since the two never overlap (R7; assumption log 17). -/
def startState (s : State) : State :=
  let s := probInit (demuxSetup s)
  { s with
    dec :=
      { phase := .run, originalSize := s.launch.desc.originalSize, outPos := 0, prevByte := 0, resolving := false,
        b := Config.freeLatchB s.free, dest := Config.freeLatchDest s.free, j := Config.freeLatchJ s.free,
        result := Config.freeResult s.free }
    tar := { s.tar with running := false }
    out := []
    free := s.free + 1 }

/-- START (R175). It is accepted in `Idle` and `Done` and has no effect in `Run` (R286); with `N < 20` no session starts (R156, R252;
assumption log 8). -/
def execStart (s : State) : Out :=
  if s.dec.phase = .run ∨ s.blob.size < Config.headerBytes then .next s
  else (rcInit (startState s)).done

end Sys2Proof.Machine
end

