-- ==== Sys2Proof/Machine/Dispatch.lean ====
section
/-! DEFINITION. The dispatch: one arm per constructor of Instr, each one direct call of that instruction's meaning. -/

namespace Sys2Proof.Machine

open Sys2Proof

def exec (i : Instr) (s : State) : Host.Outcome State Fault Refusal :=
  match i with
  | .call => Sys2Proof.Machine.execCall s
  | .jmp => Sys2Proof.Machine.execJmp s
  | .jcc c => Sys2Proof.Machine.execJcc c s
  | .lit b => Sys2Proof.Machine.execLit b s
  | .start => Sys2Proof.Machine.execStart s
  | .step => Sys2Proof.Machine.execStep s
  | .resolve b slot k => Sys2Proof.Machine.execResolve b slot k s
  | .patch b k => Sys2Proof.Machine.execPatch b k s
  | .emit4 dest => Sys2Proof.Machine.execEmit4 dest s
  | .outEmit v => Sys2Proof.Machine.execOutEmit v s
  | .rcInit => Sys2Proof.Machine.execRcInit s
  | .rcDecodeBit slot => Sys2Proof.Machine.execRcDecodeBit slot s
  | .rcNormalize => Sys2Proof.Machine.execRcNormalize s
  | .probInit => Sys2Proof.Machine.execProbInit s
  | .probUp slot => Sys2Proof.Machine.execProbUp slot s
  | .probDown slot => Sys2Proof.Machine.execProbDown slot s
  | .demuxSetup => Sys2Proof.Machine.execDemuxSetup s
  | .curFetch k => Sys2Proof.Machine.execCurFetch k s
  | .curRead1 k => Sys2Proof.Machine.execCurRead1 k s
  | .curRead4be k => Sys2Proof.Machine.execCurRead4be k s
  | .loadHeader => Sys2Proof.Machine.execLoadHeader s
  | .tarStartOp => Sys2Proof.Machine.execTarStartOp s
  | .tarStep => Sys2Proof.Machine.execTarStep s
  | .tarName => Sys2Proof.Machine.execTarName s
  | .tarSize => Sys2Proof.Machine.execTarSize s
  | .tarKind => Sys2Proof.Machine.execTarKind s
  | .tarSanitize => Sys2Proof.Machine.execTarSanitize s
  | .tarDir => Sys2Proof.Machine.execTarDir s
  | .tarFile => Sys2Proof.Machine.execTarFile s
  | .tarAdvance => Sys2Proof.Machine.execTarAdvance s
  | .tarMagicEnd => Sys2Proof.Machine.execTarMagicEnd s
  | .tarMagicUstar => Sys2Proof.Machine.execTarMagicUstar s
  | .tarMagicGnu => Sys2Proof.Machine.execTarMagicGnu s
  | .tarMagicOther m => Sys2Proof.Machine.execTarMagicOther m s
  | .tarTypeDir => Sys2Proof.Machine.execTarTypeDir s
  | .tarTypeFile f => Sys2Proof.Machine.execTarTypeFile f s

end Sys2Proof.Machine
end

