-- ==== Sys2Proof/Machine/Sequencer.lean ====
section
/-! DEFINITION. Which operation the machine takes next: the main loop while a session runs, the extractor while an extraction runs, the host's oldest
command when neither does, else nothing (R7, R8, R176, R210, R290; assumption log 1). -/

namespace Sys2Proof.Machine

/-- What the next step is. -/
inductive Action where
  /-- Execute an operation in a state. -/
  | run (i : Instr) (s : State)
  /-- Answer a state. -/
  | settle (s : State)
  /-- Refuse. -/
  | refuse (r : Refusal)
deriving Repr

/-- A session or an extraction is running. -/
def busy (s : State) : Bool := s.dec.phase == .run || s.tar.running

/-- What the core does by itself: an iteration of the main loop, an iteration of the extractor, or nothing (R8). -/
def coreAction (s : State) : Action :=
  if s.dec.phase = .run then .run .step s
  else if s.tar.running then .run .tarStep s
  else .settle s

/-- Put a buffer into BLOB: the bytes at 0 .. N-1 and `N` (R282 (1)). -/
def placeBlob (bytes : List Byte) (s : State) : State :=
  { s with blob := { cells := Memory.ofBytes 0 bytes, size := bytes.length } }

/-- What a command of the host makes the machine do, `s` being the state with the command taken (R282, R290). -/
def cmdAction (c : Cmd) (s : State) : Action :=
  match c with
  | .place bytes => if s.dec.phase = .run then .refuse .blobWriteDuringRun else .settle (placeBlob bytes s)
  | .setDescriptor d => .settle { s with launch := { s.launch with desc := d } }
  | .setTarStart n => .settle { s with launch := { s.launch with tarStart := n } }
  | .issue op => .run op.instr s
  | .await => .settle s
  | .powerOn => .settle { State.reset with cmds := s.cmds, free := s.free }

/-- Whether a command is held back until nothing runs: the host acts only before a session and after it has ended, and waits meanwhile (R7, R290). Not
held back are power-on reset, the one event from outside that ends a session (R257), and what a rule answers during a session: START has no effect
(R286), and placing a buffer is refused (R284, U5). -/
def Cmd.waits (c : Cmd) (s : State) : Bool :=
  match c with
  | .powerOn => false
  | .issue .start => s.dec.phase != .run && s.tar.running
  | .place _ => s.dec.phase != .run && s.tar.running
  | .issue .loadHeader => busy s
  | .issue .tarStart => busy s
  | .setDescriptor _ => busy s
  | .setTarStart _ => busy s
  | .await => busy s

/-- The next action: a command that waits stays at the head, and the machine goes on meanwhile (R7, R282 (5)). -/
def nextAction (s : State) : Action :=
  match s.cmds with
  | [] => coreAction s
  | c :: rest =>
    if c.waits s then coreAction s else cmdAction c { s with cmds := rest }

/-- The state in which the main-stream byte `b`, to be read as instruction `i`, is what the main loop fetches next: a session runs, no command
is pending, OUT has room, `b` stands at the cursor of stream0, and a JCC finds `prev_byte = 0F` (assumption log 14). -/
def armMain (i : Instr) (b : Byte) (s : State) : State :=
  let a := cursorAddress s 0
  let room := s.dec.outPos.ult s.dec.originalSize
  { s with
    cmds := []
    blob := { cells := s.blob.cells.write a b, size := max s.blob.size (a + 1) }
    demux := { s.demux with len := s.demux.len.set 0 (max s.demux.len[0] (s.demux.pos[0] + 1)) }
    dec :=
      { s.dec with
        phase := .run
        prevByte := match i with
          | .jcc _ => 0x0F
          | _ => s.dec.prevByte
        outPos := if room then s.dec.outPos else 0
        originalSize := if room then s.dec.originalSize else 1 } }

/-- A header block with the given bytes from offset 257 on and every other byte 0 (R98, R99). -/
def magicBlock (bs : List Byte) : List Byte :=
  List.replicate 257 0 ++ bs ++ List.replicate (255 - bs.length) 0

/-- A valid header block with type flag `f`, its name empty and its size 0 (R98, R100). -/
def flagBlock (f : Byte) : List Byte :=
  List.replicate 156 0 ++ [f] ++ List.replicate 100 0 ++ ustarBytes ++ List.replicate 250 0

/-- The state in which a header block is what the extractor reads next: the session is over, an extraction runs, no command is pending, the image
reaches past the block, and the block stands in OUT at `tpos` (assumption log 14). -/
def armHeader (block : List Byte) (s : State) : State :=
  let a := if s.tar.tpos + 512 < 2 ^ 32 then s.tar.tpos else 0
  { s with
    cmds := []
    out := s.out.overlay a block
    tar := { s.tar with tpos := a, stop := .none, running := true }
    dec :=
      { s.dec with
        phase := .done
        originalSize := if a + 512 ≤ s.dec.originalSize.toNat then s.dec.originalSize else BitVec.ofNat 32 (a + 512)
        result :=
          if a + 512 ≤ s.dec.result.length.toNat then s.dec.result
          else { tag := .complete, length := BitVec.ofNat 32 (a + 512) } } }

end Sys2Proof.Machine
end

