-- ==== Sys2Proof/Machine/Step.lean ====
section
/-! DEFINITION. One step of the machine, and where it finds the instruction it runs next. -/

namespace Sys2Proof.Machine

/-- One step: take the next action (R8). -/
def step (s : State) : Host.Outcome State Fault Refusal :=
  match nextAction s with
  | .run i t => exec i t
  | .settle t => .next t
  | .refuse r => .refused r

/-- `s` with the instruction of a table word where the next step fetches: at the cursor of stream0 for a main-stream byte, in the
header block at `tpos` of OUT for a selector of the tar header, which TAR_STEP reads there (assumption log 14). -/
def State.withFetchWord (s : State) (nbits w : Nat) : State :=
  match decodeTableWord nbits w with
  | none => s
  | some i =>
    match i.format with
    | .main => armMain i (BitVec.ofNat 8 (w % 2 ^ nbits)) s
    | .internal => s
    | .magic5 => armHeader (magicBlock (bytesMsb (nbits / 8) (w % 2 ^ nbits))) s
    | .magic8 => armHeader (magicBlock (bytesMsb (nbits / 8) (w % 2 ^ nbits))) s
    | .typeFlag => armHeader (flagBlock (BitVec.ofNat 8 (w % 2 ^ nbits))) s

end Sys2Proof.Machine
end

