-- ==== Sys2Proof/Safety.lean ====
section
/-! DEFINITION. The terms claims are stated in: what a stream offers at its cursor, what operations leave alone, and the invariant of a lawful run. -/

namespace Sys2Proof.Machine

/-! ## What a stream offers -/

/-- The byte `i` places after the cursor of stream `k`, where the window reaches that far and BLOB holds it (R157, R70). -/
def streamByte (s : State) (k : StreamIx) (i : Nat) : Option Byte :=
  if s.demux.pos[k] + i < s.demux.len[k] ∧ cursorAddress s k + i < s.blob.size then
    s.blob.cells.read (cursorAddress s k + i)
  else none

/-- The next four bytes of stream `k` (R159). -/
def streamWord (s : State) (k : StreamIx) (a0 a1 a2 a3 : Byte) : Prop :=
  streamByte s k 0 = some a0 ∧ streamByte s k 1 = some a1 ∧ streamByte s k 2 = some a2 ∧ streamByte s k 3 = some a3

/-- The address at which stream `k` would start if BLOB had no end: 20 and the declared sizes before it (R65). -/
def declaredStart (d : Descriptor) (k : Fin 5) : Nat :=
  match k with
  | 0 => 20
  | 1 => 20 + d.size[0].toNat
  | 2 => 20 + d.size[0].toNat + d.size[1].toNat
  | 3 => 20 + d.size[0].toNat + d.size[1].toNat + d.size[2].toNat
  | 4 => 20 + d.size[0].toNat + d.size[1].toNat + d.size[2].toNat + d.size[3].toNat

/-! ## Frames -/

/-- What no operation of a session touches: the extractor, the launch record, BLOB, the sink, the commands (R41, R60, R63). -/
structure SessionFrame (s t : State) : Prop where
  tar : t.tar = s.tar
  launch : t.launch = s.launch
  blob : t.blob = s.blob
  sink : t.sink = s.sink
  cmds : t.cmds = s.cmds
  free : t.free = s.free

/-- What no operation of the extractor touches but its own registers and the sink (R41, R71 (d)). -/
structure ExtractionFrame (s t : State) : Prop where
  rc : t.rc = s.rc
  prob : t.prob = s.prob
  demux : t.demux = s.demux
  dec : t.dec = s.dec
  launch : t.launch = s.launch
  blob : t.blob = s.blob
  out : ∀ a, t.out.read a = s.out.read a
  ports : t.ports = s.ports
  cmds : t.cmds = s.cmds
  free : t.free = s.free

/-- Every byte of OUT outside the `n` bytes from address `a` on reads as before. -/
def OutSameOutside (s t : State) (a n : Nat) : Prop :=
  ∀ x, x < a ∨ a + n ≤ x → t.out.read x = s.out.read x

/-- Every slot but `slot` is unchanged (R140). -/
def OtherSlotsSame (s t : State) (slot : Slot) : Prop :=
  ∀ i : Slot, i ≠ slot → t.prob[i] = s.prob[i]

/-- The windows are unchanged and so is every cursor not in the list (R162). -/
def OtherCursorsSame (s t : State) (moved : List StreamIx) : Prop :=
  t.demux.base = s.demux.base ∧ t.demux.len = s.demux.len ∧
    ∀ k : StreamIx, k ∉ moved → t.demux.pos[k] = s.demux.pos[k]

/-- Two states agree on a session: its registers but for the dead latches `b`, `dest`, `j` and a result record not valid yet, BLOB and OUT
(R37, R38). -/
structure SessionEq (s t : State) : Prop where
  rc : t.rc = s.rc
  prob : t.prob = s.prob
  demux : t.demux = s.demux
  phase : t.dec.phase = s.dec.phase
  originalSize : t.dec.originalSize = s.dec.originalSize
  outPos : t.dec.outPos = s.dec.outPos
  prevByte : t.dec.prevByte = s.dec.prevByte
  resolving : t.dec.resolving = s.dec.resolving
  blob : t.blob = s.blob
  out : t.out = s.out

/-! ## The arithmetic of a decision, in exact numbers (R121 to R123, R142, R143) -/

/-- `(range >> 11) * p`, not reduced (R121). -/
def boundNat (s : State) (slot : Slot) : Nat := s.rc.range.toNat / 2048 * s.prob[slot].toNat

/-- The decided bit is 1 (R121). -/
def decidedOne (s : State) (slot : Slot) : Bool := decide (boundNat s slot ≤ s.rc.code.toNat)

/-- `range` after the decision and before normalisation (R122, R123). -/
def decidedRange (s : State) (slot : Slot) : Nat :=
  if decidedOne s slot then s.rc.range.toNat - boundNat s slot else boundNat s slot

/-- `code` after the decision and before normalisation (R122, R123). -/
def decidedCode (s : State) (slot : Slot) : Nat :=
  if decidedOne s slot then s.rc.code.toNat - boundNat s slot else s.rc.code.toNat

/-- The slot's value after the decision (R142, R143). -/
def decidedProb (s : State) (slot : Slot) : Nat :=
  if decidedOne s slot then s.prob[slot].toNat - s.prob[slot].toNat / 32
  else s.prob[slot].toNat + (2048 - s.prob[slot].toNat) / 32

/-- `range` and `code` after normalisation, and how many bytes of stream3 it consumed, where it returns with at most one: nothing is done from 2^24 on;
from 2^16 on one byte is enough (R124, R127). -/
def settled (s : State) (slot : Slot) : Option (Nat × Nat × Nat) :=
  if 2 ^ 24 ≤ decidedRange s slot then some (decidedRange s slot, decidedCode s slot, 0)
  else if 2 ^ 16 ≤ decidedRange s slot then
    (streamByte s 3 0).map fun v => (decidedRange s slot * 256, (decidedCode s slot * 256 + v.toNat) % 2 ^ 32, 1)
  else none

/-- A decision on `slot` has been taken and has settled with `r`: what it leaves in `range`, `code`, the slots and the cursor of stream3. -/
structure DecisionTaken (s t : State) (slot : Slot) (r : Nat × Nat × Nat) : Prop where
  range : t.rc.range.toNat = r.1
  code : t.rc.code.toNat = r.2.1
  slotValue : t.prob[slot].toNat = decidedProb s slot
  others : OtherSlotsSame s t slot
  cursor : t.demux.pos[3] = s.demux.pos[3] + r.2.2

/-! ## Patches -/

/-- What emitting `dest` from address `p` of OUT on leaves: its `n` low bytes, least significant first, `n` being 4 or the room OUT has there; the session is
Complete exactly when they fill OUT (R184). -/
structure PatchWritten (s t : State) (p n : Nat) (dest : Word) : Prop where
  bytes : ∀ i, i < n → t.out.read (p + i) = some (BitVec.ofNat 8 (dest.toNat / 2 ^ (8 * i)))
  outPos : t.dec.outPos.toNat = p + n
  prev : t.dec.prevByte = BitVec.ofNat 8 (dest.toNat / 2 ^ (8 * (n - 1)))
  last : t.dec.j.toNat = n - 1
  dest : t.dec.dest = dest
  originalSize : t.dec.originalSize = s.dec.originalSize
  full : p + n = s.dec.originalSize.toNat →
    t.dec.phase = .done ∧ t.dec.resolving = false ∧ t.dec.result = { tag := .complete, length := s.dec.originalSize }
  room : p + n ≠ s.dec.originalSize.toNat → t.dec.phase = .run ∧ t.dec.result = s.dec.result

/-! ## Candidates -/

/-- What each candidate instruction resolves: the opcode byte, the slot and the address stream (R94, R179 to R182). -/
def candidateOf (s : State) : Instr → Option (Byte × Slot × StreamIx)
  | .call => some (0xE8, slotOfPrev s.dec.prevByte, 1)
  | .jmp => some (0xE9, 256, 2)
  | .jcc c => some (jccByte c, 257, 2)
  | .resolve b slot k => some (b, slot, k)
  | _ => none

/-- The document's TarMagicMismatch: a foreign magic in the first header (R222, R254). -/
def tarMagicMismatch (s : State) : Bool := s.tar.stop == .magicMismatch && s.tar.count == 0

/-- The operations of a session: without effect unless `phase = Run` (R189). START, LOAD_HEADER and the extractor are not among them. -/
def ofSession : Instr → Bool
  | .call | .jmp | .jcc _ | .lit _ | .step | .resolve _ _ _ | .patch _ _ | .emit4 _ | .outEmit _ | .rcInit
  | .rcDecodeBit _ | .rcNormalize | .probInit | .probUp _ | .probDown _ | .demuxSetup | .curFetch _ | .curRead1 _
  | .curRead4be _ => true
  | _ => false

/-- The operations of the extractor: without effect unless `phase = Done` (R285). -/
def ofExtractor (i : Instr) : Bool := !ofSession i && i != .start && i != .loadHeader

/-- The extractor's next header is `h`: it lies in the image, and OUT holds its bytes (R211, R98). -/
structure HeaderAt (s : State) (h : Header) : Prop where
  inImage : s.tar.tpos + 512 ≤ imgLen s
  inOut : imgLen s ≤ s.dec.originalSize.toNat
  bytes : ∀ i : Fin 512, s.out.read (s.tar.tpos + i) = some h[i]

/-- The `n` content bytes of a file whose header stands at `tpos` are `content`: they lie in the image, and OUT holds them (R220). -/
structure ContentAt (s : State) (content : List Byte) : Prop where
  inImage : s.tar.tpos + 512 + content.length ≤ imgLen s
  inOut : imgLen s ≤ s.dec.originalSize.toNat
  bytes : ∀ i (hi : i < content.length), s.out.read (s.tar.tpos + 512 + i) = some content[i]

/-! ## The invariant -/

/-- Both memories are in canonical form. -/
def State.memWf (s : State) : Prop := s.blob.cells.wf ∧ s.out.wf

/-- What holds at every head of the main loop. -/
structure RunInv (s : State) : Prop where
  /-- Each window lies in BLOB (R65, R70). -/
  window : ∀ k : StreamIx, s.demux.base[k] + s.demux.len[k] ≤ s.blob.size
  /-- No cursor is past its window (R23). -/
  cursor : ∀ k : StreamIx, s.demux.pos[k] ≤ s.demux.len[k]
  /-- `range` is normalised (R127 I1). -/
  range : 2 ^ 24 ≤ s.rc.range.toNat
  /-- Every slot is in the reachable range (R127 I2, R144). -/
  probs : ∀ i : Slot, 31 ≤ s.prob[i].toNat ∧ s.prob[i].toNat ≤ 2017
  /-- Law L2: every instruction byte gives one output byte and every address word four (R191). -/
  count : s.dec.outPos.toNat = s.demux.pos[0] + s.demux.pos[1] + s.demux.pos[2]
  /-- `prev_byte` is the last byte of OUT, 0 before any (R186). -/
  prev : if s.dec.outPos = 0 then s.dec.prevByte = 0 else s.out.read (s.dec.outPos.toNat - 1) = some s.dec.prevByte

/-- What every step of a lawful run keeps. -/
structure State.Inv (s : State) : Prop where
  /-- BLOB holds a byte at each address below `N` (R60). -/
  placed : ∀ a, a < s.blob.size → (s.blob.cells.read a).isSome = true
  /-- The latch is clear between steps (R29). -/
  resolving : s.dec.resolving = false
  /-- The main loop's invariant while a session runs. -/
  run : s.dec.phase = .run → RunInv s
  /-- `out_pos` never passes ORIGINAL_SIZE (R25). -/
  bounded : s.dec.phase ≠ .idle → s.dec.outPos.toNat ≤ s.dec.originalSize.toNat
  /-- Exactly the bytes below `out_pos` have been written (R61). -/
  written : s.dec.phase ≠ .idle → ∀ a, (s.out.read a).isSome = true ↔ a < s.dec.outPos.toNat
  /-- The record's length is `out_pos`, and `Complete` means full (R31, R187, R188). -/
  done : s.dec.phase = .done →
    s.dec.result.length = s.dec.outPos ∧ (s.dec.result.tag = .complete → s.dec.outPos = s.dec.originalSize)
  /-- An extraction runs only after a session, and has no stop reason yet (R285, R36). -/
  tar : s.tar.running = true → s.dec.phase = .done ∧ s.tar.stop = .none
  /-- Nothing of a header or an entry is held between steps (R36, R224). -/
  discarded : s.tar = s.tar.discard

end Sys2Proof.Machine
end

