-- ==== Sys2Proof/Certificates/Slice0/Obligations.lean ====
section
/-! DEFINITION. The statements for the provers, from the numbered rules of spec/. -/

open Sys2Proof Sys2Proof.Machine

/-! ## Encodings -/

/-- R92, R98 to R100: decoding the bytes of a well-formed encoded instruction gives it back, with what follows it left over. (The five bytes of
"ustar" followed by the rest of the GNU variant are read as that variant, assumption log 15.) -/
def Obligations.DecodeOfEncodeIsTheInstruction : Prop :=
  ∀ (prev : Byte) (i : Instr) (rest : List Byte),
    i.wellFormedAt prev = true → i.format ≠ .internal →
    (i = .tarMagicUstar → rest.take 3 ≠ [0x20, 0x20, 0x00]) →
    decodeAs i.format prev (encode i ++ rest) = .ok (i, rest)

/-- R102: the class table is total, and every byte is one legal instruction, whose one-byte encoding is that byte again. -/
def Obligations.EveryMainByteIsOneInstruction : Prop :=
  ∀ prev b : Byte, (decodeMain prev b).wellFormedAt prev = true ∧ encode (decodeMain prev b) = [b]

/-- R92, R177: the four classes and their conditions; the main loop's candidate test is true exactly of the bytes that are not literals. -/
def Obligations.MainClassesFollowTheTable : Prop :=
  ∀ prev b : Byte,
    (decodeMain prev b = .call ↔ b.toNat = 0xE8) ∧
    (decodeMain prev b = .jmp ↔ b.toNat = 0xE9) ∧
    (∀ c : BitVec 4, decodeMain prev b = .jcc c ↔ prev.toNat = 0x0F ∧ b.toNat = 0x80 + c.toNat) ∧
    (decodeMain prev b = .lit b ↔
      b.toNat ≠ 0xE8 ∧ b.toNat ≠ 0xE9 ∧ ¬(prev.toNat = 0x0F ∧ b.toNat / 16 = 8)) ∧
    (∀ s : State, s.dec.prevByte = prev → (cand s b = false ↔ decodeMain prev b = .lit b))

/-- Words written out from the spec's encodings decode to the instructions they stand for. -/
def Obligations.SampleWordsDecode : Prop :=
  decodeTableWord 8 0xE8 = some .call ∧ decodeTableWord 8 0xE9 = some .jmp ∧
    decodeTableWord 8 0x84 = some (.jcc 4) ∧ decodeTableWord 8 0x55 = some (.lit 0x55) ∧
    decodeTableWord 40 0x7573746172 = some .tarMagicUstar ∧ decodeTableWord 8 0x35 = some .tarTypeDir

/-! ## The range decoder -/

/-- R126: the product `(range >> 11) * p` never wraps, is at most `0xFFDFF801`, and is below `range` once `range ≥ 2048`; with `p ≥ 1` it is not 0. -/
def Obligations.BoundNeverWraps : Prop :=
  ∀ (s : State) (slot : Slot),
    (bound s s.prob[slot]).toNat = boundNat s slot ∧ boundNat s slot ≤ 0xFFDFF801 ∧
    (2048 ≤ s.rc.range.toNat → boundNat s slot < s.rc.range.toNat) ∧
    (2048 ≤ s.rc.range.toNat → 1 ≤ s.prob[slot].toNat → 1 ≤ boundNat s slot)

/-- R121 to R124, R127: RC_DECODE_BIT completes where its normalisation settles with at most one byte of stream3: the bit goes to the port; `range`, `code`, the
slot and the cursor of stream3 are updated; nothing else changes. -/
def Obligations.DecodeBitCompletes : Prop :=
  ∀ (s : State) (slot : Slot) (r : Nat × Nat × Nat), s.dec.phase = .run → settled s slot = some r →
    ∃ t, exec (.rcDecodeBit slot) s = .next t ∧
      t.ports.bit = decidedOne s slot ∧ t.ports.byte = s.ports.byte ∧ t.ports.word = s.ports.word ∧
      DecisionTaken s t slot r ∧ OtherCursorsSame s t [3] ∧
      t.dec = s.dec ∧ (∀ a, t.out.read a = s.out.read a) ∧ SessionFrame s t

/-- R121, R251: where normalisation needs a byte stream3 lacks, the session ends `Partial(3, len[3])` with the decision's writes done and the shift not
done; no bit is returned. -/
def Obligations.DecodeBitRunsDry : Prop :=
  ∀ (s : State) (slot : Slot), s.dec.phase = .run → decidedRange s slot < 2 ^ 24 →
    s.demux.pos[3] = s.demux.len[3] →
    ∃ t, exec (.rcDecodeBit slot) s = .next t ∧
      t.dec = { s.dec with
        phase := .done, resolving := false,
        result := { tag := .partialAt 3 s.demux.len[3], length := s.dec.outPos } } ∧
      t.rc.range.toNat = decidedRange s slot ∧ t.rc.code.toNat = decidedCode s slot ∧
      t.prob[slot].toNat = decidedProb s slot ∧ OtherSlotsSame s t slot ∧
      t.ports = s.ports ∧ t.demux = s.demux ∧ (∀ a, t.out.read a = s.out.read a) ∧ SessionFrame s t

/-- R127, R128: from `range ≥ 2^24` and a slot in 31..2017, a decision that returns leaves both so and has consumed at most one byte; if `code < range`
held when it was entered, it holds when it returns. -/
def Obligations.DecodeBitKeepsItsInvariants : Prop :=
  ∀ (s t : State) (slot : Slot), s.dec.phase = .run → 2 ^ 24 ≤ s.rc.range.toNat →
    31 ≤ s.prob[slot].toNat → s.prob[slot].toNat ≤ 2017 →
    exec (.rcDecodeBit slot) s = .next t → t.dec.phase = .run →
    2 ^ 24 ≤ t.rc.range.toNat ∧ 31 ≤ t.prob[slot].toNat ∧ t.prob[slot].toNat ≤ 2017 ∧
    (t.demux.pos[3] = s.demux.pos[3] ∨ t.demux.pos[3] = s.demux.pos[3] + 1) ∧
    (s.rc.code.toNat < s.rc.range.toNat → t.rc.code.toNat < t.rc.range.toNat)

/-- R124: RC_NORMALIZE is the loop the rule writes: nothing where `range ≥ 2^24`; else the entry of StreamExhausted where stream3 has no byte; else
one byte shifted in and the loop again. -/
def Obligations.NormalizeIsTheLoop : Prop :=
  ∀ s : State, s.dec.phase = .run →
    (2 ^ 24 ≤ s.rc.range.toNat → exec .rcNormalize s = .next s) ∧
    (s.rc.range.toNat < 2 ^ 24 → s.demux.len[3] ≤ s.demux.pos[3] →
      exec .rcNormalize s = .next { s with dec := { s.dec with
        phase := .done, resolving := false,
        result := { tag := .partialAt 3 s.demux.pos[3], length := s.dec.outPos } } }) ∧
    (∀ v, s.rc.range.toNat < 2 ^ 24 → streamByte s 3 0 = some v →
      exec .rcNormalize s = exec .rcNormalize { s with
        rc := { range := s.rc.range <<< 8, code := BitVec.ofNat 32 (s.rc.code.toNat * 256 + v.toNat) }
        demux := { s.demux with pos := s.demux.pos.set 3 (s.demux.pos[3] + 1) } })

/-- R120: RC_INIT on five bytes of stream3: `code` is the big-endian value of the last four, `range` the maximum, the cursor five further; nothing
else changes. The first byte has no effect, nor the value `code` held. -/
def Obligations.RcInitSeedsCode : Prop :=
  ∀ (s : State) (s0 s1 s2 s3 s4 : Byte), s.dec.phase = .run →
    streamByte s 3 0 = some s0 → streamByte s 3 1 = some s1 → streamByte s 3 2 = some s2 →
    streamByte s 3 3 = some s3 → streamByte s 3 4 = some s4 →
    ∃ t, exec .rcInit s = .next t ∧
      t.rc.code.toNat = s1.toNat * 2 ^ 24 + s2.toNat * 2 ^ 16 + s3.toNat * 2 ^ 8 + s4.toNat ∧
      t.rc.range.toNat = 2 ^ 32 - 1 ∧ t.demux.pos[3] = s.demux.pos[3] + 5 ∧ OtherCursorsSame s t [3] ∧
      t.prob = s.prob ∧ t.dec = s.dec ∧ (∀ a, t.out.read a = s.out.read a) ∧ t.ports = s.ports ∧ SessionFrame s t

/-! ## The probability model -/

/-- R141: PROB_INIT sets all 258 slots to 1024 and changes nothing else. -/
def Obligations.ProbInitSetsEverySlot : Prop :=
  ∀ s : State, s.dec.phase = .run →
    ∃ t, exec .probInit s = .next t ∧ (∀ i : Slot, t.prob[i].toNat = 1024) ∧ t = { s with prob := t.prob }

/-- R142: PROB_UP(slot) adds `(2048 - p) >> 5` to the slot, in 11 bits without wrapping; the slot is unchanged exactly from 2017 on; nothing else
changes. -/
def Obligations.ProbUpRaisesTheSlot : Prop :=
  ∀ (s : State) (slot : Slot), s.dec.phase = .run →
    ∃ t, exec (.probUp slot) s = .next t ∧
      t.prob[slot].toNat = s.prob[slot].toNat + (2048 - s.prob[slot].toNat) / 32 ∧ t.prob[slot].toNat ≤ 2047 ∧
      (t.prob[slot] = s.prob[slot] ↔ 2017 ≤ s.prob[slot].toNat) ∧
      OtherSlotsSame s t slot ∧ t = { s with prob := t.prob }

/-- R143: PROB_DOWN(slot) takes `p >> 5` from the slot; the slot is unchanged exactly up to 31; nothing else changes. -/
def Obligations.ProbDownLowersTheSlot : Prop :=
  ∀ (s : State) (slot : Slot), s.dec.phase = .run →
    ∃ t, exec (.probDown slot) s = .next t ∧
      t.prob[slot].toNat = s.prob[slot].toNat - s.prob[slot].toNat / 32 ∧
      (t.prob[slot] = s.prob[slot] ↔ s.prob[slot].toNat ≤ 31) ∧
      OtherSlotsSame s t slot ∧ t = { s with prob := t.prob }

/-- R144: no instruction takes a slot out of 31..2017 once all are in it. -/
def Obligations.EveryInstructionKeepsSlotsReachable : Prop :=
  ∀ (i : Instr) (s t : State), (∀ k : Slot, 31 ≤ s.prob[k].toNat ∧ s.prob[k].toNat ≤ 2017) →
    exec i s = .next t → ∀ k : Slot, 31 ≤ t.prob[k].toNat ∧ t.prob[k].toNat ≤ 2017

/-! ## The stream demux -/

/-- R156, R65: DEMUX_SETUP clips each declared window to BLOB, puts every cursor at 0 and changes nothing else. The windows are in address order and
disjoint; where the declared sizes fit, each has its declared size; where a declared end passes `N`, every later stream is empty. -/
def Obligations.DemuxSetupClipsWindows : Prop :=
  ∀ s : State, s.dec.phase = .run →
    ∃ t, exec .demuxSetup s = .next t ∧
      (∀ k : StreamIx,
        t.demux.base[k] = min (declaredStart s.launch.desc k.castSucc) s.blob.size ∧
        t.demux.len[k] = min (declaredStart s.launch.desc k.succ) s.blob.size - t.demux.base[k] ∧
        t.demux.pos[k] = 0) ∧
      t = { s with demux := t.demux } ∧
      (∀ k l : StreamIx, k < l → t.demux.base[k] + t.demux.len[k] ≤ t.demux.base[l]) ∧
      (∀ k : StreamIx, t.demux.base[k] + t.demux.len[k] ≤ s.blob.size) ∧
      (declaredStart s.launch.desc 4 ≤ s.blob.size → ∀ k : StreamIx, t.demux.len[k] = s.launch.desc.size[k].toNat) ∧
      (∀ k l : StreamIx, s.blob.size ≤ declaredStart s.launch.desc k.succ → k < l → t.demux.len[l] = 0)

/-- R157, R158: CUR_READ1(k) gives the next byte to the port and moves the cursor of stream `k` by one; CUR_FETCH(k) gives the same byte and moves
nothing; nothing else changes. With no byte left both take StreamExhausted(k, pos[k]) and move nothing (R259). That the byte returned is latched in
`ports` is the model's choice (assumption log 10). -/
def Obligations.CurReadsGiveTheNextByte : Prop :=
  ∀ (s : State) (k : StreamIx), s.dec.phase = .run →
    (s.demux.len[k] ≤ s.demux.pos[k] → ∀ i ∈ [Instr.curFetch k, Instr.curRead1 k],
      exec i s = .next { s with dec := { s.dec with
        phase := .done, resolving := false,
        result := { tag := .partialAt k s.demux.pos[k], length := s.dec.outPos } } }) ∧
    ∀ v : Byte, streamByte s k 0 = some v →
      exec (.curFetch k) s = .next { s with ports := { s.ports with byte := v } } ∧
      ∃ t, exec (.curRead1 k) s = .next t ∧ t.ports = { s.ports with byte := v } ∧
        t.demux.pos[k] = s.demux.pos[k] + 1 ∧ OtherCursorsSame s t [k] ∧
        t.rc = s.rc ∧ t.prob = s.prob ∧ t.dec = s.dec ∧ (∀ a, t.out.read a = s.out.read a) ∧ SessionFrame s t

/-- R159: CUR_READ4BE(k) returns the big-endian value of the next four bytes and moves the cursor of stream `k` by four; nothing else
changes. That the value returned is latched in `ports.word`, and no other latch changes, is the model's choice (assumption log 10). -/
def Obligations.CurRead4beConsumesAWord : Prop :=
  ∀ (s : State) (k : StreamIx) (a0 a1 a2 a3 : Byte), s.dec.phase = .run → streamWord s k a0 a1 a2 a3 →
    ∃ t, exec (.curRead4be k) s = .next t ∧
      t.ports.word.toNat = a0.toNat * 2 ^ 24 + a1.toNat * 2 ^ 16 + a2.toNat * 2 ^ 8 + a3.toNat ∧
      t.ports.bit = s.ports.bit ∧ t.ports.byte = s.ports.byte ∧
      t.demux.pos[k] = s.demux.pos[k] + 4 ∧ OtherCursorsSame s t [k] ∧
      t.rc = s.rc ∧ t.prob = s.prob ∧ t.dec = s.dec ∧ (∀ a, t.out.read a = s.out.read a) ∧ SessionFrame s t

/-- R157 to R161, R259: a cursor operation that finds too few bytes (none, or fewer than four for CUR_READ4BE) takes StreamExhausted(k, pos[k]): the
session is `Done` with the partial record, and nothing else changes, no cursor among it. -/
def Obligations.ShortStreamRaisesExhausted : Prop :=
  ∀ (s : State) (k : StreamIx) (i : Instr), s.dec.phase = .run →
    ((i = .curFetch k ∨ i = .curRead1 k) ∧ s.demux.len[k] ≤ s.demux.pos[k] ∨
      i = .curRead4be k ∧ s.demux.len[k] < s.demux.pos[k] + 4) →
    exec i s = .next { s with dec := { s.dec with
      phase := .done, resolving := false,
      result := { tag := .partialAt k s.demux.pos[k], length := s.dec.outPos } } }

/-- R162: no instruction moves a cursor back or changes a window, but DEMUX_SETUP and START, which set them. -/
def Obligations.CursorsOnlyMoveForward : Prop :=
  ∀ (i : Instr) (s t : State), i ≠ .start → i ≠ .demuxSetup → exec i s = .next t →
    t.demux.base = s.demux.base ∧ t.demux.len = s.demux.len ∧ ∀ k : StreamIx, s.demux.pos[k] ≤ t.demux.pos[k]

/-! ## The decoder -/

/-- R178: LIT is the instruction of every byte that is not classified CALL, JMP or JCC; it copies the byte at the cursor of stream0 to OUT, makes it
`prev_byte`, and touches nothing else: not streams 1 to 3, not `code`, `range` or a slot. -/
def Obligations.LitCopiesOneByte : Prop :=
  ∀ (s : State) (v : Byte), s.dec.phase = .run → streamByte s 0 0 = some v →
    s.dec.outPos.toNat < s.dec.originalSize.toNat →
    (decodeMain s.dec.prevByte v = .lit v ↔
      v.toNat ≠ 0xE8 ∧ v.toNat ≠ 0xE9 ∧ ¬(s.dec.prevByte.toNat = 0x0F ∧ 0x80 ≤ v.toNat ∧ v.toNat ≤ 0x8F)) ∧
    ∃ t, exec (.lit v) s = .next t ∧
      t.out.read s.dec.outPos.toNat = some v ∧ OutSameOutside s t s.dec.outPos.toNat 1 ∧
      t.dec = { s.dec with outPos := s.dec.outPos + 1, prevByte := v } ∧
      t.demux.pos[0] = s.demux.pos[0] + 1 ∧ OtherCursorsSame s t [0] ∧
      t.rc = s.rc ∧ t.prob = s.prob ∧ t.ports = s.ports ∧ SessionFrame s t

/-- R179 to R181: the encodings of CALL, JMP and JCC, and that each is RESOLVE with its byte, slot and stream: CALL's slot is `prev_byte`, JMP's 256,
JCC's 257. -/
def Obligations.CandidatesResolve : Prop :=
  ∀ (s : State) (c : BitVec 4),
    (decodeMain s.dec.prevByte 0xE8 = .call ∧
      exec .call s = exec (.resolve 0xE8 ⟨s.dec.prevByte.toNat, Nat.lt_trans s.dec.prevByte.isLt (Nat.lt_add_of_pos_right Nat.two_pos)⟩ 1) s) ∧
    (decodeMain s.dec.prevByte 0xE9 = .jmp ∧ exec .jmp s = exec (.resolve 0xE9 256 2) s) ∧
    ((s.dec.prevByte = 0x0F → decodeMain s.dec.prevByte (BitVec.ofNat 8 (0x80 + c.toNat)) = .jcc c) ∧
      exec (.jcc c) s = exec (.resolve (BitVec.ofNat 8 (0x80 + c.toNat)) 257 2) s)

/-- R182: a candidate (CALL, JMP, JCC or RESOLVE itself) whose opcode byte fills OUT is emitted, and the session is Complete: no bit is decoded and no
byte of streams 1 to 3 is read. That the dead latch `b` keeps the opcode byte is the model's choice (assumption log 22). -/
def Obligations.CandidateThatFillsOutCompletes : Prop :=
  ∀ (s : State) (i : Instr) (v b : Byte) (slot : Slot) (k : StreamIx), s.dec.phase = .run →
    candidateOf s i = some (b, slot, k) → streamByte s 0 0 = some v →
    s.dec.outPos.toNat + 1 = s.dec.originalSize.toNat →
    ∃ t, exec i s = .next t ∧
      t.out.read s.dec.outPos.toNat = some b ∧ OutSameOutside s t s.dec.outPos.toNat 1 ∧
      t.dec = { s.dec with
        phase := .done, outPos := s.dec.originalSize, resolving := false, b := b,
        result := { tag := .complete, length := s.dec.originalSize } } ∧
      t.demux.pos[0] = s.demux.pos[0] + 1 ∧ OtherCursorsSame s t [0] ∧
      t.rc = s.rc ∧ t.prob = s.prob ∧ t.ports = s.ports ∧ SessionFrame s t

/-- R182, bit 0: a candidate decided 0 emits its opcode byte, makes it `prev_byte` and leaves streams 1 and 2 alone. That the
dead latch `b` keeps the opcode byte is the model's choice (assumption log 22). -/
def Obligations.CandidateDecidedZero : Prop :=
  ∀ (s : State) (i : Instr) (v b : Byte) (slot : Slot) (k : StreamIx) (r : Nat × Nat × Nat), s.dec.phase = .run →
    candidateOf s i = some (b, slot, k) → streamByte s 0 0 = some v →
    s.dec.outPos.toNat + 1 < s.dec.originalSize.toNat →
    decidedOne s slot = false → settled s slot = some r →
    ∃ t, exec i s = .next t ∧
      t.out.read s.dec.outPos.toNat = some b ∧ OutSameOutside s t s.dec.outPos.toNat 1 ∧
      t.dec = { s.dec with outPos := s.dec.outPos + 1, prevByte := b, resolving := false, b := b } ∧
      t.demux.pos[0] = s.demux.pos[0] + 1 ∧ OtherCursorsSame s t [0, 3] ∧
      DecisionTaken s t slot r ∧ t.ports = s.ports ∧ SessionFrame s t

/-- R182 to R184, bit 1: a candidate decided 1, with an address word on its stream, emits its opcode byte and then, little-endian, the target less the position after
the patch, as much of it as OUT has room for. What the dead latches `b`, `dest` and `j` hold afterwards is the model's choice (assumption log 22). -/
def Obligations.CandidateDecidedOnePatches : Prop :=
  ∀ (s : State) (i : Instr) (v b a0 a1 a2 a3 : Byte) (slot : Slot) (k : StreamIx) (r : Nat × Nat × Nat) (dest : Word) (n : Nat),
    s.dec.phase = .run → i.wellFormed = true →
    candidateOf s i = some (b, slot, k) → streamByte s 0 0 = some v → streamWord s k a0 a1 a2 a3 →
    s.dec.outPos.toNat + 1 < s.dec.originalSize.toNat →
    n = min 4 (s.dec.originalSize.toNat - (s.dec.outPos.toNat + 1)) →
    decidedOne s slot = true → settled s slot = some r →
    (dest.toNat + s.dec.outPos.toNat + 5) % 2 ^ 32 =
      a0.toNat * 2 ^ 24 + a1.toNat * 2 ^ 16 + a2.toNat * 2 ^ 8 + a3.toNat →
    ∃ t, exec i s = .next t ∧
      t.out.read s.dec.outPos.toNat = some b ∧ PatchWritten s t (s.dec.outPos.toNat + 1) n dest ∧
      OutSameOutside s t s.dec.outPos.toNat (n + 1) ∧ t.dec.resolving = false ∧ t.dec.b = b ∧
      t.demux.pos[0] = s.demux.pos[0] + 1 ∧ t.demux.pos[k] = s.demux.pos[k] + 4 ∧ OtherCursorsSame s t [0, 3, k] ∧
      DecisionTaken s t slot r ∧ t.ports = s.ports ∧ SessionFrame s t

/-- R125, R182, R251: where a candidate's normalisation runs dry, the session ends `Partial(3, len[3])` with the opcode byte in OUT and
`prev_byte` still the byte before it, the decision's writes done and not shifted; no address word is read and no bit returned, whatever the bit
(the spec's decisions D6, D14). That the dead latch `b` keeps the opcode byte is the model's choice (assumption log 22). -/
def Obligations.CandidateRunsDry : Prop :=
  ∀ (s : State) (i : Instr) (v b : Byte) (slot : Slot) (k : StreamIx), s.dec.phase = .run →
    candidateOf s i = some (b, slot, k) → streamByte s 0 0 = some v →
    s.dec.outPos.toNat + 1 < s.dec.originalSize.toNat →
    decidedRange s slot < 2 ^ 24 → s.demux.pos[3] = s.demux.len[3] →
    ∃ t, exec i s = .next t ∧
      t.out.read s.dec.outPos.toNat = some b ∧ OutSameOutside s t s.dec.outPos.toNat 1 ∧
      t.dec = { s.dec with
        phase := .done, outPos := s.dec.outPos + 1, resolving := false, b := b,
        result := { tag := .partialAt 3 s.demux.len[3], length := s.dec.outPos + 1 } } ∧
      t.demux.pos[0] = s.demux.pos[0] + 1 ∧ OtherCursorsSame s t [0] ∧
      t.rc.range.toNat = decidedRange s slot ∧ t.rc.code.toNat = decidedCode s slot ∧
      t.prob[slot].toNat = decidedProb s slot ∧ OtherSlotsSame s t slot ∧ t.ports = s.ports ∧ SessionFrame s t

/-- R159, R183, R251: a candidate decided 1 whose address stream has fewer than four bytes ends `Partial(k, pos[k])`: the opcode byte is in
OUT, no byte of the patch is, and no byte of stream `k` is consumed. That the dead latch `b` keeps the opcode byte is the model's choice (assumption log 22). -/
def Obligations.CandidateLacksAddress : Prop :=
  ∀ (s : State) (i : Instr) (v b : Byte) (slot : Slot) (k : StreamIx) (r : Nat × Nat × Nat), s.dec.phase = .run →
    i.wellFormed = true → candidateOf s i = some (b, slot, k) → streamByte s 0 0 = some v →
    s.dec.outPos.toNat + 1 < s.dec.originalSize.toNat →
    decidedOne s slot = true → settled s slot = some r → s.demux.len[k] < s.demux.pos[k] + 4 →
    ∃ t, exec i s = .next t ∧
      t.out.read s.dec.outPos.toNat = some b ∧ OutSameOutside s t s.dec.outPos.toNat 1 ∧
      t.dec = { s.dec with
        phase := .done, outPos := s.dec.outPos + 1, resolving := false, b := b,
        result := { tag := .partialAt k s.demux.pos[k], length := s.dec.outPos + 1 } } ∧
      t.demux.pos[0] = s.demux.pos[0] + 1 ∧ OtherCursorsSame s t [0, 3] ∧
      DecisionTaken s t slot r ∧ t.ports = s.ports ∧ SessionFrame s t

/-- R183, R184: PATCH reads the address word `T` of stream `k` and emits, little-endian, the value which with the position after the patch added is `T`
modulo 2^32, as much of it as OUT has room for. With fewer than four bytes left in stream `k` it takes StreamExhausted(k, pos[k]) and writes nothing. What the latches
`dest` and `j` hold afterwards is the model's reading (assumption log 22). -/
def Obligations.PatchRebasesTheTarget : Prop :=
  ∀ (s : State) (b : Byte) (k : StreamIx), s.dec.phase = .run →
    (s.demux.len[k] < s.demux.pos[k] + 4 →
      exec (.patch b k) s = .next { s with dec := { s.dec with
        phase := .done, resolving := false,
        result := { tag := .partialAt k s.demux.pos[k], length := s.dec.outPos } } }) ∧
    ∀ (a0 a1 a2 a3 : Byte) (dest : Word) (n : Nat), streamWord s k a0 a1 a2 a3 →
      s.dec.outPos.toNat < s.dec.originalSize.toNat →
      n = min 4 (s.dec.originalSize.toNat - s.dec.outPos.toNat) →
      (dest.toNat + s.dec.outPos.toNat + 4) % 2 ^ 32 =
        a0.toNat * 2 ^ 24 + a1.toNat * 2 ^ 16 + a2.toNat * 2 ^ 8 + a3.toNat →
      ∃ t, exec (.patch b k) s = .next t ∧
        PatchWritten s t s.dec.outPos.toNat n dest ∧ OutSameOutside s t s.dec.outPos.toNat n ∧
        (s.dec.outPos.toNat + n ≠ s.dec.originalSize.toNat → t.dec.resolving = s.dec.resolving) ∧ t.dec.b = s.dec.b ∧
        t.demux.pos[k] = s.demux.pos[k] + 4 ∧ OtherCursorsSame s t [k] ∧
        t.rc = s.rc ∧ t.prob = s.prob ∧ t.ports = s.ports ∧ SessionFrame s t

/-- R184: EMIT4(dest) writes the low `n` bytes of `dest`, least significant first, where `n` is 4 or the room OUT has, whichever is less; the last byte
written is `prev_byte`; the session is Complete exactly when that fills OUT, and no byte is written past ORIGINAL_SIZE. What the latches `dest` and
`j` hold afterwards is the model's reading (assumption log 22). -/
def Obligations.Emit4WritesWhatFits : Prop :=
  ∀ (s : State) (dest : Word) (n : Nat), s.dec.phase = .run →
    s.dec.outPos.toNat < s.dec.originalSize.toNat →
    n = min 4 (s.dec.originalSize.toNat - s.dec.outPos.toNat) →
    ∃ t, exec (.emit4 dest) s = .next t ∧
      PatchWritten s t s.dec.outPos.toNat n dest ∧ OutSameOutside s t s.dec.outPos.toNat n ∧
      (s.dec.outPos.toNat + n ≠ s.dec.originalSize.toNat → t.dec.resolving = s.dec.resolving) ∧ t.dec.b = s.dec.b ∧
      t.demux = s.demux ∧ t.rc = s.rc ∧ t.prob = s.prob ∧ t.ports = s.ports ∧ SessionFrame s t

/-- R185: OUT_EMIT(v) stores `v` at `out_pos` and adds one to `out_pos`, leaving `prev_byte` alone; without room it is a fault, and no byte is
stored outside OUT (assumption log 12). -/
def Obligations.OutEmitAppends : Prop :=
  ∀ (s : State) (v : Byte), s.dec.phase = .run →
    (s.dec.outPos.toNat < s.dec.originalSize.toNat →
      ∃ t, exec (.outEmit v) s = .next t ∧ t.out.read s.dec.outPos.toNat = some v ∧
        OutSameOutside s t s.dec.outPos.toNat 1 ∧ t.dec.outPos.toNat = s.dec.outPos.toNat + 1 ∧
        t.dec = { s.dec with outPos := t.dec.outPos } ∧
        t.demux = s.demux ∧ t.rc = s.rc ∧ t.prob = s.prob ∧ t.ports = s.ports ∧ SessionFrame s t) ∧
    (s.dec.originalSize.toNat ≤ s.dec.outPos.toNat →
      exec (.outEmit v) s = .fault (.outOutOfRange s.dec.outPos.toNat))

/-- R176: STEP, in the order of the rule: a full OUT ends the session Complete; else an empty stream0 ends it Partial(0); else the fetched byte is
classified and that instruction executed. -/
def Obligations.StepIsTheMainLoop : Prop :=
  ∀ s : State, s.dec.phase = .run →
    (s.dec.outPos = s.dec.originalSize →
      exec .step s = .next { s with dec := { s.dec with
        phase := .done, resolving := false, result := { tag := .complete, length := s.dec.outPos } } }) ∧
    (s.dec.outPos ≠ s.dec.originalSize → s.demux.len[0] ≤ s.demux.pos[0] →
      exec .step s = .next { s with dec := { s.dec with
        phase := .done, resolving := false,
        result := { tag := .partialAt 0 s.demux.pos[0], length := s.dec.outPos } } }) ∧
    (∀ b, s.dec.outPos ≠ s.dec.originalSize → streamByte s 0 0 = some b →
      exec .step s = exec (decodeMain s.dec.prevByte b) s)

/-- R176: in a lawful run an iteration of the main loop always answers a next state: the session has ended, or it goes on and exactly one byte of stream0
has been consumed and at least one byte emitted. -/
def Obligations.StepAdvancesOrEnds : Prop :=
  ∀ s : State, s.Inv → s.dec.phase = .run →
    ∃ t, exec .step s = .next t ∧
      (t.dec.phase = .done ∨
        t.dec.phase = .run ∧ t.demux.pos[0] = s.demux.pos[0] + 1 ∧ s.dec.outPos.toNat < t.dec.outPos.toNat)

/-- R175: START with five seed bytes begins a session, whatever the state before: the windows of the descriptor, every slot 1024, the decoder's registers at
their start values, the seed taken. No byte of OUT is listed: what OUT holds is unspecified (R39), and this is the model's choice (assumption log 4). -/
def Obligations.StartBeginsASession : Prop :=
  ∀ (s : State) (s0 s1 s2 s3 s4 : Byte), s.dec.phase ≠ .run →
    20 ≤ s.blob.size →
    declaredStart s.launch.desc 3 + 5 ≤ s.blob.size → 5 ≤ s.launch.desc.size[3].toNat →
    s.blob.cells.read (declaredStart s.launch.desc 3) = some s0 →
    s.blob.cells.read (declaredStart s.launch.desc 3 + 1) = some s1 →
    s.blob.cells.read (declaredStart s.launch.desc 3 + 2) = some s2 →
    s.blob.cells.read (declaredStart s.launch.desc 3 + 3) = some s3 →
    s.blob.cells.read (declaredStart s.launch.desc 3 + 4) = some s4 →
    ∃ t, exec .start s = .next t ∧
      t.dec.phase = .run ∧ t.dec.originalSize = s.launch.desc.originalSize ∧ t.dec.outPos = 0 ∧ t.dec.prevByte = 0 ∧
      t.dec.resolving = false ∧ (∀ i : Slot, t.prob[i].toNat = 1024) ∧
      t.rc.code.toNat = s1.toNat * 2 ^ 24 + s2.toNat * 2 ^ 16 + s3.toNat * 2 ^ 8 + s4.toNat ∧
      t.rc.range.toNat = 2 ^ 32 - 1 ∧
      (∀ k : StreamIx,
        t.demux.base[k] = min (declaredStart s.launch.desc k.castSucc) s.blob.size ∧
        t.demux.len[k] = min (declaredStart s.launch.desc k.succ) s.blob.size - t.demux.base[k] ∧
        t.demux.pos[k] = if k = 3 then 5 else 0) ∧
      (∀ a, t.out.read a = none) ∧
      t.blob = s.blob ∧ t.launch = s.launch ∧ t.sink = s.sink ∧ t.ports = s.ports ∧ t.cmds = s.cmds

/-- R175, R251: START on a stream3 shorter than the seed ends the session at once, `Partial(3, len[3])` with an empty output, whatever
ORIGINAL_SIZE is. -/
def Obligations.StartWithoutSeedEndsPartial : Prop :=
  ∀ (s : State) (n : Nat), s.dec.phase ≠ .run → 20 ≤ s.blob.size →
    (∀ a, a < s.blob.size → (s.blob.cells.read a).isSome = true) →
    n = min (declaredStart s.launch.desc 4) s.blob.size - min (declaredStart s.launch.desc 3) s.blob.size → n < 5 →
    ∃ t, exec .start s = .next t ∧ t.dec.phase = .done ∧ t.dec.outPos = 0 ∧ t.dec.resolving = false ∧
      t.dec.result = { tag := .partialAt 3 n, length := 0 } ∧ t.demux.pos[3] = n ∧
      t.blob = s.blob ∧ t.launch = s.launch ∧ t.sink = s.sink ∧ t.ports = s.ports ∧ t.cmds = s.cmds

/-- R40, R281: what START leaves of the session does not depend on what an earlier session left, only on the descriptor and BLOB. That the two
results agree on OUT as well is the model's choice, which lists no byte of OUT after START (assumption log 4); R39 calls OUT unspecified there. -/
def Obligations.StartForgetsEarlierSessions : Prop :=
  ∀ s s' t : State, s.dec.phase ≠ .run → s'.dec.phase ≠ .run → 20 ≤ s.blob.size →
    s'.launch.desc = s.launch.desc → s'.blob = s.blob → exec .start s = .next t →
    ∃ t', exec .start s' = .next t' ∧ SessionEq t t' ∧ (t.dec.phase = .done → t'.dec.result = t.dec.result)

/-- R37, R38: an iteration of the main loop is a function of the session's registers, BLOB and OUT alone: states that agree on these step to states that
agree on them, and to the same result record where the session ends. -/
def Obligations.MainLoopDependsOnTheSessionAlone : Prop :=
  ∀ s s' t : State, SessionEq s s' → s.dec.phase = .run → exec .step s = .next t →
    ∃ t', exec .step s' = .next t' ∧ SessionEq t t' ∧ (t.dec.phase = .done → t'.dec.result = t.dec.result)

/-- R189, R286: the operations of a session have no effect outside `Run` (in `Done` by the last row of the table; in `Idle` by the model's
reading, assumption log 6), those of the extractor none outside `Done` (R285; assumption log 7). START has none in `Run`, and none with a BLOB
too short for a header, for which no session exists (the model's reading, assumption log 8). -/
def Obligations.OperationsOutsideTheirPhaseDoNothing : Prop :=
  ∀ (i : Instr) (s : State),
    (ofSession i = true → s.dec.phase ≠ .run → exec i s = .next s) ∧
    (ofExtractor i = true → s.dec.phase ≠ .done → exec i s = .next s) ∧
    (s.dec.phase = .run ∨ s.blob.size < 20 → exec .start s = .next s)

/-- R189, R31: once `Done`, only START changes the decoder's registers, the result record among them, or OUT. -/
def Obligations.DoneIsLeftOnlyByStart : Prop :=
  ∀ (i : Instr) (s t : State), i ≠ .start → s.dec.phase = .done → exec i s = .next t →
    t.dec = s.dec ∧ t.rc = s.rc ∧ t.prob = s.prob ∧ t.demux = s.demux ∧ ∀ a, t.out.read a = s.out.read a

/-- R60, R63: no instruction writes BLOB; none removes an event of the sink, and only the extractor appends one. -/
def Obligations.BlobIsReadOnlyAndSinkAppendOnly : Prop :=
  ∀ (i : Instr) (s t : State), exec i s = .next t →
    t.blob = s.blob ∧ (∃ es, t.sink = s.sink ++ es) ∧ (ofExtractor i = false → t.sink = s.sink)

/-- R61: while a session runs no instruction revises a byte already emitted, `out_pos` never falls, and no byte at ORIGINAL_SIZE or above is
written. -/
def Obligations.OutIsAppendOnly : Prop :=
  ∀ (i : Instr) (s t : State), s.dec.phase = .run → s.dec.outPos.toNat ≤ s.dec.originalSize.toNat →
    exec i s = .next t →
    s.dec.outPos.toNat ≤ t.dec.outPos.toNat ∧ t.dec.outPos.toNat ≤ s.dec.originalSize.toNat ∧
    t.dec.originalSize = s.dec.originalSize ∧
    ∀ a, a < s.dec.outPos.toNat ∨ s.dec.originalSize.toNat ≤ a → t.out.read a = s.out.read a

/-! ## The loader -/

/-- R283: LOAD_HEADER reads the five little-endian words of the header, sets `size_mismatch` by the exact sum, and changes nothing else. With fewer
than 20 bytes HeaderTooSmall is raised and no state of the core is touched, `phase` among it (R252); the model latches the exception and
drops the pipeline's remaining commands (assumption log 9). -/
def Obligations.LoadHeaderReadsTheDescriptor : Prop :=
  ∀ (s : State) (h : Vector Byte 20),
    (s.blob.size < 20 →
      exec .loadHeader s = .next { s with launch := { s.launch with headerTooSmall := true }, cmds := [] }) ∧
    (20 ≤ s.blob.size → (∀ i : Fin 20, s.blob.cells.read i = some h[i]) →
      ∃ t, exec .loadHeader s = .next t ∧
        t.launch.desc.originalSize.toNat =
          h[0].toNat + h[1].toNat * 2 ^ 8 + h[2].toNat * 2 ^ 16 + h[3].toNat * 2 ^ 24 ∧
        (∀ k : StreamIx, t.launch.desc.size[k].toNat =
          h[4 + 4 * k.val].toNat + h[5 + 4 * k.val].toNat * 2 ^ 8 + h[6 + 4 * k.val].toNat * 2 ^ 16 +
            h[7 + 4 * k.val].toNat * 2 ^ 24) ∧
        (t.launch.sizeMismatch = true ↔ declaredStart t.launch.desc 4 ≠ s.blob.size) ∧
        t.launch.headerTooSmall = false ∧ t.launch.tarStart = s.launch.tarStart ∧ t = { s with launch := t.launch })

/-! ## The extractor -/

/-- R210: TAR_START_OP puts `tpos` at TAR_START, the count at 0 and the stop reason at None; nothing else changes but that an extraction runs. -/
def Obligations.TarStartOpBeginsAnExtraction : Prop :=
  ∀ s : State, s.dec.phase = .done →
    exec .tarStartOp s = .next { s with tar := { s.tar with
      tpos := s.launch.tarStart, count := 0, stop := .none, running := true } }

/-- R211 to R213, R216, R220: the ways TAR_STEP stops, in the order of the rule: no room for a header, the end marker, a foreign magic, a bad size, a file whose content
passes the image. Each stops with its reason, emits no event, counts no entry and retains nothing of the header (R224). -/
def Obligations.TarStepStopsByReason : Prop :=
  ∀ (s : State) (h : Header), s.dec.phase = .done → s.tar.running = true →
    (imgLen s < s.tar.tpos + 512 →
      exec .tarStep s = .next { s with tar := { s.tar.discard with stop := .truncated, running := false } }) ∧
    (HeaderAt s h → headerField h 257 5 = [0, 0, 0, 0, 0] →
      exec .tarStep s = .next { s with tar := { s.tar.discard with stop := .endMarker, running := false } }) ∧
    (HeaderAt s h → headerField h 257 5 ≠ [0, 0, 0, 0, 0] → headerField h 257 5 ≠ [0x75, 0x73, 0x74, 0x61, 0x72] →
      exec .tarStep s = .next { s with tar := { s.tar.discard with stop := .magicMismatch, running := false } }) ∧
    (HeaderAt s h → headerField h 257 5 = [0x75, 0x73, 0x74, 0x61, 0x72] → sizeOfField (headerField h 124 12) = none →
      exec .tarStep s = .next { s with tar := { s.tar.discard with stop := .badSize, running := false } }) ∧
    (∀ size, HeaderAt s h → headerField h 257 5 = [0x75, 0x73, 0x74, 0x61, 0x72] →
      sizeOfField (headerField h 124 12) = some size → h[156].toNat ≠ 0x35 → (joinedName h).getLast? ≠ some 0x2F →
      imgLen s < s.tar.tpos + 512 + size →
      exec .tarStep s = .next { s with tar := { s.tar.discard with stop := .truncated, running := false } })

/-- R211, R219, R221: TAR_STEP on a valid header of a directory (type flag '5', or a joined name ending in "/") emits one CreateDir with the
sanitised name, counts it and advances by 512, whatever the size field says; nothing of the entry is retained (R224). -/
def Obligations.TarStepCreatesADirectory : Prop :=
  ∀ (s : State) (h : Header) (size : Nat), s.dec.phase = .done → s.tar.running = true → HeaderAt s h →
    headerField h 257 5 = [0x75, 0x73, 0x74, 0x61, 0x72] → sizeOfField (headerField h 124 12) = some size →
    (h[156].toNat = 0x35 ∨ (joinedName h).getLast? = some 0x2F) →
    ∃ t, exec .tarStep s = .next t ∧ t.sink = s.sink ++ [.createDir (sanitize (joinedName h))] ∧
      t.tar = { s.tar.discard with tpos := s.tar.tpos + 512, count := s.tar.count + 1 } ∧
      ExtractionFrame s t

/-- R211, R220, R221: TAR_STEP on a valid header of a file whose content lies in the image emits one WriteFile with the sanitised name and the content,
counts it and advances to the next multiple of 512 after the content; nothing of the entry is retained (R224). -/
def Obligations.TarStepWritesAFile : Prop :=
  ∀ (s : State) (h : Header) (content : List Byte), s.dec.phase = .done → s.tar.running = true → HeaderAt s h →
    headerField h 257 5 = [0x75, 0x73, 0x74, 0x61, 0x72] →
    sizeOfField (headerField h 124 12) = some content.length → ContentAt s content →
    h[156].toNat ≠ 0x35 → (joinedName h).getLast? ≠ some 0x2F →
    ∃ t, exec .tarStep s = .next t ∧ t.sink = s.sink ++ [.writeFile (sanitize (joinedName h)) content] ∧
      t.tar = { s.tar.discard with
        tpos := s.tar.tpos + 512 + (content.length + 511) / 512 * 512, count := s.tar.count + 1 } ∧
      ExtractionFrame s t

/-- R214: TAR_NAME's value: the name field before its first NUL, with the prefix field before its first NUL and a "/" in front where that prefix is not
empty. -/
def Obligations.TarNameJoinsPrefixAndName : Prop :=
  ∀ s : State, s.dec.phase = .done →
    ∃ (t : State) (name pre nameRest preRest : List Byte), exec .tarName s = .next t ∧
      headerField s.tar.hdr 0 100 = name ++ nameRest ∧ 0 ∉ name ∧ (nameRest = [] ∨ nameRest.head? = some 0) ∧
      headerField s.tar.hdr 345 155 = pre ++ preRest ∧ 0 ∉ pre ∧ (preRest = [] ∨ preRest.head? = some 0) ∧
      (pre = [] → t.tar.full = name) ∧ (pre ≠ [] → t.tar.full = pre ++ [0x2F] ++ name) ∧
      t = { s with tar := { s.tar with full := t.tar.full } }

/-- R101, R216: TAR_SIZE trims trailing NULs and spaces; octal digits (none included) give their base-8 value; any other byte left stops with
BadSize. -/
def Obligations.TarSizeReadsOctal : Prop :=
  ∀ (s : State) (digits pad : List Byte), s.dec.phase = .done →
    headerField s.tar.hdr 124 12 = digits ++ pad → (∀ b ∈ pad, b = 0 ∨ b = 0x20) →
    (∀ b, digits.getLast? = some b → b ≠ 0 ∧ b ≠ 0x20) →
    ((∀ b ∈ digits, 0x30 ≤ b.toNat ∧ b.toNat ≤ 0x37) →
      exec .tarSize s = .next { s with tar := { s.tar with
        size := Nat.ofDigits 8 (digits.reverse.map fun b => b.toNat - 0x30) } }) ∧
    ((∃ b ∈ digits, b.toNat < 0x30 ∨ 0x37 < b.toNat) →
      exec .tarSize s = .next { s with tar := { s.tar.discard with stop := .badSize, running := false } })

/-- R217: TAR_KIND: a directory exactly where the type flag is '5' or the joined name ends in "/"; nothing else changes. -/
def Obligations.TarKindTestsFlagAndSlash : Prop :=
  ∀ s : State, s.dec.phase = .done →
    ∃ t, exec .tarKind s = .next t ∧
      (t.tar.isdir = true ↔ s.tar.hdr[156].toNat = 0x35 ∨ ∃ l, s.tar.full = l ++ [0x2F]) ∧
      t = { s with tar := { s.tar with isdir := t.tar.isdir } }

/-- R218: TAR_SANITIZE's value: the leading slashes go; of the rest, every run of `n` dots, at the front, in the middle or at the end, becomes
`n / 2` underscores and `n mod 2` dots, and every other byte stays as it is, in its order (`runs` lists each other byte with the number of dots
before it, and `last` is the number of dots at the end). So the value never begins with "/" and never holds "..", and a name that has neither is
unchanged. Nothing else changes. (All leading slashes, left to right: the spec's decision D22.) -/
def Obligations.TarSanitizeNeutralisesTraversal : Prop :=
  ∀ s : State, s.dec.phase = .done →
    ∃ t, exec .tarSanitize s = .next t ∧
      (∀ (slashes last : Nat) (runs : List (Nat × Byte)) (rest : List Byte), (∀ r ∈ runs, r.2 ≠ 0x2E) →
        rest = runs.flatMap (fun r => List.replicate r.1 0x2E ++ [r.2]) ++ List.replicate last 0x2E →
        rest.head? ≠ some 0x2F → s.tar.full = List.replicate slashes 0x2F ++ rest →
        t.tar.clean =
          runs.flatMap (fun r => List.replicate (r.1 / 2) 0x5F ++ List.replicate (r.1 % 2) 0x2E ++ [r.2]) ++
            List.replicate (last / 2) 0x5F ++ List.replicate (last % 2) 0x2E) ∧
      t.tar.clean.head? ≠ some 0x2F ∧ ¬ [0x2E, 0x2E] <:+: t.tar.clean ∧
      (s.tar.full.head? ≠ some 0x2F → ¬ [0x2E, 0x2E] <:+: s.tar.full → t.tar.clean = s.tar.full) ∧
      t = { s with tar := { s.tar with clean := t.tar.clean } }

/-- R219, R220: TAR_DIR emits CreateDir with the sanitised name; TAR_FILE emits WriteFile with it and the content, or stops Truncated where the content
passes the image; nothing else changes. -/
def Obligations.TarEventsGoToTheSink : Prop :=
  ∀ (s : State) (content : List Byte), s.dec.phase = .done →
    exec .tarDir s = .next { s with sink := s.sink ++ [.createDir s.tar.clean] } ∧
    (content.length = s.tar.size → ContentAt s content →
      exec .tarFile s = .next { s with sink := s.sink ++ [.writeFile s.tar.clean content] }) ∧
    (imgLen s < s.tar.tpos + 512 + s.tar.size →
      exec .tarFile s = .next { s with tar := { s.tar.discard with stop := .truncated, running := false } })

/-- R221: TAR_ADVANCE moves `tpos` by 512 for a directory, and for a file past the header and the content to a whole number of blocks; nothing else
changes. -/
def Obligations.TarAdvanceKeepsBlocks : Prop :=
  ∀ s : State, s.dec.phase = .done →
    ∃ t, exec .tarAdvance s = .next t ∧
      (s.tar.isdir = true → t.tar.tpos = s.tar.tpos + 512) ∧
      (s.tar.isdir = false → ∃ blocks, t.tar.tpos = s.tar.tpos + 512 + 512 * blocks ∧
        s.tar.size ≤ 512 * blocks ∧ 512 * blocks < s.tar.size + 512) ∧
      t = { s with tar := { s.tar with tpos := t.tar.tpos } }

/-- R212, R213, R217: the selectors of a header: the end marker and a foreign magic stop with their reason; both valid magics go on alike; the type flag
'5' is a directory, and any other a file unless the joined name ends in "/". -/
def Obligations.HeaderSelectorsAct : Prop :=
  ∀ (s : State) (m : BitVec 40) (f : Byte), s.dec.phase = .done →
    exec .tarMagicEnd s = .next { s with tar := { s.tar.discard with stop := .endMarker, running := false } } ∧
    exec .tarMagicUstar s = .next s ∧ exec .tarMagicGnu s = .next s ∧
    exec (.tarMagicOther m) s = .next { s with tar := { s.tar.discard with stop := .magicMismatch, running := false } } ∧
    exec .tarTypeDir s = .next { s with tar := { s.tar with isdir := true } } ∧
    (∃ t, exec (.tarTypeFile f) s = .next t ∧ (t.tar.isdir = true ↔ ∃ l, s.tar.full = l ++ [0x2F]) ∧
      t = { s with tar := { s.tar with isdir := t.tar.isdir } })

/-- R226: a TAR_STEP that does not stop moves `tpos` forward by at least 512 and counts one entry, and the header it read lay in the image. -/
def Obligations.TarStepAdvances : Prop :=
  ∀ s t : State, s.dec.phase = .done → s.tar.running = true → exec .tarStep s = .next t → t.tar.running = true →
    s.tar.tpos + 512 ≤ t.tar.tpos ∧ s.tar.tpos + 512 ≤ imgLen s ∧ t.tar.count = s.tar.count + 1 ∧
    t.sink.length = s.sink.length + 1

/-! ## The machine -/

/-- The byte at the program counter, decoded, is what the step executes, whatever the host asks but a power-on reset, START or the placing of a buffer
(R9, R33, R176, R7). -/
def Obligations.StepRunsTheDecodedInstruction : Prop :=
  ∀ (s : State) (b : Byte) (i : Instr), s.cmds.head? ≠ some .powerOn → s.cmds.head? ≠ some (.issue .start) →
    (∀ bytes, s.cmds.head? ≠ some (.place bytes)) → s.dec.phase = .run → s.dec.outPos ≠ s.dec.originalSize →
    streamByte s 0 0 = some b → decodeStream s.dec.prevByte [b] = .ok (i, []) → step s = exec i s

/-- What the step does otherwise: with nothing running, an operation of the host at the head of the commands is executed with the command taken; with
none pending, an extraction that runs takes TAR_STEP, and the machine with nothing to do stays as it is (R8, R210; assumption log 1). The host's writing
of BLOB is refused while a session runs (R284), and with nothing running places the buffer and its length. While a session runs, a step is an
iteration of the main loop, or takes a START that has no effect at all (R286); only power-on reset does more (R7, R42, R141, R145, R257). -/
def Obligations.StepTakesPendingOperations : Prop :=
  ∀ (s : State) (op : HostOp) (bytes : List Byte) (rest : List Cmd),
    (s.cmds = .issue op :: rest → s.dec.phase ≠ .run → s.tar.running = false → step s = exec op.instr { s with cmds := rest }) ∧
    (s.cmds = [] → s.dec.phase ≠ .run → s.tar.running = true → step s = exec .tarStep s) ∧
    (s.cmds = [] → s.dec.phase ≠ .run → s.tar.running = false → step s = .next s) ∧
    (s.cmds = .place bytes :: rest → s.dec.phase = .run → step s = .refused .blobWriteDuringRun) ∧
    (s.cmds = .place bytes :: rest → s.dec.phase ≠ .run → s.tar.running = false → ∃ t, step s = .next t ∧ t.blob.size = bytes.length ∧
      (∀ j (hj : j < bytes.length), t.blob.cells.read j = some bytes[j]) ∧
      t = { s with blob := t.blob, cmds := rest }) ∧
    (∀ t, s.dec.phase = .run → s.cmds.head? ≠ some .powerOn → step s = .next t →
      exec .step s = .next t ∨ s.cmds.head? = some (.issue .start) ∧ t = { s with cmds := s.cmds.tail })

/-- R7, R42, R282, R290: the host's other commands. With nothing running, the descriptor and TAR_START are written as asked, nothing else changes, and a
wait is over. While a session runs, every command but power-on reset, START and the placing of a buffer waits and the machine takes an iteration of the
main loop; while an extraction runs, every command but power-on reset waits and the machine takes a TAR_STEP (for commands the spec allows in `Done`,
assumption log 1). So no step of a session but power-on reset changes the launch record, `size_mismatch` among it, or BLOB. -/
def Obligations.HostWritesAndWaits : Prop :=
  ∀ (s : State) (c : Cmd) (d : Descriptor) (n : Nat) (rest : List Cmd),
    (s.cmds = .setDescriptor d :: rest → s.dec.phase ≠ .run → s.tar.running = false →
      step s = .next { s with launch := { s.launch with desc := d }, cmds := rest }) ∧
    (s.cmds = .setTarStart n :: rest → s.dec.phase ≠ .run → s.tar.running = false →
      step s = .next { s with launch := { s.launch with tarStart := n }, cmds := rest }) ∧
    (s.cmds = .await :: rest → s.dec.phase ≠ .run → s.tar.running = false → step s = .next { s with cmds := rest }) ∧
    (s.cmds = c :: rest → s.dec.phase = .run → c ≠ .powerOn → c ≠ .issue .start → (∀ bytes, c ≠ .place bytes) →
      step s = exec .step s) ∧
    (s.cmds = c :: rest → s.dec.phase ≠ .run → s.tar.running = true → c ≠ .powerOn → step s = exec .tarStep s) ∧
    (∀ t, s.dec.phase = .run → s.cmds.head? ≠ some .powerOn → step s = .next t → t.launch = s.launch ∧ t.blob = s.blob)

/-- R280: power-on reset: `phase` Idle, `resolving` and `size_mismatch` 0, the sink empty; it may come during a session, which is lost. -/
def Obligations.PowerOnResetsTheMachine : Prop :=
  (∀ (s : State) (rest : List Cmd), s.cmds = .powerOn :: rest →
    ∃ t, step s = .next t ∧ t.dec.phase = .idle ∧ t.dec.resolving = false ∧ t.launch.sizeMismatch = false ∧
      t.sink = [] ∧ t.cmds = rest) ∧
  State.reset.dec.phase = .idle ∧ State.reset.dec.resolving = false ∧ State.reset.launch.sizeMismatch = false ∧
  State.reset.sink = []

/-- Every step keeps both memories in canonical form, from any state in which they are. -/
def Obligations.EveryStepKeepsMemoriesCanonical : Prop :=
  ∀ s t : State, s.memWf → step s = .next t → t.memWf

/-- The invariant of a lawful run holds after reset. -/
def Obligations.ResetMeetsTheInvariant : Prop :=
  State.reset.Inv ∧ State.reset.memWf

/-- Every step of a lawful run keeps the invariant: windows inside BLOB, cursors inside windows, `range` normalised, slots in 31..2017, law L2, `prev_byte`
the last byte of OUT, exactly the bytes below `out_pos` written, the result record true of the session, nothing of a tar entry retained (R224). -/
def Obligations.EveryStepKeepsTheInvariant : Prop :=
  ∀ s t : State, s.Inv → step s = .next t → t.Inv

/-- A lawful run never faults, and is refused nothing but the placing of BLOB during a session. -/
def Obligations.LawfulRunsNeverFault : Prop :=
  ∀ s : State, s.Inv →
    (∃ t, step s = .next t) ∨
      (s.dec.phase = .run ∧ (∃ bytes rest, s.cmds = .place bytes :: rest) ∧ step s = .refused .blobWriteDuringRun)
end

