-- ==== Sys2Proof/Laws/Decode.lean ====
section
/-! SUPPORT. The masks of the class table as arithmetic on the byte's value, and the byte order of the magic selectors. -/

namespace Sys2Proof

theorem mask_call (b : Byte) : b &&& 0xFF = 0xE8 ↔ b.toNat = 0xE8 := by revert b; decide

theorem mask_jmp (b : Byte) : b &&& 0xFF = 0xE9 ↔ b.toNat = 0xE9 := by revert b; decide

theorem mask_jcc (b : Byte) : b &&& 0xF0 = 0x80 ↔ b.toNat / 16 = 8 := by revert b; decide

theorem mask_candidate (b : Byte) : b &&& 0xFE = 0xE8 ↔ b.toNat = 0xE8 ∨ b.toNat = 0xE9 := by revert b; decide

theorem byte_eq_iff (a b : Byte) : a = b ↔ a.toNat = b.toNat := BitVec.toNat_inj.symm

theorem low_nibble (b : Byte) : b.extractLsb' 0 4 = BitVec.ofNat 4 b.toNat := by revert b; decide

/-- The class table by the values of the two bytes (R92). -/
theorem classifyMain_nat (prev b : Byte) :
    classifyMain prev b =
      if b.toNat = 0xE8 then .call
      else if b.toNat = 0xE9 then .jmp
      else if b.toNat / 16 = 8 ∧ prev.toNat = 0x0F then .jcc (BitVec.ofNat 4 b.toNat)
      else .lit b := by
  have h : prev = 0x0F ↔ prev.toNat = 0x0F := byte_eq_iff _ _
  simp only [classifyMain, mask_call, mask_jmp, mask_jcc, low_nibble, h]

/-- The document's predicate by the values of the two bytes (R92). -/
theorem isCandidate_nat (prev b : Byte) :
    isCandidate prev b = true ↔
      (b.toNat = 0xE8 ∨ b.toNat = 0xE9) ∨ prev.toNat = 0x0F ∧ b.toNat / 16 = 8 := by
  have h : prev = 0x0F ↔ prev.toNat = 0x0F := byte_eq_iff _ _
  simp only [isCandidate, Bool.or_eq_true, Bool.and_eq_true, beq_iff_eq, mask_candidate, mask_jcc, h]

/-- The byte of a JCC. -/
theorem jccByte_toNat (c : BitVec 4) : (Machine.jccByte c).toNat = 0x80 + c.toNat := by revert c; decide

/-- The five bytes of a 40-bit magic, read back. -/
theorem beNat_bytesMsb5 (m : BitVec 40) : beNat (bytesMsb 5 m.toNat) = m.toNat := by
  simp [bytesMsb, beNat, Nat.shiftRight_eq_div_pow]
  omega

end Sys2Proof
end

