-- ==== Sys2Proof/Laws/Memory.lean ====
section
/-! SUPPORT. Laws of the byte memory: read after write, the canonical form, a memory built from a byte list, and runs of bytes. -/

namespace Sys2Proof.Machine

@[simp] theorem Memory.read_nil (a : Nat) : Memory.read [] a = none := rfl

@[simp] theorem Memory.read_write_same (m : Memory) (a : Nat) (v : Byte) : (m.write a v).read a = some v := by
  induction m with
  | nil => simp [Memory.write, Memory.read]
  | cons p m ih =>
    obtain ⟨x, w⟩ := p
    simp only [Memory.write]
    split
    · simp [Memory.read]
    · split
      · simp [Memory.read]
      · rename_i h
        simp [Memory.read, Ne.symm h, ih]

theorem Memory.read_write_other (m : Memory) {a b : Nat} (v : Byte) (h : b ≠ a) :
    (m.write a v).read b = m.read b := by
  induction m with
  | nil => simp [Memory.write, Memory.read, h.symm]
  | cons p m ih =>
    obtain ⟨x, w⟩ := p
    simp only [Memory.write]
    split
    · simp [Memory.read, h.symm]
    · split
      · rename_i hax
        simp [Memory.read, h.symm, ← hax]
      · simp [Memory.read, ih]

/-- A read of a written memory, by cases on the address. -/
theorem Memory.read_write (m : Memory) (a b : Nat) (v : Byte) :
    (m.write a v).read b = if b = a then some v else m.read b := by
  split
  · rename_i h
    simp [h]
  · rename_i h
    exact Memory.read_write_other m v h

theorem Memory.mem_write {m : Memory} {a : Nat} {v : Byte} {p : Host.Cell} (h : p ∈ m.write a v) :
    p = (a, v) ∨ p ∈ m := by
  induction m with
  | nil => simpa [Memory.write] using h
  | cons q m ih =>
    obtain ⟨x, w⟩ := q
    simp only [Memory.write] at h
    split at h
    · simpa using h
    · split at h
      · rcases List.mem_cons.1 h with h | h
        · exact .inl h
        · exact .inr (List.mem_cons_of_mem _ h)
      · rcases List.mem_cons.1 h with h | h
        · exact .inr (h ▸ List.mem_cons_self)
        · exact (ih h).imp_right (List.mem_cons_of_mem _)

/-- A write keeps the canonical form. -/
theorem Memory.write_wf {m : Memory} (h : m.wf) (a : Nat) (v : Byte) : (m.write a v).wf := by
  induction m with
  | nil => simp [Memory.write, Memory.wf]
  | cons p m ih =>
    obtain ⟨x, w⟩ := p
    obtain ⟨hx, hm⟩ := List.pairwise_cons.1 h
    simp only [Memory.write]
    split
    · rename_i hax
      refine List.pairwise_cons.2 ⟨fun q hq => ?_, h⟩
      rcases List.mem_cons.1 hq with rfl | hq
      · exact hax
      · exact hax.trans (hx q hq)
    · split
      · rename_i hax
        exact List.pairwise_cons.2 ⟨fun q hq => hax ▸ hx q hq, hm⟩
      · rename_i h1 h2
        refine List.pairwise_cons.2 ⟨fun q hq => ?_, ih hm⟩
        rcases Memory.mem_write hq with rfl | hq
        · show x < a
          omega
        · exact hx q hq

theorem Memory.le_of_mem_ofBytes {vs : List Byte} {a : Nat} {p : Host.Cell} (h : p ∈ Memory.ofBytes a vs) : a ≤ p.1 := by
  induction vs generalizing a with
  | nil => simp [Memory.ofBytes] at h
  | cons v vs ih =>
    rcases List.mem_cons.1 h with rfl | h
    · exact le_rfl
    · exact (Nat.le_succ a).trans (ih h)

/-- A memory built from a byte list is canonical. -/
theorem Memory.ofBytes_wf (a : Nat) (vs : List Byte) : (Memory.ofBytes a vs).wf := by
  induction vs generalizing a with
  | nil => simp [Memory.ofBytes, Memory.wf]
  | cons v vs ih =>
    exact List.pairwise_cons.2 ⟨fun q hq => Nat.lt_of_succ_le (Memory.le_of_mem_ofBytes hq), ih (a + 1)⟩

/-- What a memory built from a byte list holds. -/
theorem Memory.read_ofBytes (a x : Nat) (vs : List Byte) :
    (Memory.ofBytes a vs).read x = if a ≤ x then vs[x - a]? else none := by
  induction vs generalizing a with
  | nil => simp [Memory.ofBytes]
  | cons v vs ih =>
    simp only [Memory.ofBytes, Memory.read, ih]
    by_cases hax : a = x
    · simp [hax]
    · by_cases hle : a ≤ x
      · have h1 : a + 1 ≤ x := by omega
        have h2 : x - a = (x - (a + 1)) + 1 := by omega
        simp [hax, hle, h1, h2]
      · have h1 : ¬ a + 1 ≤ x := by omega
        simp [hax, hle, h1]

/-- A buffer placed at 0 holds a byte exactly at the addresses below its length. -/
theorem Memory.read_ofBytes_isSome (vs : List Byte) (x : Nat) :
    ((Memory.ofBytes 0 vs).read x).isSome = true ↔ x < vs.length := by
  simp [Memory.read_ofBytes]

theorem Memory.mem_ofBytes_lt {vs : List Byte} {a : Nat} {p : Host.Cell} (h : p ∈ Memory.ofBytes a vs) : p.1 < a + vs.length := by
  induction vs generalizing a with
  | nil => simp [Memory.ofBytes] at h
  | cons v vs ih =>
    rw [List.length_cons]
    rcases List.mem_cons.1 h with rfl | h
    · show a < _
      omega
    · have := ih h
      omega

/-- Laying a byte list over a canonical memory keeps it canonical. -/
theorem Memory.overlay_wf {m : Memory} (h : m.wf) (a : Nat) (bs : List Byte) : (m.overlay a bs).wf := by
  have h1 : ∀ p ∈ m.filter (fun c => decide (c.1 < a)), p.1 < a := fun p hp => by simpa using (List.mem_filter.1 hp).2
  have h2 : ∀ p ∈ m.filter (fun c => decide (a + bs.length ≤ c.1)), a + bs.length ≤ p.1 := fun p hp => by
    simpa using (List.mem_filter.1 hp).2
  refine List.pairwise_append.2 ⟨List.pairwise_append.2 ⟨h.filter _, Memory.ofBytes_wf a bs, fun p hp q hq => ?_⟩, h.filter _,
    fun p hp q hq => ?_⟩
  · exact (h1 p hp).trans_le (Memory.le_of_mem_ofBytes hq)
  · rcases List.mem_append.1 hp with hp | hp
    · exact (h1 p hp).trans_le ((Nat.le_add_right _ _).trans (h2 q hq))
    · exact (Memory.mem_ofBytes_lt hp).trans_le (h2 q hq)

/-- Passing over what lies below `a` loses no byte at `a` or above. -/
theorem Memory.read_skipTo (m : Memory) {a b : Nat} (h : a ≤ b) : (m.skipTo a).read b = m.read b := by
  induction m with
  | nil => rfl
  | cons c m ih =>
    by_cases hc : c.1 < a
    · rw [Memory.skipTo, List.dropWhile_cons_of_pos (by simpa using hc), Memory.read, if_neg (by omega)]
      exact ih
    · rw [Memory.skipTo, List.dropWhile_cons_of_neg (by simpa using hc)]

theorem outByteIn_skipTo (limit : Nat) (m : Memory) {a b : Nat} (h : a ≤ b) : outByteIn limit (m.skipTo a) b = outByteIn limit m b := by
  unfold outByteIn
  rw [Memory.read_skipTo m h]

theorem readRun_congr {f g : Nat → Except Fault Byte} {a : Nat} (n : Nat) (h : ∀ b, a ≤ b → f b = g b) : readRun f a n = readRun g a n := by
  induction n generalizing a with
  | zero => rfl
  | succ n ih => rw [readRun, readRun, h a le_rfl, ih fun b hb => h b (by omega)]

/-- Reading a run of an output memory in order is reading its bytes one by one. -/
theorem outRunIn_eq (limit : Nat) (m : Memory) (a n : Nat) : outRunIn limit m a n = readRun (outByteIn limit m) a n := by
  induction n generalizing m a with
  | zero => rfl
  | succ n ih =>
    rw [outRunIn, readRun, ih, outByteIn_skipTo limit m le_rfl,
      readRun_congr n fun b hb => outByteIn_skipTo limit m (Nat.le_of_succ_le hb)]

theorem outRun_eq (s : State) (a n : Nat) : outRun s a n = readRun (outByte s) a n := outRunIn_eq _ _ _ _

theorem readRun_zero (f : Nat → Except Fault Byte) (a : Nat) : readRun f a 0 = .ok [] := rfl

/-- A run of bytes answers where every byte of it does, with those bytes in address order. -/
theorem readRun_ok {f : Nat → Except Fault Byte} {a n : Nat} {vs : List Byte} (hlen : vs.length = n)
    (h : ∀ i (hi : i < vs.length), f (a + i) = .ok vs[i]) : readRun f a n = .ok vs := by
  induction n generalizing a vs with
  | zero => simp [readRun, List.length_eq_zero_iff.1 hlen]
  | succ n ih =>
    cases vs with
    | nil => simp at hlen
    | cons v vs =>
      have h0 : f a = .ok v := h 0 (by simp)
      have hr : readRun f (a + 1) n = .ok vs :=
        ih (by simpa using hlen) fun i hi => by
          have := h (i + 1) (by simpa using hi)
          simpa [Nat.add_assoc, Nat.add_comm 1] using this
      simp [readRun, h0, hr]

/-- A run of bytes that answers has its length, and each byte is the one at its address. -/
theorem readRun_spec {f : Nat → Except Fault Byte} {a n : Nat} {vs : List Byte} (h : readRun f a n = .ok vs) :
    vs.length = n ∧ ∀ i (hi : i < vs.length), f (a + i) = .ok vs[i] := by
  induction n generalizing a vs with
  | zero =>
    simp only [readRun, Except.ok.injEq] at h
    subst h
    simp
  | succ n ih =>
    simp only [readRun] at h
    split at h
    · cases h
    · rename_i v hv
      split at h
      · cases h
      · rename_i ws hws
        cases h
        obtain ⟨hl, hget⟩ := ih hws
        refine ⟨by simp [hl], fun i hi => ?_⟩
        cases i with
        | zero => simpa using hv
        | succ i =>
          have := hget i (by simpa using hi)
          simpa [Nat.add_assoc, Nat.add_comm 1] using this

/-- A run of bytes, each of which is there, answers. -/
theorem readRun_exists {f : Nat → Except Fault Byte} {a n : Nat} (h : ∀ i < n, ∃ v, f (a + i) = .ok v) :
    ∃ vs, readRun f a n = .ok vs := by
  induction n generalizing a with
  | zero => exact ⟨[], rfl⟩
  | succ n ih =>
    obtain ⟨v, hv⟩ := h 0 (by omega)
    obtain ⟨vs, hvs⟩ := ih (a := a + 1) fun i hi => by
      obtain ⟨w, hw⟩ := h (i + 1) (by omega)
      exact ⟨w, by simpa [Nat.add_assoc, Nat.add_comm 1] using hw⟩
    exact ⟨v :: vs, by simp [readRun, show f a = .ok v from hv, hvs]⟩

end Sys2Proof.Machine
end

