-- ==== Sys2Proof/Laws/State.lean ====
section
/-! SUPPORT. One lemma per field per named update of the state, each true by unfolding once. -/

namespace Sys2Proof.Machine

@[simp] theorem finish_rc (tag : EndTag) (s : State) : (finish tag s).rc = s.rc := rfl
@[simp] theorem finish_prob (tag : EndTag) (s : State) : (finish tag s).prob = s.prob := rfl
@[simp] theorem finish_demux (tag : EndTag) (s : State) : (finish tag s).demux = s.demux := rfl
@[simp] theorem finish_tar (tag : EndTag) (s : State) : (finish tag s).tar = s.tar := rfl
@[simp] theorem finish_launch (tag : EndTag) (s : State) : (finish tag s).launch = s.launch := rfl
@[simp] theorem finish_blob (tag : EndTag) (s : State) : (finish tag s).blob = s.blob := rfl
@[simp] theorem finish_out (tag : EndTag) (s : State) : (finish tag s).out = s.out := rfl
@[simp] theorem finish_sink (tag : EndTag) (s : State) : (finish tag s).sink = s.sink := rfl
@[simp] theorem finish_ports (tag : EndTag) (s : State) : (finish tag s).ports = s.ports := rfl
@[simp] theorem finish_cmds (tag : EndTag) (s : State) : (finish tag s).cmds = s.cmds := rfl
@[simp] theorem finish_free (tag : EndTag) (s : State) : (finish tag s).free = s.free := rfl
@[simp] theorem finish_dec_phase (tag : EndTag) (s : State) : (finish tag s).dec.phase = .done := rfl
@[simp] theorem finish_dec_originalSize (tag : EndTag) (s : State) : (finish tag s).dec.originalSize = s.dec.originalSize := rfl
@[simp] theorem finish_dec_outPos (tag : EndTag) (s : State) : (finish tag s).dec.outPos = s.dec.outPos := rfl
@[simp] theorem finish_dec_prevByte (tag : EndTag) (s : State) : (finish tag s).dec.prevByte = s.dec.prevByte := rfl
@[simp] theorem finish_dec_resolving (tag : EndTag) (s : State) : (finish tag s).dec.resolving = false := rfl
@[simp] theorem finish_dec_b (tag : EndTag) (s : State) : (finish tag s).dec.b = s.dec.b := rfl
@[simp] theorem finish_dec_dest (tag : EndTag) (s : State) : (finish tag s).dec.dest = s.dec.dest := rfl
@[simp] theorem finish_dec_j (tag : EndTag) (s : State) : (finish tag s).dec.j = s.dec.j := rfl
@[simp] theorem finish_dec_result (tag : EndTag) (s : State) : (finish tag s).dec.result = { tag := tag, length := s.dec.outPos } := rfl

@[simp] theorem finishComplete_rc (s : State) : (finishComplete s).rc = s.rc := rfl
@[simp] theorem finishComplete_prob (s : State) : (finishComplete s).prob = s.prob := rfl
@[simp] theorem finishComplete_demux (s : State) : (finishComplete s).demux = s.demux := rfl
@[simp] theorem finishComplete_tar (s : State) : (finishComplete s).tar = s.tar := rfl
@[simp] theorem finishComplete_launch (s : State) : (finishComplete s).launch = s.launch := rfl
@[simp] theorem finishComplete_blob (s : State) : (finishComplete s).blob = s.blob := rfl
@[simp] theorem finishComplete_out (s : State) : (finishComplete s).out = s.out := rfl
@[simp] theorem finishComplete_sink (s : State) : (finishComplete s).sink = s.sink := rfl
@[simp] theorem finishComplete_ports (s : State) : (finishComplete s).ports = s.ports := rfl
@[simp] theorem finishComplete_cmds (s : State) : (finishComplete s).cmds = s.cmds := rfl
@[simp] theorem finishComplete_free (s : State) : (finishComplete s).free = s.free := rfl
@[simp] theorem finishComplete_dec_phase (s : State) : (finishComplete s).dec.phase = .done := rfl
@[simp] theorem finishComplete_dec_originalSize (s : State) : (finishComplete s).dec.originalSize = s.dec.originalSize := rfl
@[simp] theorem finishComplete_dec_outPos (s : State) : (finishComplete s).dec.outPos = s.dec.outPos := rfl
@[simp] theorem finishComplete_dec_prevByte (s : State) : (finishComplete s).dec.prevByte = s.dec.prevByte := rfl
@[simp] theorem finishComplete_dec_resolving (s : State) : (finishComplete s).dec.resolving = false := rfl
@[simp] theorem finishComplete_dec_b (s : State) : (finishComplete s).dec.b = s.dec.b := rfl
@[simp] theorem finishComplete_dec_dest (s : State) : (finishComplete s).dec.dest = s.dec.dest := rfl
@[simp] theorem finishComplete_dec_j (s : State) : (finishComplete s).dec.j = s.dec.j := rfl
@[simp] theorem finishComplete_dec_result (s : State) : (finishComplete s).dec.result = { tag := .complete, length := s.dec.outPos } := rfl

@[simp] theorem raiseExhausted_rc (k : StreamIx) (s : State) : (raiseExhausted k s).rc = s.rc := rfl
@[simp] theorem raiseExhausted_prob (k : StreamIx) (s : State) : (raiseExhausted k s).prob = s.prob := rfl
@[simp] theorem raiseExhausted_demux (k : StreamIx) (s : State) : (raiseExhausted k s).demux = s.demux := rfl
@[simp] theorem raiseExhausted_tar (k : StreamIx) (s : State) : (raiseExhausted k s).tar = s.tar := rfl
@[simp] theorem raiseExhausted_launch (k : StreamIx) (s : State) : (raiseExhausted k s).launch = s.launch := rfl
@[simp] theorem raiseExhausted_blob (k : StreamIx) (s : State) : (raiseExhausted k s).blob = s.blob := rfl
@[simp] theorem raiseExhausted_out (k : StreamIx) (s : State) : (raiseExhausted k s).out = s.out := rfl
@[simp] theorem raiseExhausted_sink (k : StreamIx) (s : State) : (raiseExhausted k s).sink = s.sink := rfl
@[simp] theorem raiseExhausted_ports (k : StreamIx) (s : State) : (raiseExhausted k s).ports = s.ports := rfl
@[simp] theorem raiseExhausted_cmds (k : StreamIx) (s : State) : (raiseExhausted k s).cmds = s.cmds := rfl
@[simp] theorem raiseExhausted_free (k : StreamIx) (s : State) : (raiseExhausted k s).free = s.free := rfl
@[simp] theorem raiseExhausted_dec_phase (k : StreamIx) (s : State) : (raiseExhausted k s).dec.phase = .done := rfl
@[simp] theorem raiseExhausted_dec_originalSize (k : StreamIx) (s : State) : (raiseExhausted k s).dec.originalSize = s.dec.originalSize := rfl
@[simp] theorem raiseExhausted_dec_outPos (k : StreamIx) (s : State) : (raiseExhausted k s).dec.outPos = s.dec.outPos := rfl
@[simp] theorem raiseExhausted_dec_prevByte (k : StreamIx) (s : State) : (raiseExhausted k s).dec.prevByte = s.dec.prevByte := rfl
@[simp] theorem raiseExhausted_dec_resolving (k : StreamIx) (s : State) : (raiseExhausted k s).dec.resolving = false := rfl
@[simp] theorem raiseExhausted_dec_b (k : StreamIx) (s : State) : (raiseExhausted k s).dec.b = s.dec.b := rfl
@[simp] theorem raiseExhausted_dec_dest (k : StreamIx) (s : State) : (raiseExhausted k s).dec.dest = s.dec.dest := rfl
@[simp] theorem raiseExhausted_dec_j (k : StreamIx) (s : State) : (raiseExhausted k s).dec.j = s.dec.j := rfl
@[simp] theorem raiseExhausted_dec_result (k : StreamIx) (s : State) : (raiseExhausted k s).dec.result = { tag := .partialAt k s.demux.pos[k], length := s.dec.outPos } := rfl

@[simp] theorem advance_rc (k : StreamIx) (n : Nat) (s : State) : (advance k n s).rc = s.rc := rfl
@[simp] theorem advance_prob (k : StreamIx) (n : Nat) (s : State) : (advance k n s).prob = s.prob := rfl
@[simp] theorem advance_dec (k : StreamIx) (n : Nat) (s : State) : (advance k n s).dec = s.dec := rfl
@[simp] theorem advance_tar (k : StreamIx) (n : Nat) (s : State) : (advance k n s).tar = s.tar := rfl
@[simp] theorem advance_launch (k : StreamIx) (n : Nat) (s : State) : (advance k n s).launch = s.launch := rfl
@[simp] theorem advance_blob (k : StreamIx) (n : Nat) (s : State) : (advance k n s).blob = s.blob := rfl
@[simp] theorem advance_out (k : StreamIx) (n : Nat) (s : State) : (advance k n s).out = s.out := rfl
@[simp] theorem advance_sink (k : StreamIx) (n : Nat) (s : State) : (advance k n s).sink = s.sink := rfl
@[simp] theorem advance_ports (k : StreamIx) (n : Nat) (s : State) : (advance k n s).ports = s.ports := rfl
@[simp] theorem advance_cmds (k : StreamIx) (n : Nat) (s : State) : (advance k n s).cmds = s.cmds := rfl
@[simp] theorem advance_free (k : StreamIx) (n : Nat) (s : State) : (advance k n s).free = s.free := rfl
@[simp] theorem advance_demux_base (k : StreamIx) (n : Nat) (s : State) : (advance k n s).demux.base = s.demux.base := rfl
@[simp] theorem advance_demux_len (k : StreamIx) (n : Nat) (s : State) : (advance k n s).demux.len = s.demux.len := rfl
@[simp] theorem advance_demux_pos (k : StreamIx) (n : Nat) (s : State) : (advance k n s).demux.pos = s.demux.pos.set k (s.demux.pos[k] + n) := rfl

@[simp] theorem setPrev_rc (v : Byte) (s : State) : (setPrev v s).rc = s.rc := rfl
@[simp] theorem setPrev_prob (v : Byte) (s : State) : (setPrev v s).prob = s.prob := rfl
@[simp] theorem setPrev_demux (v : Byte) (s : State) : (setPrev v s).demux = s.demux := rfl
@[simp] theorem setPrev_tar (v : Byte) (s : State) : (setPrev v s).tar = s.tar := rfl
@[simp] theorem setPrev_launch (v : Byte) (s : State) : (setPrev v s).launch = s.launch := rfl
@[simp] theorem setPrev_blob (v : Byte) (s : State) : (setPrev v s).blob = s.blob := rfl
@[simp] theorem setPrev_out (v : Byte) (s : State) : (setPrev v s).out = s.out := rfl
@[simp] theorem setPrev_sink (v : Byte) (s : State) : (setPrev v s).sink = s.sink := rfl
@[simp] theorem setPrev_ports (v : Byte) (s : State) : (setPrev v s).ports = s.ports := rfl
@[simp] theorem setPrev_cmds (v : Byte) (s : State) : (setPrev v s).cmds = s.cmds := rfl
@[simp] theorem setPrev_free (v : Byte) (s : State) : (setPrev v s).free = s.free := rfl
@[simp] theorem setPrev_dec_phase (v : Byte) (s : State) : (setPrev v s).dec.phase = s.dec.phase := rfl
@[simp] theorem setPrev_dec_originalSize (v : Byte) (s : State) : (setPrev v s).dec.originalSize = s.dec.originalSize := rfl
@[simp] theorem setPrev_dec_outPos (v : Byte) (s : State) : (setPrev v s).dec.outPos = s.dec.outPos := rfl
@[simp] theorem setPrev_dec_prevByte (v : Byte) (s : State) : (setPrev v s).dec.prevByte = v := rfl
@[simp] theorem setPrev_dec_resolving (v : Byte) (s : State) : (setPrev v s).dec.resolving = s.dec.resolving := rfl
@[simp] theorem setPrev_dec_b (v : Byte) (s : State) : (setPrev v s).dec.b = s.dec.b := rfl
@[simp] theorem setPrev_dec_dest (v : Byte) (s : State) : (setPrev v s).dec.dest = s.dec.dest := rfl
@[simp] theorem setPrev_dec_j (v : Byte) (s : State) : (setPrev v s).dec.j = s.dec.j := rfl
@[simp] theorem setPrev_dec_result (v : Byte) (s : State) : (setPrev v s).dec.result = s.dec.result := rfl

@[simp] theorem setResolving_rc (r : Bool) (s : State) : (setResolving r s).rc = s.rc := rfl
@[simp] theorem setResolving_prob (r : Bool) (s : State) : (setResolving r s).prob = s.prob := rfl
@[simp] theorem setResolving_demux (r : Bool) (s : State) : (setResolving r s).demux = s.demux := rfl
@[simp] theorem setResolving_tar (r : Bool) (s : State) : (setResolving r s).tar = s.tar := rfl
@[simp] theorem setResolving_launch (r : Bool) (s : State) : (setResolving r s).launch = s.launch := rfl
@[simp] theorem setResolving_blob (r : Bool) (s : State) : (setResolving r s).blob = s.blob := rfl
@[simp] theorem setResolving_out (r : Bool) (s : State) : (setResolving r s).out = s.out := rfl
@[simp] theorem setResolving_sink (r : Bool) (s : State) : (setResolving r s).sink = s.sink := rfl
@[simp] theorem setResolving_ports (r : Bool) (s : State) : (setResolving r s).ports = s.ports := rfl
@[simp] theorem setResolving_cmds (r : Bool) (s : State) : (setResolving r s).cmds = s.cmds := rfl
@[simp] theorem setResolving_free (r : Bool) (s : State) : (setResolving r s).free = s.free := rfl
@[simp] theorem setResolving_dec_phase (r : Bool) (s : State) : (setResolving r s).dec.phase = s.dec.phase := rfl
@[simp] theorem setResolving_dec_originalSize (r : Bool) (s : State) : (setResolving r s).dec.originalSize = s.dec.originalSize := rfl
@[simp] theorem setResolving_dec_outPos (r : Bool) (s : State) : (setResolving r s).dec.outPos = s.dec.outPos := rfl
@[simp] theorem setResolving_dec_prevByte (r : Bool) (s : State) : (setResolving r s).dec.prevByte = s.dec.prevByte := rfl
@[simp] theorem setResolving_dec_resolving (r : Bool) (s : State) : (setResolving r s).dec.resolving = r := rfl
@[simp] theorem setResolving_dec_b (r : Bool) (s : State) : (setResolving r s).dec.b = s.dec.b := rfl
@[simp] theorem setResolving_dec_dest (r : Bool) (s : State) : (setResolving r s).dec.dest = s.dec.dest := rfl
@[simp] theorem setResolving_dec_j (r : Bool) (s : State) : (setResolving r s).dec.j = s.dec.j := rfl
@[simp] theorem setResolving_dec_result (r : Bool) (s : State) : (setResolving r s).dec.result = s.dec.result := rfl

@[simp] theorem setRc_prob (range code : Word) (s : State) : (setRc range code s).prob = s.prob := rfl
@[simp] theorem setRc_demux (range code : Word) (s : State) : (setRc range code s).demux = s.demux := rfl
@[simp] theorem setRc_dec (range code : Word) (s : State) : (setRc range code s).dec = s.dec := rfl
@[simp] theorem setRc_tar (range code : Word) (s : State) : (setRc range code s).tar = s.tar := rfl
@[simp] theorem setRc_launch (range code : Word) (s : State) : (setRc range code s).launch = s.launch := rfl
@[simp] theorem setRc_blob (range code : Word) (s : State) : (setRc range code s).blob = s.blob := rfl
@[simp] theorem setRc_out (range code : Word) (s : State) : (setRc range code s).out = s.out := rfl
@[simp] theorem setRc_sink (range code : Word) (s : State) : (setRc range code s).sink = s.sink := rfl
@[simp] theorem setRc_ports (range code : Word) (s : State) : (setRc range code s).ports = s.ports := rfl
@[simp] theorem setRc_cmds (range code : Word) (s : State) : (setRc range code s).cmds = s.cmds := rfl
@[simp] theorem setRc_free (range code : Word) (s : State) : (setRc range code s).free = s.free := rfl
@[simp] theorem setRc_rc_code (range code : Word) (s : State) : (setRc range code s).rc.code = code := rfl
@[simp] theorem setRc_rc_range (range code : Word) (s : State) : (setRc range code s).rc.range = range := rfl

@[simp] theorem probInit_rc (s : State) : (probInit s).rc = s.rc := rfl
@[simp] theorem probInit_demux (s : State) : (probInit s).demux = s.demux := rfl
@[simp] theorem probInit_dec (s : State) : (probInit s).dec = s.dec := rfl
@[simp] theorem probInit_tar (s : State) : (probInit s).tar = s.tar := rfl
@[simp] theorem probInit_launch (s : State) : (probInit s).launch = s.launch := rfl
@[simp] theorem probInit_blob (s : State) : (probInit s).blob = s.blob := rfl
@[simp] theorem probInit_out (s : State) : (probInit s).out = s.out := rfl
@[simp] theorem probInit_sink (s : State) : (probInit s).sink = s.sink := rfl
@[simp] theorem probInit_ports (s : State) : (probInit s).ports = s.ports := rfl
@[simp] theorem probInit_cmds (s : State) : (probInit s).cmds = s.cmds := rfl
@[simp] theorem probInit_free (s : State) : (probInit s).free = s.free := rfl
@[simp] theorem probInit_prob (s : State) : (probInit s).prob = Vector.replicate 258 Config.probInit := rfl

@[simp] theorem probUp_rc (slot : Slot) (s : State) : (probUp slot s).rc = s.rc := rfl
@[simp] theorem probUp_demux (slot : Slot) (s : State) : (probUp slot s).demux = s.demux := rfl
@[simp] theorem probUp_dec (slot : Slot) (s : State) : (probUp slot s).dec = s.dec := rfl
@[simp] theorem probUp_tar (slot : Slot) (s : State) : (probUp slot s).tar = s.tar := rfl
@[simp] theorem probUp_launch (slot : Slot) (s : State) : (probUp slot s).launch = s.launch := rfl
@[simp] theorem probUp_blob (slot : Slot) (s : State) : (probUp slot s).blob = s.blob := rfl
@[simp] theorem probUp_out (slot : Slot) (s : State) : (probUp slot s).out = s.out := rfl
@[simp] theorem probUp_sink (slot : Slot) (s : State) : (probUp slot s).sink = s.sink := rfl
@[simp] theorem probUp_ports (slot : Slot) (s : State) : (probUp slot s).ports = s.ports := rfl
@[simp] theorem probUp_cmds (slot : Slot) (s : State) : (probUp slot s).cmds = s.cmds := rfl
@[simp] theorem probUp_free (slot : Slot) (s : State) : (probUp slot s).free = s.free := rfl
@[simp] theorem probUp_prob (slot : Slot) (s : State) : (probUp slot s).prob = s.prob.set slot (probUpValue s.prob[slot]) := rfl

@[simp] theorem probDown_rc (slot : Slot) (s : State) : (probDown slot s).rc = s.rc := rfl
@[simp] theorem probDown_demux (slot : Slot) (s : State) : (probDown slot s).demux = s.demux := rfl
@[simp] theorem probDown_dec (slot : Slot) (s : State) : (probDown slot s).dec = s.dec := rfl
@[simp] theorem probDown_tar (slot : Slot) (s : State) : (probDown slot s).tar = s.tar := rfl
@[simp] theorem probDown_launch (slot : Slot) (s : State) : (probDown slot s).launch = s.launch := rfl
@[simp] theorem probDown_blob (slot : Slot) (s : State) : (probDown slot s).blob = s.blob := rfl
@[simp] theorem probDown_out (slot : Slot) (s : State) : (probDown slot s).out = s.out := rfl
@[simp] theorem probDown_sink (slot : Slot) (s : State) : (probDown slot s).sink = s.sink := rfl
@[simp] theorem probDown_ports (slot : Slot) (s : State) : (probDown slot s).ports = s.ports := rfl
@[simp] theorem probDown_cmds (slot : Slot) (s : State) : (probDown slot s).cmds = s.cmds := rfl
@[simp] theorem probDown_free (slot : Slot) (s : State) : (probDown slot s).free = s.free := rfl
@[simp] theorem probDown_prob (slot : Slot) (s : State) : (probDown slot s).prob = s.prob.set slot (probDownValue s.prob[slot]) := rfl

@[simp] theorem demuxSetup_rc (s : State) : (demuxSetup s).rc = s.rc := rfl
@[simp] theorem demuxSetup_prob (s : State) : (demuxSetup s).prob = s.prob := rfl
@[simp] theorem demuxSetup_dec (s : State) : (demuxSetup s).dec = s.dec := rfl
@[simp] theorem demuxSetup_tar (s : State) : (demuxSetup s).tar = s.tar := rfl
@[simp] theorem demuxSetup_launch (s : State) : (demuxSetup s).launch = s.launch := rfl
@[simp] theorem demuxSetup_blob (s : State) : (demuxSetup s).blob = s.blob := rfl
@[simp] theorem demuxSetup_out (s : State) : (demuxSetup s).out = s.out := rfl
@[simp] theorem demuxSetup_sink (s : State) : (demuxSetup s).sink = s.sink := rfl
@[simp] theorem demuxSetup_ports (s : State) : (demuxSetup s).ports = s.ports := rfl
@[simp] theorem demuxSetup_cmds (s : State) : (demuxSetup s).cmds = s.cmds := rfl
@[simp] theorem demuxSetup_free (s : State) : (demuxSetup s).free = s.free := rfl
@[simp] theorem demuxSetup_demux (s : State) : (demuxSetup s).demux = windows s.launch.desc s.blob.size := rfl

@[simp] theorem tarStopWith_rc (r : TarStop) (s : State) : (tarStopWith r s).rc = s.rc := rfl
@[simp] theorem tarStopWith_prob (r : TarStop) (s : State) : (tarStopWith r s).prob = s.prob := rfl
@[simp] theorem tarStopWith_demux (r : TarStop) (s : State) : (tarStopWith r s).demux = s.demux := rfl
@[simp] theorem tarStopWith_dec (r : TarStop) (s : State) : (tarStopWith r s).dec = s.dec := rfl
@[simp] theorem tarStopWith_launch (r : TarStop) (s : State) : (tarStopWith r s).launch = s.launch := rfl
@[simp] theorem tarStopWith_blob (r : TarStop) (s : State) : (tarStopWith r s).blob = s.blob := rfl
@[simp] theorem tarStopWith_out (r : TarStop) (s : State) : (tarStopWith r s).out = s.out := rfl
@[simp] theorem tarStopWith_sink (r : TarStop) (s : State) : (tarStopWith r s).sink = s.sink := rfl
@[simp] theorem tarStopWith_ports (r : TarStop) (s : State) : (tarStopWith r s).ports = s.ports := rfl
@[simp] theorem tarStopWith_cmds (r : TarStop) (s : State) : (tarStopWith r s).cmds = s.cmds := rfl
@[simp] theorem tarStopWith_free (r : TarStop) (s : State) : (tarStopWith r s).free = s.free := rfl
@[simp] theorem tarStopWith_tar_running (r : TarStop) (s : State) : (tarStopWith r s).tar.running = false := rfl
@[simp] theorem tarStopWith_tar_tpos (r : TarStop) (s : State) : (tarStopWith r s).tar.tpos = s.tar.tpos := rfl
@[simp] theorem tarStopWith_tar_stop (r : TarStop) (s : State) : (tarStopWith r s).tar.stop = r := rfl
@[simp] theorem tarStopWith_tar_count (r : TarStop) (s : State) : (tarStopWith r s).tar.count = s.tar.count := rfl
@[simp] theorem tarStopWith_tar_hdr (r : TarStop) (s : State) : (tarStopWith r s).tar.hdr = Vector.replicate 512 0 := rfl
@[simp] theorem tarStopWith_tar_full (r : TarStop) (s : State) : (tarStopWith r s).tar.full = [] := rfl
@[simp] theorem tarStopWith_tar_size (r : TarStop) (s : State) : (tarStopWith r s).tar.size = 0 := rfl
@[simp] theorem tarStopWith_tar_isdir (r : TarStop) (s : State) : (tarStopWith r s).tar.isdir = false := rfl
@[simp] theorem tarStopWith_tar_clean (r : TarStop) (s : State) : (tarStopWith r s).tar.clean = [] := rfl

@[simp] theorem tarDiscard_rc (s : State) : (tarDiscard s).rc = s.rc := rfl
@[simp] theorem tarDiscard_prob (s : State) : (tarDiscard s).prob = s.prob := rfl
@[simp] theorem tarDiscard_demux (s : State) : (tarDiscard s).demux = s.demux := rfl
@[simp] theorem tarDiscard_dec (s : State) : (tarDiscard s).dec = s.dec := rfl
@[simp] theorem tarDiscard_launch (s : State) : (tarDiscard s).launch = s.launch := rfl
@[simp] theorem tarDiscard_blob (s : State) : (tarDiscard s).blob = s.blob := rfl
@[simp] theorem tarDiscard_out (s : State) : (tarDiscard s).out = s.out := rfl
@[simp] theorem tarDiscard_sink (s : State) : (tarDiscard s).sink = s.sink := rfl
@[simp] theorem tarDiscard_ports (s : State) : (tarDiscard s).ports = s.ports := rfl
@[simp] theorem tarDiscard_cmds (s : State) : (tarDiscard s).cmds = s.cmds := rfl
@[simp] theorem tarDiscard_free (s : State) : (tarDiscard s).free = s.free := rfl
@[simp] theorem tarDiscard_tar_running (s : State) : (tarDiscard s).tar.running = s.tar.running := rfl
@[simp] theorem tarDiscard_tar_tpos (s : State) : (tarDiscard s).tar.tpos = s.tar.tpos := rfl
@[simp] theorem tarDiscard_tar_stop (s : State) : (tarDiscard s).tar.stop = s.tar.stop := rfl
@[simp] theorem tarDiscard_tar_count (s : State) : (tarDiscard s).tar.count = s.tar.count := rfl
@[simp] theorem tarDiscard_tar_hdr (s : State) : (tarDiscard s).tar.hdr = Vector.replicate 512 0 := rfl
@[simp] theorem tarDiscard_tar_full (s : State) : (tarDiscard s).tar.full = [] := rfl
@[simp] theorem tarDiscard_tar_size (s : State) : (tarDiscard s).tar.size = 0 := rfl
@[simp] theorem tarDiscard_tar_isdir (s : State) : (tarDiscard s).tar.isdir = false := rfl
@[simp] theorem tarDiscard_tar_clean (s : State) : (tarDiscard s).tar.clean = [] := rfl
@[simp] theorem discard_discard (x : Tar) : x.discard.discard = x.discard := rfl

@[simp] theorem tarStartOp_rc (s : State) : (tarStartOp s).rc = s.rc := rfl
@[simp] theorem tarStartOp_prob (s : State) : (tarStartOp s).prob = s.prob := rfl
@[simp] theorem tarStartOp_demux (s : State) : (tarStartOp s).demux = s.demux := rfl
@[simp] theorem tarStartOp_dec (s : State) : (tarStartOp s).dec = s.dec := rfl
@[simp] theorem tarStartOp_launch (s : State) : (tarStartOp s).launch = s.launch := rfl
@[simp] theorem tarStartOp_blob (s : State) : (tarStartOp s).blob = s.blob := rfl
@[simp] theorem tarStartOp_out (s : State) : (tarStartOp s).out = s.out := rfl
@[simp] theorem tarStartOp_sink (s : State) : (tarStartOp s).sink = s.sink := rfl
@[simp] theorem tarStartOp_ports (s : State) : (tarStartOp s).ports = s.ports := rfl
@[simp] theorem tarStartOp_cmds (s : State) : (tarStartOp s).cmds = s.cmds := rfl
@[simp] theorem tarStartOp_free (s : State) : (tarStartOp s).free = s.free := rfl
@[simp] theorem tarStartOp_tar_running (s : State) : (tarStartOp s).tar.running = true := rfl
@[simp] theorem tarStartOp_tar_tpos (s : State) : (tarStartOp s).tar.tpos = s.launch.tarStart := rfl
@[simp] theorem tarStartOp_tar_stop (s : State) : (tarStartOp s).tar.stop = .none := rfl
@[simp] theorem tarStartOp_tar_count (s : State) : (tarStartOp s).tar.count = 0 := rfl
@[simp] theorem tarStartOp_tar_hdr (s : State) : (tarStartOp s).tar.hdr = s.tar.hdr := rfl
@[simp] theorem tarStartOp_tar_full (s : State) : (tarStartOp s).tar.full = s.tar.full := rfl
@[simp] theorem tarStartOp_tar_size (s : State) : (tarStartOp s).tar.size = s.tar.size := rfl
@[simp] theorem tarStartOp_tar_isdir (s : State) : (tarStartOp s).tar.isdir = s.tar.isdir := rfl
@[simp] theorem tarStartOp_tar_clean (s : State) : (tarStartOp s).tar.clean = s.tar.clean := rfl

@[simp] theorem tarName_rc (s : State) : (tarName s).rc = s.rc := rfl
@[simp] theorem tarName_prob (s : State) : (tarName s).prob = s.prob := rfl
@[simp] theorem tarName_demux (s : State) : (tarName s).demux = s.demux := rfl
@[simp] theorem tarName_dec (s : State) : (tarName s).dec = s.dec := rfl
@[simp] theorem tarName_launch (s : State) : (tarName s).launch = s.launch := rfl
@[simp] theorem tarName_blob (s : State) : (tarName s).blob = s.blob := rfl
@[simp] theorem tarName_out (s : State) : (tarName s).out = s.out := rfl
@[simp] theorem tarName_sink (s : State) : (tarName s).sink = s.sink := rfl
@[simp] theorem tarName_ports (s : State) : (tarName s).ports = s.ports := rfl
@[simp] theorem tarName_cmds (s : State) : (tarName s).cmds = s.cmds := rfl
@[simp] theorem tarName_free (s : State) : (tarName s).free = s.free := rfl
@[simp] theorem tarName_tar_running (s : State) : (tarName s).tar.running = s.tar.running := rfl
@[simp] theorem tarName_tar_tpos (s : State) : (tarName s).tar.tpos = s.tar.tpos := rfl
@[simp] theorem tarName_tar_stop (s : State) : (tarName s).tar.stop = s.tar.stop := rfl
@[simp] theorem tarName_tar_count (s : State) : (tarName s).tar.count = s.tar.count := rfl
@[simp] theorem tarName_tar_hdr (s : State) : (tarName s).tar.hdr = s.tar.hdr := rfl
@[simp] theorem tarName_tar_full (s : State) : (tarName s).tar.full = joinedName s.tar.hdr := rfl
@[simp] theorem tarName_tar_size (s : State) : (tarName s).tar.size = s.tar.size := rfl
@[simp] theorem tarName_tar_isdir (s : State) : (tarName s).tar.isdir = s.tar.isdir := rfl
@[simp] theorem tarName_tar_clean (s : State) : (tarName s).tar.clean = s.tar.clean := rfl

@[simp] theorem setIsdir_rc (v : Bool) (s : State) : (setIsdir v s).rc = s.rc := rfl
@[simp] theorem setIsdir_prob (v : Bool) (s : State) : (setIsdir v s).prob = s.prob := rfl
@[simp] theorem setIsdir_demux (v : Bool) (s : State) : (setIsdir v s).demux = s.demux := rfl
@[simp] theorem setIsdir_dec (v : Bool) (s : State) : (setIsdir v s).dec = s.dec := rfl
@[simp] theorem setIsdir_launch (v : Bool) (s : State) : (setIsdir v s).launch = s.launch := rfl
@[simp] theorem setIsdir_blob (v : Bool) (s : State) : (setIsdir v s).blob = s.blob := rfl
@[simp] theorem setIsdir_out (v : Bool) (s : State) : (setIsdir v s).out = s.out := rfl
@[simp] theorem setIsdir_sink (v : Bool) (s : State) : (setIsdir v s).sink = s.sink := rfl
@[simp] theorem setIsdir_ports (v : Bool) (s : State) : (setIsdir v s).ports = s.ports := rfl
@[simp] theorem setIsdir_cmds (v : Bool) (s : State) : (setIsdir v s).cmds = s.cmds := rfl
@[simp] theorem setIsdir_free (v : Bool) (s : State) : (setIsdir v s).free = s.free := rfl
@[simp] theorem setIsdir_tar_running (v : Bool) (s : State) : (setIsdir v s).tar.running = s.tar.running := rfl
@[simp] theorem setIsdir_tar_tpos (v : Bool) (s : State) : (setIsdir v s).tar.tpos = s.tar.tpos := rfl
@[simp] theorem setIsdir_tar_stop (v : Bool) (s : State) : (setIsdir v s).tar.stop = s.tar.stop := rfl
@[simp] theorem setIsdir_tar_count (v : Bool) (s : State) : (setIsdir v s).tar.count = s.tar.count := rfl
@[simp] theorem setIsdir_tar_hdr (v : Bool) (s : State) : (setIsdir v s).tar.hdr = s.tar.hdr := rfl
@[simp] theorem setIsdir_tar_full (v : Bool) (s : State) : (setIsdir v s).tar.full = s.tar.full := rfl
@[simp] theorem setIsdir_tar_size (v : Bool) (s : State) : (setIsdir v s).tar.size = s.tar.size := rfl
@[simp] theorem setIsdir_tar_isdir (v : Bool) (s : State) : (setIsdir v s).tar.isdir = v := rfl
@[simp] theorem setIsdir_tar_clean (v : Bool) (s : State) : (setIsdir v s).tar.clean = s.tar.clean := rfl

@[simp] theorem tarSanitize_rc (s : State) : (tarSanitize s).rc = s.rc := rfl
@[simp] theorem tarSanitize_prob (s : State) : (tarSanitize s).prob = s.prob := rfl
@[simp] theorem tarSanitize_demux (s : State) : (tarSanitize s).demux = s.demux := rfl
@[simp] theorem tarSanitize_dec (s : State) : (tarSanitize s).dec = s.dec := rfl
@[simp] theorem tarSanitize_launch (s : State) : (tarSanitize s).launch = s.launch := rfl
@[simp] theorem tarSanitize_blob (s : State) : (tarSanitize s).blob = s.blob := rfl
@[simp] theorem tarSanitize_out (s : State) : (tarSanitize s).out = s.out := rfl
@[simp] theorem tarSanitize_sink (s : State) : (tarSanitize s).sink = s.sink := rfl
@[simp] theorem tarSanitize_ports (s : State) : (tarSanitize s).ports = s.ports := rfl
@[simp] theorem tarSanitize_cmds (s : State) : (tarSanitize s).cmds = s.cmds := rfl
@[simp] theorem tarSanitize_free (s : State) : (tarSanitize s).free = s.free := rfl
@[simp] theorem tarSanitize_tar_running (s : State) : (tarSanitize s).tar.running = s.tar.running := rfl
@[simp] theorem tarSanitize_tar_tpos (s : State) : (tarSanitize s).tar.tpos = s.tar.tpos := rfl
@[simp] theorem tarSanitize_tar_stop (s : State) : (tarSanitize s).tar.stop = s.tar.stop := rfl
@[simp] theorem tarSanitize_tar_count (s : State) : (tarSanitize s).tar.count = s.tar.count := rfl
@[simp] theorem tarSanitize_tar_hdr (s : State) : (tarSanitize s).tar.hdr = s.tar.hdr := rfl
@[simp] theorem tarSanitize_tar_full (s : State) : (tarSanitize s).tar.full = s.tar.full := rfl
@[simp] theorem tarSanitize_tar_size (s : State) : (tarSanitize s).tar.size = s.tar.size := rfl
@[simp] theorem tarSanitize_tar_isdir (s : State) : (tarSanitize s).tar.isdir = s.tar.isdir := rfl
@[simp] theorem tarSanitize_tar_clean (s : State) : (tarSanitize s).tar.clean = sanitize s.tar.full := rfl

@[simp] theorem tarAdvance_rc (s : State) : (tarAdvance s).rc = s.rc := rfl
@[simp] theorem tarAdvance_prob (s : State) : (tarAdvance s).prob = s.prob := rfl
@[simp] theorem tarAdvance_demux (s : State) : (tarAdvance s).demux = s.demux := rfl
@[simp] theorem tarAdvance_dec (s : State) : (tarAdvance s).dec = s.dec := rfl
@[simp] theorem tarAdvance_launch (s : State) : (tarAdvance s).launch = s.launch := rfl
@[simp] theorem tarAdvance_blob (s : State) : (tarAdvance s).blob = s.blob := rfl
@[simp] theorem tarAdvance_out (s : State) : (tarAdvance s).out = s.out := rfl
@[simp] theorem tarAdvance_sink (s : State) : (tarAdvance s).sink = s.sink := rfl
@[simp] theorem tarAdvance_ports (s : State) : (tarAdvance s).ports = s.ports := rfl
@[simp] theorem tarAdvance_cmds (s : State) : (tarAdvance s).cmds = s.cmds := rfl
@[simp] theorem tarAdvance_free (s : State) : (tarAdvance s).free = s.free := rfl
@[simp] theorem tarAdvance_tar_running (s : State) : (tarAdvance s).tar.running = s.tar.running := rfl
@[simp] theorem tarAdvance_tar_tpos (s : State) : (tarAdvance s).tar.tpos = s.tar.tpos + tarAdvanceBy s.tar.isdir s.tar.size := rfl
@[simp] theorem tarAdvance_tar_stop (s : State) : (tarAdvance s).tar.stop = s.tar.stop := rfl
@[simp] theorem tarAdvance_tar_count (s : State) : (tarAdvance s).tar.count = s.tar.count := rfl
@[simp] theorem tarAdvance_tar_hdr (s : State) : (tarAdvance s).tar.hdr = s.tar.hdr := rfl
@[simp] theorem tarAdvance_tar_full (s : State) : (tarAdvance s).tar.full = s.tar.full := rfl
@[simp] theorem tarAdvance_tar_size (s : State) : (tarAdvance s).tar.size = s.tar.size := rfl
@[simp] theorem tarAdvance_tar_isdir (s : State) : (tarAdvance s).tar.isdir = s.tar.isdir := rfl
@[simp] theorem tarAdvance_tar_clean (s : State) : (tarAdvance s).tar.clean = s.tar.clean := rfl

@[simp] theorem tarCountUp_rc (s : State) : (tarCountUp s).rc = s.rc := rfl
@[simp] theorem tarCountUp_prob (s : State) : (tarCountUp s).prob = s.prob := rfl
@[simp] theorem tarCountUp_demux (s : State) : (tarCountUp s).demux = s.demux := rfl
@[simp] theorem tarCountUp_dec (s : State) : (tarCountUp s).dec = s.dec := rfl
@[simp] theorem tarCountUp_launch (s : State) : (tarCountUp s).launch = s.launch := rfl
@[simp] theorem tarCountUp_blob (s : State) : (tarCountUp s).blob = s.blob := rfl
@[simp] theorem tarCountUp_out (s : State) : (tarCountUp s).out = s.out := rfl
@[simp] theorem tarCountUp_sink (s : State) : (tarCountUp s).sink = s.sink := rfl
@[simp] theorem tarCountUp_ports (s : State) : (tarCountUp s).ports = s.ports := rfl
@[simp] theorem tarCountUp_cmds (s : State) : (tarCountUp s).cmds = s.cmds := rfl
@[simp] theorem tarCountUp_free (s : State) : (tarCountUp s).free = s.free := rfl
@[simp] theorem tarCountUp_tar_running (s : State) : (tarCountUp s).tar.running = s.tar.running := rfl
@[simp] theorem tarCountUp_tar_tpos (s : State) : (tarCountUp s).tar.tpos = s.tar.tpos := rfl
@[simp] theorem tarCountUp_tar_stop (s : State) : (tarCountUp s).tar.stop = s.tar.stop := rfl
@[simp] theorem tarCountUp_tar_count (s : State) : (tarCountUp s).tar.count = s.tar.count + 1 := rfl
@[simp] theorem tarCountUp_tar_hdr (s : State) : (tarCountUp s).tar.hdr = s.tar.hdr := rfl
@[simp] theorem tarCountUp_tar_full (s : State) : (tarCountUp s).tar.full = s.tar.full := rfl
@[simp] theorem tarCountUp_tar_size (s : State) : (tarCountUp s).tar.size = s.tar.size := rfl
@[simp] theorem tarCountUp_tar_isdir (s : State) : (tarCountUp s).tar.isdir = s.tar.isdir := rfl
@[simp] theorem tarCountUp_tar_clean (s : State) : (tarCountUp s).tar.clean = s.tar.clean := rfl

@[simp] theorem sinkEvent_rc (e : SinkEvent) (s : State) : (sinkEvent e s).rc = s.rc := rfl
@[simp] theorem sinkEvent_prob (e : SinkEvent) (s : State) : (sinkEvent e s).prob = s.prob := rfl
@[simp] theorem sinkEvent_demux (e : SinkEvent) (s : State) : (sinkEvent e s).demux = s.demux := rfl
@[simp] theorem sinkEvent_dec (e : SinkEvent) (s : State) : (sinkEvent e s).dec = s.dec := rfl
@[simp] theorem sinkEvent_tar (e : SinkEvent) (s : State) : (sinkEvent e s).tar = s.tar := rfl
@[simp] theorem sinkEvent_launch (e : SinkEvent) (s : State) : (sinkEvent e s).launch = s.launch := rfl
@[simp] theorem sinkEvent_blob (e : SinkEvent) (s : State) : (sinkEvent e s).blob = s.blob := rfl
@[simp] theorem sinkEvent_out (e : SinkEvent) (s : State) : (sinkEvent e s).out = s.out := rfl
@[simp] theorem sinkEvent_ports (e : SinkEvent) (s : State) : (sinkEvent e s).ports = s.ports := rfl
@[simp] theorem sinkEvent_cmds (e : SinkEvent) (s : State) : (sinkEvent e s).cmds = s.cmds := rfl
@[simp] theorem sinkEvent_free (e : SinkEvent) (s : State) : (sinkEvent e s).free = s.free := rfl
@[simp] theorem sinkEvent_sink (e : SinkEvent) (s : State) : (sinkEvent e s).sink = s.sink ++ [e] := rfl

@[simp] theorem tarDir_rc (s : State) : (tarDir s).rc = s.rc := rfl
@[simp] theorem tarDir_prob (s : State) : (tarDir s).prob = s.prob := rfl
@[simp] theorem tarDir_demux (s : State) : (tarDir s).demux = s.demux := rfl
@[simp] theorem tarDir_dec (s : State) : (tarDir s).dec = s.dec := rfl
@[simp] theorem tarDir_tar (s : State) : (tarDir s).tar = s.tar := rfl
@[simp] theorem tarDir_launch (s : State) : (tarDir s).launch = s.launch := rfl
@[simp] theorem tarDir_blob (s : State) : (tarDir s).blob = s.blob := rfl
@[simp] theorem tarDir_out (s : State) : (tarDir s).out = s.out := rfl
@[simp] theorem tarDir_ports (s : State) : (tarDir s).ports = s.ports := rfl
@[simp] theorem tarDir_cmds (s : State) : (tarDir s).cmds = s.cmds := rfl
@[simp] theorem tarDir_free (s : State) : (tarDir s).free = s.free := rfl
@[simp] theorem tarDir_sink (s : State) : (tarDir s).sink = s.sink ++ [.createDir s.tar.clean] := rfl

@[simp] theorem portBit_rc (v : Bool) (s : State) : (portBit v s).rc = s.rc := rfl
@[simp] theorem portBit_prob (v : Bool) (s : State) : (portBit v s).prob = s.prob := rfl
@[simp] theorem portBit_demux (v : Bool) (s : State) : (portBit v s).demux = s.demux := rfl
@[simp] theorem portBit_dec (v : Bool) (s : State) : (portBit v s).dec = s.dec := rfl
@[simp] theorem portBit_tar (v : Bool) (s : State) : (portBit v s).tar = s.tar := rfl
@[simp] theorem portBit_launch (v : Bool) (s : State) : (portBit v s).launch = s.launch := rfl
@[simp] theorem portBit_blob (v : Bool) (s : State) : (portBit v s).blob = s.blob := rfl
@[simp] theorem portBit_out (v : Bool) (s : State) : (portBit v s).out = s.out := rfl
@[simp] theorem portBit_sink (v : Bool) (s : State) : (portBit v s).sink = s.sink := rfl
@[simp] theorem portBit_cmds (v : Bool) (s : State) : (portBit v s).cmds = s.cmds := rfl
@[simp] theorem portBit_free (v : Bool) (s : State) : (portBit v s).free = s.free := rfl

@[simp] theorem portByte_rc (v : Byte) (s : State) : (portByte v s).rc = s.rc := rfl
@[simp] theorem portByte_prob (v : Byte) (s : State) : (portByte v s).prob = s.prob := rfl
@[simp] theorem portByte_demux (v : Byte) (s : State) : (portByte v s).demux = s.demux := rfl
@[simp] theorem portByte_dec (v : Byte) (s : State) : (portByte v s).dec = s.dec := rfl
@[simp] theorem portByte_tar (v : Byte) (s : State) : (portByte v s).tar = s.tar := rfl
@[simp] theorem portByte_launch (v : Byte) (s : State) : (portByte v s).launch = s.launch := rfl
@[simp] theorem portByte_blob (v : Byte) (s : State) : (portByte v s).blob = s.blob := rfl
@[simp] theorem portByte_out (v : Byte) (s : State) : (portByte v s).out = s.out := rfl
@[simp] theorem portByte_sink (v : Byte) (s : State) : (portByte v s).sink = s.sink := rfl
@[simp] theorem portByte_cmds (v : Byte) (s : State) : (portByte v s).cmds = s.cmds := rfl
@[simp] theorem portByte_free (v : Byte) (s : State) : (portByte v s).free = s.free := rfl

@[simp] theorem portWord_rc (v : Word) (s : State) : (portWord v s).rc = s.rc := rfl
@[simp] theorem portWord_prob (v : Word) (s : State) : (portWord v s).prob = s.prob := rfl
@[simp] theorem portWord_demux (v : Word) (s : State) : (portWord v s).demux = s.demux := rfl
@[simp] theorem portWord_dec (v : Word) (s : State) : (portWord v s).dec = s.dec := rfl
@[simp] theorem portWord_tar (v : Word) (s : State) : (portWord v s).tar = s.tar := rfl
@[simp] theorem portWord_launch (v : Word) (s : State) : (portWord v s).launch = s.launch := rfl
@[simp] theorem portWord_blob (v : Word) (s : State) : (portWord v s).blob = s.blob := rfl
@[simp] theorem portWord_out (v : Word) (s : State) : (portWord v s).out = s.out := rfl
@[simp] theorem portWord_sink (v : Word) (s : State) : (portWord v s).sink = s.sink := rfl
@[simp] theorem portWord_cmds (v : Word) (s : State) : (portWord v s).cmds = s.cmds := rfl
@[simp] theorem portWord_free (v : Word) (s : State) : (portWord v s).free = s.free := rfl

@[simp] theorem placeBlob_rc (bytes : List Byte) (s : State) : (placeBlob bytes s).rc = s.rc := rfl
@[simp] theorem placeBlob_prob (bytes : List Byte) (s : State) : (placeBlob bytes s).prob = s.prob := rfl
@[simp] theorem placeBlob_demux (bytes : List Byte) (s : State) : (placeBlob bytes s).demux = s.demux := rfl
@[simp] theorem placeBlob_dec (bytes : List Byte) (s : State) : (placeBlob bytes s).dec = s.dec := rfl
@[simp] theorem placeBlob_tar (bytes : List Byte) (s : State) : (placeBlob bytes s).tar = s.tar := rfl
@[simp] theorem placeBlob_launch (bytes : List Byte) (s : State) : (placeBlob bytes s).launch = s.launch := rfl
@[simp] theorem placeBlob_out (bytes : List Byte) (s : State) : (placeBlob bytes s).out = s.out := rfl
@[simp] theorem placeBlob_sink (bytes : List Byte) (s : State) : (placeBlob bytes s).sink = s.sink := rfl
@[simp] theorem placeBlob_ports (bytes : List Byte) (s : State) : (placeBlob bytes s).ports = s.ports := rfl
@[simp] theorem placeBlob_cmds (bytes : List Byte) (s : State) : (placeBlob bytes s).cmds = s.cmds := rfl
@[simp] theorem placeBlob_free (bytes : List Byte) (s : State) : (placeBlob bytes s).free = s.free := rfl
@[simp] theorem placeBlob_blob (bytes : List Byte) (s : State) : (placeBlob bytes s).blob = { cells := Memory.ofBytes 0 bytes, size := bytes.length } := rfl

@[simp] theorem loadDescriptor_rc (h : List Byte) (s : State) : (loadDescriptor h s).rc = s.rc := rfl
@[simp] theorem loadDescriptor_prob (h : List Byte) (s : State) : (loadDescriptor h s).prob = s.prob := rfl
@[simp] theorem loadDescriptor_demux (h : List Byte) (s : State) : (loadDescriptor h s).demux = s.demux := rfl
@[simp] theorem loadDescriptor_dec (h : List Byte) (s : State) : (loadDescriptor h s).dec = s.dec := rfl
@[simp] theorem loadDescriptor_tar (h : List Byte) (s : State) : (loadDescriptor h s).tar = s.tar := rfl
@[simp] theorem loadDescriptor_blob (h : List Byte) (s : State) : (loadDescriptor h s).blob = s.blob := rfl
@[simp] theorem loadDescriptor_out (h : List Byte) (s : State) : (loadDescriptor h s).out = s.out := rfl
@[simp] theorem loadDescriptor_sink (h : List Byte) (s : State) : (loadDescriptor h s).sink = s.sink := rfl
@[simp] theorem loadDescriptor_ports (h : List Byte) (s : State) : (loadDescriptor h s).ports = s.ports := rfl
@[simp] theorem loadDescriptor_cmds (h : List Byte) (s : State) : (loadDescriptor h s).cmds = s.cmds := rfl
@[simp] theorem loadDescriptor_free (h : List Byte) (s : State) : (loadDescriptor h s).free = s.free := rfl

@[simp] theorem raiseHeaderTooSmall_rc (s : State) : (raiseHeaderTooSmall s).rc = s.rc := rfl
@[simp] theorem raiseHeaderTooSmall_prob (s : State) : (raiseHeaderTooSmall s).prob = s.prob := rfl
@[simp] theorem raiseHeaderTooSmall_demux (s : State) : (raiseHeaderTooSmall s).demux = s.demux := rfl
@[simp] theorem raiseHeaderTooSmall_dec (s : State) : (raiseHeaderTooSmall s).dec = s.dec := rfl
@[simp] theorem raiseHeaderTooSmall_tar (s : State) : (raiseHeaderTooSmall s).tar = s.tar := rfl
@[simp] theorem raiseHeaderTooSmall_blob (s : State) : (raiseHeaderTooSmall s).blob = s.blob := rfl
@[simp] theorem raiseHeaderTooSmall_out (s : State) : (raiseHeaderTooSmall s).out = s.out := rfl
@[simp] theorem raiseHeaderTooSmall_sink (s : State) : (raiseHeaderTooSmall s).sink = s.sink := rfl
@[simp] theorem raiseHeaderTooSmall_ports (s : State) : (raiseHeaderTooSmall s).ports = s.ports := rfl
@[simp] theorem raiseHeaderTooSmall_free (s : State) : (raiseHeaderTooSmall s).free = s.free := rfl

end Sys2Proof.Machine
end

