-- ==== Sys2Proof/Laws/Ops.lean ====
section
/-! SUPPORT. What the shared operations can do: sequencing, the phase gates, the cursors, the output, and a triple for operations. -/

namespace Sys2Proof.Machine

/-! ## Sequencing -/

@[simp] theorem Res.bind_ok {α β : Type} (a : α) (s : State) (k : α → State → Res β) : (Res.ok a s).bind k = k a s := rfl

@[simp] theorem Res.bind_ended {α β : Type} (s : State) (k : α → State → Res β) :
    (Res.ended s : Res α).bind k = .ended s := rfl

@[simp] theorem Res.bind_fault {α β : Type} (f : Fault) (k : α → State → Res β) :
    (Res.fault f : Res α).bind k = .fault f := rfl

@[simp] theorem Res.done_ok (u : Unit) (s : State) : (Res.ok u s).done = .next s := rfl

@[simp] theorem Res.done_ended (s : State) : (Res.ended s).done = .next s := rfl

@[simp] theorem Res.done_fault (f : Fault) : (Res.fault f).done = .fault f := rfl

@[simp] theorem Res.outcome_ok {α : Type} (a : α) (s : State) (g : α → State → State) :
    (Res.ok a s).outcome g = .next (g a s) := rfl

@[simp] theorem Res.outcome_ended {α : Type} (s : State) (g : α → State → State) :
    (Res.ended s : Res α).outcome g = .next s := rfl

@[simp] theorem Res.outcome_fault {α : Type} (f : Fault) (g : α → State → State) :
    (Res.fault f : Res α).outcome g = .fault f := rfl

/-- An operation that answers a next state returned there or ended there. -/
theorem Res.outcome_next {α : Type} {r : Res α} {g : α → State → State} {t : State} (h : r.outcome g = .next t) :
    (∃ a u, r = .ok a u ∧ t = g a u) ∨ r = .ended t := by
  cases r with
  | ok a u => exact .inl ⟨a, u, rfl, by simpa using h.symm⟩
  | ended u => exact .inr (by simpa using h)
  | fault f => simp at h

/-- What each ending of an operation satisfies, and that it does not fault. -/
def Res.Holds {α : Type} (P : α → State → Prop) (Q : State → Prop) : Res α → Prop
  | .ok a s => P a s
  | .ended s => Q s
  | .fault _ => False

/-- The rule of sequencing. -/
theorem Res.Holds.bind {α β : Type} {P : α → State → Prop} {P' : β → State → Prop} {Q : State → Prop} {r : Res α}
    {k : α → State → Res β} (h : r.Holds P Q) (hk : ∀ a s, P a s → (k a s).Holds P' Q) : (r.bind k).Holds P' Q := by
  cases r with
  | ok a s => exact hk a s h
  | ended s => exact h
  | fault f => exact h

theorem Res.Holds.imp {α : Type} {P P' : α → State → Prop} {Q Q' : State → Prop} {r : Res α}
    (h : r.Holds P Q) (hP : ∀ a s, P a s → P' a s) (hQ : ∀ s, Q s → Q' s) : r.Holds P' Q' := by
  cases r with
  | ok a s => exact hP a s h
  | ended s => exact hQ s h
  | fault f => exact h

/-- A relation that every ending satisfies holds of the answered state; faults are left open. -/
def Res.Rel {α : Type} (R : State → Prop) : Res α → Prop
  | .ok _ s => R s
  | .ended s => R s
  | .fault _ => True

theorem Res.Rel.bind {α β : Type} {R : State → Prop} {r : Res α} {k : α → State → Res β}
    (h : r.Rel R) (hk : ∀ a s, R s → (k a s).Rel R) : (r.bind k).Rel R := by
  cases r with
  | ok a s => exact hk a s h
  | ended s => exact h
  | fault f => trivial

theorem Res.Rel.next {α : Type} {R : State → Prop} {r : Res α} {g : α → State → State} {t : State}
    (h : r.Rel R) (hg : ∀ a s, R s → R (g a s)) (ht : r.outcome g = .next t) : R t := by
  rcases Res.outcome_next ht with ⟨a, u, rfl, rfl⟩ | rfl
  · exact hg a u h
  · exact h

/-! ## Phase gates -/

@[simp] theorem inSession_run {s : State} (h : s.dec.phase = .run) (o : Out) : inSession s o = o := by
  simp [inSession, h]

theorem inSession_other {s : State} (h : s.dec.phase ≠ .run) (o : Out) : inSession s o = .next s := by
  simp [inSession, h]

@[simp] theorem inExtraction_done {s : State} (h : s.dec.phase = .done) (o : Out) : inExtraction s o = o := by
  simp [inExtraction, h]

theorem inExtraction_other {s : State} (h : s.dec.phase ≠ .done) (o : Out) : inExtraction s o = .next s := by
  simp [inExtraction, h]

/-- A session operation answers what it does in `Run`, or leaves the state alone. -/
theorem inSession_next {s t : State} {o : Out} (h : inSession s o = .next t) :
    (s.dec.phase = .run ∧ o = .next t) ∨ (s.dec.phase ≠ .run ∧ t = s) := by
  unfold inSession at h
  split at h
  · exact .inl ⟨‹_›, h⟩
  · exact .inr ⟨‹_›, by simpa using h.symm⟩

/-- An extractor operation answers what it does in `Done`, or leaves the state alone. -/
theorem inExtraction_next {s t : State} {o : Out} (h : inExtraction s o = .next t) :
    (s.dec.phase = .done ∧ o = .next t) ∨ (s.dec.phase ≠ .done ∧ t = s) := by
  unfold inExtraction at h
  split at h
  · exact .inl ⟨‹_›, h⟩
  · exact .inr ⟨‹_›, by simpa using h.symm⟩

/-! ## Cursors -/

/-- A byte the stream offers is in the window and in BLOB. -/
theorem streamByte_some {s : State} {k : StreamIx} {i : Nat} {v : Byte} (h : streamByte s k i = some v) :
    s.demux.pos[k] + i < s.demux.len[k] ∧ blobByte s (cursorAddress s k + i) = .ok v := by
  unfold streamByte at h
  split at h
  · rename_i hc
    exact ⟨hc.1, by simp [blobByte, hc.2, h]⟩
  · cases h

theorem curFetch_of_byte {s : State} {k : StreamIx} {v : Byte} (h : streamByte s k 0 = some v) :
    curFetch k s = .ok v s := by
  obtain ⟨hlt, hb⟩ := streamByte_some h
  have : ¬ s.demux.pos[k] ≥ s.demux.len[k] := by omega
  simp only [curFetch, if_neg this]
  rw [Nat.add_zero] at hb
  simp [hb, readOp]

theorem curRead1_of_byte {s : State} {k : StreamIx} {v : Byte} (h : streamByte s k 0 = some v) :
    curRead1 k s = .ok v (advance k 1 s) := by
  obtain ⟨hlt, hb⟩ := streamByte_some h
  have : ¬ s.demux.pos[k] ≥ s.demux.len[k] := by omega
  simp only [curRead1, if_neg this]
  rw [Nat.add_zero] at hb
  simp [hb, readOp]

theorem curFetch_exhausted {s : State} {k : StreamIx} (h : s.demux.len[k] ≤ s.demux.pos[k]) :
    curFetch k s = .ended (raiseExhausted k s) := by
  exact if_pos h

theorem curRead1_exhausted {s : State} {k : StreamIx} (h : s.demux.len[k] ≤ s.demux.pos[k]) :
    curRead1 k s = .ended (raiseExhausted k s) := by
  exact if_pos h

theorem curRead4be_of_word {s : State} {k : StreamIx} {a0 a1 a2 a3 : Byte} (h : streamWord s k a0 a1 a2 a3) :
    curRead4be k s = .ok (be32 [a0, a1, a2, a3]) (advance k 4 s) := by
  obtain ⟨h0, h1, h2, h3⟩ := h
  have b0 := (streamByte_some h0).2
  have b1 := (streamByte_some h1).2
  have b2 := (streamByte_some h2).2
  obtain ⟨hlt, b3⟩ := streamByte_some h3
  have hrem : ¬ rem s k < 4 := by unfold rem; omega
  have hrun : readRun (blobByte s) (cursorAddress s k) 4 = .ok [a0, a1, a2, a3] :=
    readRun_ok rfl fun i hi => by
      match i, hi with
      | 0, _ => exact b0
      | 1, _ => exact b1
      | 2, _ => exact b2
      | 3, _ => exact b3
  simp [curRead4be, hrem, hrun, readOp]

theorem curRead4be_exhausted {s : State} {k : StreamIx} (h : s.demux.len[k] < s.demux.pos[k] + 4) :
    curRead4be k s = .ended (raiseExhausted k s) := by
  have : rem s k < 4 := by unfold rem; omega
  simp [curRead4be, this]

/-- Every ending of a cursor read: the state it answers is the old one, the old one with the cursor moved, or the entry of
StreamExhausted. -/
theorem curRead1_rel {s : State} {k : StreamIx} {R : State → Prop} (h1 : R (advance k 1 s)) (h2 : R (raiseExhausted k s)) :
    (curRead1 k s).Rel R := by
  unfold curRead1
  split
  · exact h2
  · unfold readOp
    split <;> first | exact h1 | trivial

theorem curFetch_rel {s : State} {k : StreamIx} {R : State → Prop} (h1 : R s) (h2 : R (raiseExhausted k s)) :
    (curFetch k s).Rel R := by
  unfold curFetch
  split
  · exact h2
  · unfold readOp
    split <;> first | exact h1 | trivial

theorem curRead4be_rel {s : State} {k : StreamIx} {R : State → Prop} (h1 : R (advance k 4 s)) (h2 : R (raiseExhausted k s)) :
    (curRead4be k s).Rel R := by
  unfold curRead4be
  split
  · exact h2
  · unfold readOp
    split <;> first | exact h1 | trivial

theorem readOp_rel {α : Type} {r : Except Fault α} {s : State} {R : State → Prop} (h : R s) : (readOp r s).Rel R := by
  unfold readOp
  split <;> first | exact h | trivial

/-- The cursor of stream `k` after a read. -/
theorem advance_pos_same (k : StreamIx) (n : Nat) (s : State) : (advance k n s).demux.pos[k] = s.demux.pos[k] + n := by
  simp

/-- The other cursors after a read. -/
theorem advance_pos_other {k l : StreamIx} (h : l ≠ k) (n : Nat) (s : State) :
    (advance k n s).demux.pos[l] = s.demux.pos[l] := by
  have : (k : Nat) ≠ l := fun e => h (Fin.ext e.symm)
  simp [this]

/-- What a stream offers depends on the windows, the cursors and BLOB alone (R37). -/
theorem streamByte_congr {s t : State} (hd : t.demux = s.demux) (hb : t.blob = s.blob) (k : StreamIx) (i : Nat) :
    streamByte t k i = streamByte s k i := by
  unfold streamByte cursorAddress
  rw [hd, hb]

theorem streamWord_congr {s t : State} (hd : t.demux = s.demux) (hb : t.blob = s.blob) (k : StreamIx) (a0 a1 a2 a3 : Byte) :
    streamWord t k a0 a1 a2 a3 ↔ streamWord s k a0 a1 a2 a3 := by
  simp only [streamWord, streamByte_congr hd hb]

/-- What a stream offers after its cursor has moved. -/
theorem streamByte_advance (k : StreamIx) (n i : Nat) (s : State) :
    streamByte (advance k n s) k i = streamByte s k (n + i) := by
  have hp := advance_pos_same k n s
  have ha : cursorAddress (advance k n s) k + i = cursorAddress s k + (n + i) := by
    show s.demux.base[k] + (advance k n s).demux.pos[k] + i = s.demux.base[k] + s.demux.pos[k] + (n + i)
    omega
  have hi : (advance k n s).demux.pos[k] + i = s.demux.pos[k] + (n + i) := by omega
  unfold streamByte
  rw [ha, hi]
  rfl

/-- Moving one cursor does not change what the other streams offer. -/
theorem streamByte_advance_other {k l : StreamIx} (h : l ≠ k) (n i : Nat) (s : State) :
    streamByte (advance k n s) l i = streamByte s l i := by
  have hp := advance_pos_other h n s
  have ha : cursorAddress (advance k n s) l = cursorAddress s l := by
    show s.demux.base[l] + (advance k n s).demux.pos[l] = s.demux.base[l] + s.demux.pos[l]
    omega
  unfold streamByte
  rw [ha, hp]
  rfl

/-! ## Output -/

/-- The state after a byte has been emitted. -/
def emitted (v : Byte) (s : State) : State :=
  { s with out := s.out.write s.dec.outPos.toNat v, dec := { s.dec with outPos := s.dec.outPos + 1 } }

theorem outEmit_ok {s : State} (v : Byte) (h : s.dec.outPos.toNat < s.dec.originalSize.toNat) :
    outEmit v s = .ok () (emitted v s) := by
  simp [outEmit, BitVec.ult, h, emitted]

theorem outEmit_rel {s : State} {v : Byte} {R : State → Prop} (h : R (emitted v s)) : (outEmit v s).Rel R := by
  unfold outEmit
  split
  · exact h
  · trivial

/-- `out_pos` steps by one without wrapping while there is room. -/
theorem outPos_succ {s : State} (h : s.dec.outPos.toNat < s.dec.originalSize.toNat) :
    (s.dec.outPos + 1).toNat = s.dec.outPos.toNat + 1 := by
  have := s.dec.originalSize.isLt
  simp [BitVec.toNat_add]
  omega

theorem outFull_iff (s : State) : outFull s = true ↔ s.dec.outPos = s.dec.originalSize := by
  simp [outFull]

end Sys2Proof.Machine
end

