-- ==== Sys2Proof/Laws/Demux.lean ====
section
/-! SUPPORT. The windows of a descriptor in exact sums (R65, R156). -/

namespace Sys2Proof.Machine

theorem size_toList (d : Descriptor) : d.size.toList = [d.size[0], d.size[1], d.size[2], d.size[3]] := by
  apply List.ext_getElem
  · simp
  · intro i h1 h2
    have h : i < 4 := by simpa using h1
    interval_cases i <;> rfl

/-- The exact sums of R65. -/
theorem windowStart_eq (d : Descriptor) (k : Fin 5) : windowStart d k = declaredStart d k := by
  unfold windowStart
  rw [size_toList]
  match k with
  | 0 => rfl
  | 1 => rfl
  | 2 => exact (Nat.add_assoc _ _ _).symm
  | 3 => simp [declaredStart, Config.headerBytes, Nat.add_assoc]
  | 4 => simp [declaredStart, Config.headerBytes, Nat.add_assoc]

theorem declaredStart_succ (d : Descriptor) (k : StreamIx) :
    declaredStart d k.succ = declaredStart d k.castSucc + d.size[k].toNat := by
  match k with
  | 0 => rfl
  | 1 => rfl
  | 2 => rfl
  | 3 => rfl

theorem declaredStart_mono (d : Descriptor) {k l : Fin 5} (h : k ≤ l) : declaredStart d k ≤ declaredStart d l :=
  Fin.monotone_iff_le_succ.2 (fun i => by rw [declaredStart_succ]; omega) h

theorem windows_base (d : Descriptor) (n : Nat) (k : StreamIx) :
    (windows d n).base[k] = min (declaredStart d k.castSucc) n := by
  rw [← windowStart_eq]
  match k with
  | 0 => rfl
  | 1 => rfl
  | 2 => rfl
  | 3 => rfl

theorem windows_len (d : Descriptor) (n : Nat) (k : StreamIx) :
    (windows d n).len[k] = min (declaredStart d k.succ) n - (windows d n).base[k] := by
  rw [windows_base, ← windowStart_eq, ← windowStart_eq]
  match k with
  | 0 => rfl
  | 1 => rfl
  | 2 => rfl
  | 3 => rfl

theorem windows_pos (d : Descriptor) (n : Nat) (k : StreamIx) : (windows d n).pos[k] = 0 := by
  match k with
  | 0 => rfl
  | 1 => rfl
  | 2 => rfl
  | 3 => rfl

/-- Each window lies in BLOB (R70). -/
theorem windows_end (d : Descriptor) (n : Nat) (k : StreamIx) :
    (windows d n).base[k] + (windows d n).len[k] = min (declaredStart d k.succ) n := by
  rw [windows_len, windows_base]
  have := declaredStart_succ d k
  omega

end Sys2Proof.Machine
end

