-- ==== Sys2Proof/Laws/RangeDecoder.lean ====
section
/-! SUPPORT. The arithmetic of the range decoder in exact numbers, the normalisation loop unfolded once, and the decision. -/

namespace Sys2Proof.Machine

/-! ## Arithmetic -/

/-- The exact product stays below 2^32 (R126). -/
theorem bound_lt (s : State) (p : Prob) : s.rc.range.toNat / 2048 * p.toNat ≤ 0xFFDFF801 := by
  have hr := s.rc.range.isLt
  have hp := p.isLt
  have h1 : s.rc.range.toNat / 2048 ≤ 2097151 := by omega
  have h2 : p.toNat ≤ 2047 := by omega
  exact Nat.mul_le_mul h1 h2

/-- `bound` is the exact product: the reduction modulo 2^32 is the identity (R126). -/
theorem bound_toNat (s : State) (p : Prob) : (bound s p).toNat = s.rc.range.toNat / 2048 * p.toNat := by
  have h := bound_lt s p
  simp only [bound, Config.probBits, BitVec.toNat_ofNat]
  norm_num
  omega

/-- `bound` never exceeds the part of `range` it is taken from (R126). -/
theorem bound_le_range (s : State) (p : Prob) : s.rc.range.toNat / 2048 * p.toNat ≤ s.rc.range.toNat := by
  have hp := p.isLt
  have h1 : s.rc.range.toNat / 2048 * p.toNat ≤ s.rc.range.toNat / 2048 * 2048 := Nat.mul_le_mul_left _ (by omega)
  omega

theorem lt_iff (s : State) (p : Prob) : lt s p = true ↔ s.rc.code.toNat < s.rc.range.toNat / 2048 * p.toNat := by
  simp [lt, BitVec.ult, bound_toNat]

theorem needNorm_iff (s : State) : needNorm s = true ↔ s.rc.range.toNat < 2 ^ 24 := by
  simp [needNorm, BitVec.ult, Config.top]

/-- `u32((code << 8) | v)` as a number. -/
theorem shiftIn_toNat (c : Word) (v : Byte) : (shiftIn c v).toNat = (c.toNat * 256 + v.toNat) % 2 ^ 32 := by
  have h1 : v.toNat < 2 ^ 8 := v.isLt
  have hv : (v.setWidth 32).toNat = v.toNat := by
    rw [BitVec.toNat_setWidth]
    exact Nat.mod_eq_of_lt (by omega)
  have hc : (c <<< 8).toNat = 2 ^ 8 * (c.toNat % 2 ^ 24) := by
    rw [BitVec.toNat_shiftLeft, Nat.shiftLeft_eq]
    omega
  rw [shiftIn, BitVec.toNat_or, hv, hc, ← Nat.two_pow_add_eq_or_of_lt h1]
  omega

theorem shiftIn_eq (c : Word) (v : Byte) : shiftIn c v = BitVec.ofNat 32 (c.toNat * 256 + v.toNat) := by
  apply BitVec.eq_of_toNat_eq
  rw [shiftIn_toNat, BitVec.toNat_ofNat]

/-- `range << 8` loses no bit below 2^24 (R126). -/
theorem shift_range_toNat {r : Word} (h : r.toNat < 2 ^ 24) : (r <<< 8).toNat = r.toNat * 256 := by
  rw [BitVec.toNat_shiftLeft, Nat.shiftLeft_eq]
  omega

theorem probUpValue_toNat (p : Prob) : (probUpValue p).toNat = p.toNat + (2048 - p.toNat) / 32 := by
  have hp := p.isLt
  simp only [probUpValue, Config.probOne, Config.moveBits, BitVec.toNat_ofNat]
  omega

theorem probDownValue_toNat (p : Prob) : (probDownValue p).toNat = p.toNat - p.toNat / 32 := by
  have hp := p.isLt
  simp only [probDownValue, Config.moveBits, BitVec.toNat_ofNat]
  omega

/-- Both updates keep a slot in 31..2017 (R144). -/
theorem probUpValue_reach {p : Prob} (h1 : 31 ≤ p.toNat) (h2 : p.toNat ≤ 2017) :
    31 ≤ (probUpValue p).toNat ∧ (probUpValue p).toNat ≤ 2017 := by
  rw [probUpValue_toNat]
  omega

theorem probDownValue_reach {p : Prob} (h1 : 31 ≤ p.toNat) (h2 : p.toNat ≤ 2017) :
    31 ≤ (probDownValue p).toNat ∧ (probDownValue p).toNat ≤ 2017 := by
  rw [probDownValue_toNat]
  omega

/-- A slot other than the one written keeps its value. -/
theorem prob_set_other {s : State} {slot i : Slot} (h : i ≠ slot) (v : Prob) : (s.prob.set slot v)[i] = s.prob[i] := by
  have : (slot : Nat) ≠ i := fun e => h (Fin.ext e.symm)
  simp [this]

/-! ## The normalisation loop (R124) -/

/-- One round of the loop with the byte `v`. -/
def normShift (v : Byte) (s : State) : State :=
  setRc (s.rc.range <<< 8) (shiftIn s.rc.code v) (advance 3 1 s)

theorem rcNormalize_of_ge {s : State} (h : 2 ^ 24 ≤ s.rc.range.toNat) : rcNormalize s = .ok () s := by
  have hn : needNorm s = false := by rw [← Bool.not_eq_true, needNorm_iff]; omega
  unfold rcNormalize
  cases rem s 3 <;> simp [normLoop, hn]

theorem rcNormalize_dry {s : State} (h : s.rc.range.toNat < 2 ^ 24) (hd : s.demux.len[3] ≤ s.demux.pos[3]) :
    rcNormalize s = .ended (raiseExhausted 3 s) := by
  have hn : needNorm s = true := (needNorm_iff s).2 h
  have hr : rem s 3 = 0 := by
    show s.demux.len[3] - s.demux.pos[3] = 0
    omega
  simp [rcNormalize, hr, normLoop, hn]

theorem rem_normShift (v : Byte) (s : State) : rem (normShift v s) 3 = rem s 3 - 1 := by
  show s.demux.len[3] - (advance 3 1 s).demux.pos[(3 : StreamIx)] = s.demux.len[3] - s.demux.pos[3] - 1
  rw [advance_pos_same]
  show s.demux.len[3] - (s.demux.pos[3] + 1) = _
  omega

theorem rcNormalize_step {s : State} {v : Byte} (h : s.rc.range.toNat < 2 ^ 24) (hv : streamByte s 3 0 = some v) :
    rcNormalize s = rcNormalize (normShift v s) := by
  have hn : needNorm s = true := (needNorm_iff s).2 h
  obtain ⟨hlt, -⟩ := streamByte_some hv
  have hlt' : s.demux.pos[3] + 0 < s.demux.len[3] := hlt
  have hr : rem s 3 = rem (normShift v s) 3 + 1 := by
    rw [rem_normShift]
    show s.demux.len[3] - s.demux.pos[3] = s.demux.len[3] - s.demux.pos[3] - 1 + 1
    omega
  unfold rcNormalize
  rw [hr]
  simp only [normLoop, hn, if_true, curRead1_of_byte hv, Res.bind_ok]
  rfl

/-- From `range ≥ 2^16` one byte is enough (R127). -/
theorem rcNormalize_one {s : State} {v : Byte} (h1 : 2 ^ 16 ≤ s.rc.range.toNat) (h2 : s.rc.range.toNat < 2 ^ 24)
    (hv : streamByte s 3 0 = some v) : rcNormalize s = .ok () (normShift v s) := by
  rw [rcNormalize_step h2 hv]
  apply rcNormalize_of_ge
  show 2 ^ 24 ≤ (s.rc.range <<< 8).toNat
  rw [shift_range_toNat h2]
  omega

/-- The rule of the loop: a relation kept by one round and by the entry of StreamExhausted holds of its ending. -/
theorem rcNormalize_rel {R : State → Prop} {s : State} (h : R s) (hs : ∀ u v, R u → R (normShift v u))
    (he : ∀ u, R u → R (raiseExhausted 3 u)) : (rcNormalize s).Rel R := by
  unfold rcNormalize
  generalize rem s 3 = n
  induction n generalizing s with
  | zero =>
    simp only [normLoop]
    split
    · exact he s h
    · exact h
  | succ n ih =>
    simp only [normLoop]
    split
    · unfold curRead1
      split
      · exact he s h
      · unfold readOp
        split
        · rename_i v _
          exact ih (hs s v h)
        · trivial
    · exact h

/-! ## The seed (R120) -/

theorem seedLoop_step {s : State} {v : Byte} {n : Nat} (h : streamByte s 3 0 = some v) :
    seedLoop (n + 1) s = seedLoop n (setRc s.rc.range (shiftIn s.rc.code v) (advance 3 1 s)) := by
  simp only [seedLoop, curRead1_of_byte h, Res.bind_ok]
  rfl

theorem streamByte_setRc (r c : Word) (s : State) (k : StreamIx) (i : Nat) :
    streamByte (setRc r c s) k i = streamByte s k i := streamByte_congr rfl rfl k i

/-- The five seed bytes are there: what RC_INIT leaves (R120). -/
theorem rcInit_ok {s : State} {s0 s1 s2 s3 s4 : Byte} (h0 : streamByte s 3 0 = some s0) (h1 : streamByte s 3 1 = some s1)
    (h2 : streamByte s 3 2 = some s2) (h3 : streamByte s 3 3 = some s3) (h4 : streamByte s 3 4 = some s4) :
    ∃ code : Word, code.toNat = s1.toNat * 2 ^ 24 + s2.toNat * 2 ^ 16 + s3.toNat * 2 ^ 8 + s4.toNat ∧
      rcInit s = .ok () (setRc 0xFFFFFFFF code (advance 3 5 s)) := by
  refine ⟨shiftIn (shiftIn (shiftIn (shiftIn (shiftIn 0 s0) s1) s2) s3) s4, ?_, ?_⟩
  · simp only [shiftIn_toNat]
    have := s1.isLt
    have := s2.isLt
    have := s3.isLt
    have := s4.isLt
    omega
  · show seedLoop 5 (setRc Config.rangeInit 0 s) = _
    rw [seedLoop_step (v := s0), seedLoop_step (v := s1), seedLoop_step (v := s2), seedLoop_step (v := s3),
      seedLoop_step (v := s4)]
    · simp [seedLoop, setRc, advance, Config.rangeInit, Nat.add_assoc]
    all_goals simpa only [streamByte_setRc, streamByte_advance]

/-! ## The decision (R121 to R123) -/

theorem boundNat_eq (s : State) (slot : Slot) : (bound s s.prob[slot]).toNat = boundNat s slot := bound_toNat s _

theorem lt_eq (s : State) (slot : Slot) : lt s s.prob[slot] = !decidedOne s slot := by
  have h : lt s s.prob[slot] = true ↔ s.rc.code.toNat < boundNat s slot := lt_iff s _
  by_cases hb : boundNat s slot ≤ s.rc.code.toNat
  · have : ¬ lt s s.prob[slot] = true := fun e => absurd (h.1 e) (by omega)
    rw [decidedOne, decide_eq_true hb, Bool.eq_false_iff.2 this, Bool.not_true]
  · rw [decidedOne, decide_eq_false hb, h.2 (by omega), Bool.not_false]

/-- What the decision leaves: the bit, `range`, `code` and the slot. -/
theorem decide1_fst (slot : Slot) (s : State) : (decide1 slot s).1 = decidedOne s slot := by
  unfold decide1
  rw [lt_eq]
  cases decidedOne s slot <;> rfl

theorem decide1_range (slot : Slot) (s : State) : (decide1 slot s).2.rc.range.toNat = decidedRange s slot := by
  have hle : boundNat s slot ≤ s.rc.range.toNat := bound_le_range s _
  have hb := boundNat_eq s slot
  have hr := s.rc.range.isLt
  unfold decide1 decidedRange
  rw [lt_eq]
  cases decidedOne s slot
  · simpa using hb
  · simp only [Bool.not_true, Bool.false_eq_true, if_false, if_true]
    show (s.rc.range - bound s s.prob[slot]).toNat = _
    rw [BitVec.toNat_sub_of_le (by rw [BitVec.le_def, hb]; exact hle), hb]

theorem decide1_code (slot : Slot) (s : State) : (decide1 slot s).2.rc.code.toNat = decidedCode s slot := by
  have hb := boundNat_eq s slot
  have hd : decidedOne s slot = true ↔ boundNat s slot ≤ s.rc.code.toNat := by simp [decidedOne]
  unfold decide1 decidedCode
  rw [lt_eq]
  cases h : decidedOne s slot
  · simp
  · simp only [Bool.not_true, Bool.false_eq_true, if_false, if_true]
    show (s.rc.code - bound s s.prob[slot]).toNat = _
    rw [BitVec.toNat_sub_of_le (by rw [BitVec.le_def, hb]; exact hd.1 h), hb]

theorem decide1_prob (slot : Slot) (s : State) : (decide1 slot s).2.prob[slot].toNat = decidedProb s slot := by
  unfold decide1 decidedProb
  rw [lt_eq]
  cases decidedOne s slot
  · simp [probUpValue_toNat]
  · simp [probDownValue_toNat]

theorem decide1_other {slot i : Slot} (h : i ≠ slot) (s : State) : (decide1 slot s).2.prob[i] = s.prob[i] := by
  unfold decide1
  split <;> exact prob_set_other h _

/-- The decision touches only `range`, `code` and the slots. -/
theorem decide1_eq (slot : Slot) (s : State) :
    (decide1 slot s).2 = { s with rc := (decide1 slot s).2.rc, prob := (decide1 slot s).2.prob } := by
  unfold decide1
  split <;> rfl

end Sys2Proof.Machine
end

