-- ==== Sys2Proof/Laws/Orchestrator.lean ====
section
/-! SUPPORT. What the decoder's shared operations can do: the rounds of EMIT4, the steps of RESOLVE, the patch. -/

namespace Sys2Proof.Machine

/-! ## One emitted byte (R184, R185) -/

/-- The state after one round of EMIT4's loop. -/
def emittedByte (dest : Word) (j : BitVec 2) (s : State) : State :=
  setPrev (destByte dest j) (emitted (destByte dest j) { s with dec := { s.dec with j := j } })

theorem outPos_succ_eq {s : State} (h : s.dec.outPos.toNat < s.dec.originalSize.toNat) :
    s.dec.outPos + 1 = s.dec.originalSize ↔ s.dec.outPos.toNat + 1 = s.dec.originalSize.toNat := by
  rw [← BitVec.toNat_inj, outPos_succ h]

@[simp] theorem emittedByte_rc (dest : Word) (j : BitVec 2) (s : State) : (emittedByte dest j s).rc = s.rc := rfl
@[simp] theorem emittedByte_prob (dest : Word) (j : BitVec 2) (s : State) : (emittedByte dest j s).prob = s.prob := rfl
@[simp] theorem emittedByte_demux (dest : Word) (j : BitVec 2) (s : State) : (emittedByte dest j s).demux = s.demux := rfl
@[simp] theorem emittedByte_tar (dest : Word) (j : BitVec 2) (s : State) : (emittedByte dest j s).tar = s.tar := rfl
@[simp] theorem emittedByte_launch (dest : Word) (j : BitVec 2) (s : State) : (emittedByte dest j s).launch = s.launch := rfl
@[simp] theorem emittedByte_blob (dest : Word) (j : BitVec 2) (s : State) : (emittedByte dest j s).blob = s.blob := rfl
@[simp] theorem emittedByte_sink (dest : Word) (j : BitVec 2) (s : State) : (emittedByte dest j s).sink = s.sink := rfl
@[simp] theorem emittedByte_ports (dest : Word) (j : BitVec 2) (s : State) : (emittedByte dest j s).ports = s.ports := rfl
@[simp] theorem emittedByte_cmds (dest : Word) (j : BitVec 2) (s : State) : (emittedByte dest j s).cmds = s.cmds := rfl
@[simp] theorem emittedByte_free (dest : Word) (j : BitVec 2) (s : State) : (emittedByte dest j s).free = s.free := rfl

/-- A round that leaves room goes on. -/
theorem emitByte_more {s : State} (dest : Word) (j : BitVec 2) (h : s.dec.outPos.toNat + 1 < s.dec.originalSize.toNat) :
    emitByte dest j s = .ok () (emittedByte dest j s) := by
  have hr : s.dec.outPos.toNat < s.dec.originalSize.toNat := by omega
  have hf : outFull (emittedByte dest j s) = false := by
    rw [← Bool.not_eq_true, outFull_iff]
    exact fun e => absurd ((outPos_succ_eq hr).1 e) (by omega)
  unfold emitByte
  rw [outEmit_ok _ (by exact hr), Res.bind_ok]
  exact if_neg (by rw [← emittedByte, hf]; decide)

/-- A round that fills OUT ends the session. -/
theorem emitByte_last {s : State} (dest : Word) (j : BitVec 2) (h : s.dec.outPos.toNat + 1 = s.dec.originalSize.toNat) :
    emitByte dest j s = .ended (finishComplete (emittedByte dest j s)) := by
  have hr : s.dec.outPos.toNat < s.dec.originalSize.toNat := by omega
  have hf : outFull (emittedByte dest j s) = true := (outFull_iff _).2 ((outPos_succ_eq hr).2 h)
  unfold emitByte
  rw [outEmit_ok _ (by exact hr), Res.bind_ok]
  exact if_pos hf

theorem emittedByte_outPos {s : State} (dest : Word) (j : BitVec 2) (h : s.dec.outPos.toNat < s.dec.originalSize.toNat) :
    (emittedByte dest j s).dec.outPos.toNat = s.dec.outPos.toNat + 1 := outPos_succ h

@[simp] theorem emittedByte_originalSize (dest : Word) (j : BitVec 2) (s : State) :
    (emittedByte dest j s).dec.originalSize = s.dec.originalSize := rfl

theorem destByte_eq (dest : Word) (j : BitVec 2) : destByte dest j = BitVec.ofNat 8 (dest.toNat / 2 ^ (8 * j.toNat)) := by
  apply BitVec.eq_of_toNat_eq
  simp [destByte, BitVec.extractLsb'_toNat, Nat.shiftRight_eq_div_pow]

theorem emittedByte_read (dest : Word) (j : BitVec 2) (s : State) (a : Nat) :
    (emittedByte dest j s).out.read a = if a = s.dec.outPos.toNat then some (destByte dest j) else s.out.read a :=
  Memory.read_write _ _ _ _

/-- The state after an opcode byte has been consumed and emitted. -/
def opcodeEmitted (b : Byte) (s : State) : State :=
  emitted b (advance 0 1 { s with dec := { s.dec with resolving := true, b := b } })

theorem resolve_of_byte {s : State} {v : Byte} (b : Byte) (slot : Slot) (k : StreamIx) (hv : streamByte s 0 0 = some v)
    (h : s.dec.outPos.toNat < s.dec.originalSize.toNat) :
    resolve b slot k s = resolveEmitted b slot k (opcodeEmitted b s) := by
  unfold resolve
  rw [curRead1_of_byte (v := v) (by exact hv), Res.bind_ok, outEmit_ok _ (by exact h), Res.bind_ok]
  rfl

theorem opcodeEmitted_full {s : State} (b : Byte) (h : s.dec.outPos.toNat < s.dec.originalSize.toNat) :
    outFull (opcodeEmitted b s) = decide (s.dec.outPos.toNat + 1 = s.dec.originalSize.toNat) := by
  rw [Bool.eq_iff_iff, outFull_iff, decide_eq_true_iff]
  exact outPos_succ_eq h

theorem resolve_last {s : State} {v : Byte} (b : Byte) (slot : Slot) (k : StreamIx) (hv : streamByte s 0 0 = some v)
    (h : s.dec.outPos.toNat + 1 = s.dec.originalSize.toNat) :
    resolve b slot k s = .ended (finishComplete (opcodeEmitted b s)) := by
  rw [resolve_of_byte b slot k hv (by omega), resolveEmitted, opcodeEmitted_full b (by omega), h]
  simp

theorem resolve_more {s : State} {v : Byte} (b : Byte) (slot : Slot) (k : StreamIx) (hv : streamByte s 0 0 = some v)
    (h : s.dec.outPos.toNat + 1 < s.dec.originalSize.toNat) :
    resolve b slot k s = (decodeBit slot (opcodeEmitted b s)).bind fun bit s => resolveBit b k bit s := by
  have hne : s.dec.outPos.toNat + 1 ≠ s.dec.originalSize.toNat := by omega
  rw [resolve_of_byte b slot k hv (by omega), resolveEmitted, opcodeEmitted_full b (by omega), decide_eq_false hne]
  simp

/-- A decision that leaves `range` normalised returns its bit at once. -/
theorem decodeBit_of_ge {s : State} {slot : Slot} (h : 2 ^ 24 ≤ decidedRange s slot) :
    decodeBit slot s = .ok (decidedOne s slot) (decide1 slot s).2 := by
  unfold decodeBit
  rw [rcNormalize_of_ge (by rwa [decide1_range]), Res.bind_ok, decide1_fst]

theorem decide1_demux (slot : Slot) (s : State) : (decide1 slot s).2.demux = s.demux := by rw [decide1_eq]
theorem decide1_dec (slot : Slot) (s : State) : (decide1 slot s).2.dec = s.dec := by rw [decide1_eq]
theorem decide1_out (slot : Slot) (s : State) : (decide1 slot s).2.out = s.out := by rw [decide1_eq]
theorem decide1_blob (slot : Slot) (s : State) : (decide1 slot s).2.blob = s.blob := by rw [decide1_eq]
theorem decide1_ports (slot : Slot) (s : State) : (decide1 slot s).2.ports = s.ports := by rw [decide1_eq]
theorem decide1_frame (slot : Slot) (s : State) : SessionFrame s (decide1 slot s).2 := by
  rw [decide1_eq]
  exact ⟨rfl, rfl, rfl, rfl, rfl, rfl⟩

/-- A decision that must normalise finds stream3 empty. -/
theorem decodeBit_dry {s : State} {slot : Slot} (h : decidedRange s slot < 2 ^ 24) (hd : s.demux.len[3] ≤ s.demux.pos[3]) :
    decodeBit slot s = .ended (raiseExhausted 3 (decide1 slot s).2) := by
  unfold decodeBit
  rw [rcNormalize_dry (by rwa [decide1_range]) (by rw [decide1_demux]; exact hd), Res.bind_ended]

/-- Every candidate instruction resolves what `candidateOf` says. -/
theorem exec_candidate {s : State} {i : Instr} {b : Byte} {slot : Slot} {k : StreamIx} (hp : s.dec.phase = .run)
    (h : candidateOf s i = some (b, slot, k)) : exec i s = (resolve b slot k s).done := by
  cases i <;> simp only [candidateOf, reduceCtorEq, Option.some.injEq, Prod.mk.injEq] at h
  all_goals
    obtain ⟨rfl, rfl, rfl⟩ := h
    exact inSession_run hp _
/-! ## Frames -/

theorem SessionFrame.refl (s : State) : SessionFrame s s := ⟨rfl, rfl, rfl, rfl, rfl, rfl⟩

theorem SessionFrame.trans {s t u : State} (h : SessionFrame s t) (g : SessionFrame t u) : SessionFrame s u :=
  ⟨g.tar.trans h.tar, g.launch.trans h.launch, g.blob.trans h.blob, g.sink.trans h.sink, g.cmds.trans h.cmds,
    g.free.trans h.free⟩

theorem opcodeEmitted_frame (b : Byte) (s : State) : SessionFrame s (opcodeEmitted b s) := ⟨rfl, rfl, rfl, rfl, rfl, rfl⟩

theorem opcodeEmitted_outPos {s : State} (b : Byte) (h : s.dec.outPos.toNat < s.dec.originalSize.toNat) :
    (opcodeEmitted b s).dec.outPos.toNat = s.dec.outPos.toNat + 1 := outPos_succ h

/-- RC_DECODE_BIT's operation where its normalisation settles. -/
theorem decodeBit_settled {s : State} {slot : Slot} {r : Nat × Nat × Nat} (h : settled s slot = some r) :
    ∃ t, decodeBit slot s = .ok (decidedOne s slot) t ∧ DecisionTaken s t slot r ∧ OtherCursorsSame s t [3] ∧
      t.dec = s.dec ∧ t.out = s.out ∧ t.ports = s.ports ∧ SessionFrame s t := by
  unfold settled at h
  split at h
  · rename_i hge
    cases h
    refine ⟨_, decodeBit_of_ge hge, ⟨decide1_range _ _, decide1_code _ _, decide1_prob _ _, fun i hi => decide1_other hi _, ?_⟩,
      ⟨?_, ?_, fun k _ => ?_⟩, decide1_dec _ _, decide1_out _ _, decide1_ports _ _, decide1_frame _ _⟩ <;> rw [decide1_demux]
    rfl
  · split at h
    · rename_i hlt hge
      obtain ⟨v, hv, rfl⟩ := Option.map_eq_some_iff.1 h
      have hr := decide1_range slot s
      have hn : rcNormalize (decide1 slot s).2 = .ok () (normShift v (decide1 slot s).2) :=
        rcNormalize_one (by omega) (by omega) (by rw [streamByte_congr (decide1_demux _ _) (decide1_blob _ _), hv])
      refine ⟨normShift v (decide1 slot s).2, ?_, ⟨?_, ?_, decide1_prob _ _, fun i hi => decide1_other hi _, ?_⟩,
        ⟨?_, ?_, fun k hk => ?_⟩, decide1_dec _ _, decide1_out _ _, decide1_ports _ _,
        (decide1_frame _ _).trans ⟨rfl, rfl, rfl, rfl, rfl, rfl⟩⟩
      · rw [decodeBit, hn, Res.bind_ok, decide1_fst]
      · exact (shift_range_toNat (by omega)).trans (by rw [hr])
      · exact (shiftIn_toNat _ _).trans (by rw [decide1_code])
      · refine (advance_pos_same 3 1 _).trans ?_
        rw [decide1_demux]
        rfl
      · show (decide1 slot s).2.demux.base = _
        rw [decide1_demux]
      · show (decide1 slot s).2.demux.len = _
        rw [decide1_demux]
      · refine (advance_pos_other (by simpa using hk) 1 _).trans ?_
        rw [decide1_demux]
    · cases h

/-! ## Patches (R183, R184) -/

/-- The state after the first `n` bytes of `dest` have been emitted. -/
def emittedRun (dest : Word) : Nat → State → State
  | 0, s => s
  | n + 1, s => emittedByte dest (BitVec.ofNat 2 n) (emittedRun dest n s)

/-- What the first `n` rounds of EMIT4 leave. -/
structure RunWritten (s t : State) (n : Nat) (dest : Word) : Prop where
  outPos : t.dec.outPos.toNat = s.dec.outPos.toNat + n
  read : ∀ a, t.out.read a =
    if a < s.dec.outPos.toNat ∨ s.dec.outPos.toNat + n ≤ a then s.out.read a
    else some (BitVec.ofNat 8 (dest.toNat / 2 ^ (8 * (a - s.dec.outPos.toNat))))
  last : 0 < n → t.dec.prevByte = BitVec.ofNat 8 (dest.toNat / 2 ^ (8 * (n - 1))) ∧ t.dec.j.toNat = n - 1
  dec : t.dec = { s.dec with outPos := t.dec.outPos, prevByte := t.dec.prevByte, j := t.dec.j }
  rest : t = { s with out := t.out, dec := t.dec }

theorem emittedRun_spec (dest : Word) {n : Nat} {s : State} (hn : n ≤ 4)
    (h : s.dec.outPos.toNat + n ≤ s.dec.originalSize.toNat) : RunWritten s (emittedRun dest n s) n dest := by
  induction n with
  | zero => exact ⟨rfl, fun a => by rw [if_pos (by omega)]; rfl, fun e => absurd e (by omega), rfl, rfl⟩
  | succ n ih =>
    obtain ⟨h1, h2, -, h4, h5⟩ := ih (by omega) (by omega)
    rw [emittedRun]
    generalize emittedRun dest n s = u at *
    have ho : u.dec.originalSize = s.dec.originalSize := by rw [h4]
    have hj : (BitVec.ofNat 2 n).toNat = n := by rw [BitVec.toNat_ofNat, Nat.mod_eq_of_lt (by omega)]
    have hb : destByte dest (BitVec.ofNat 2 n) = BitVec.ofNat 8 (dest.toNat / 2 ^ (8 * n)) := by rw [destByte_eq, hj]
    refine ⟨?_, fun a => ?_, fun _ => ⟨hb, hj⟩, ?_, ?_⟩
    · rw [emittedByte_outPos _ _ (by rw [h1, ho]; omega), h1]
      rfl
    · rw [emittedByte_read, h1, h2]
      by_cases ha : a = s.dec.outPos.toNat + n
      · rw [if_pos ha, if_neg (by omega), hb, show a - s.dec.outPos.toNat = n by omega]
      · rw [if_neg ha]
        by_cases hc : a < s.dec.outPos.toNat ∨ s.dec.outPos.toNat + n ≤ a
        · rw [if_pos hc, if_pos (by omega)]
        · rw [if_neg hc, if_neg (by omega)]
    · have e : (emittedByte dest (BitVec.ofNat 2 n) u).dec =
          { u.dec with
            outPos := (emittedByte dest (BitVec.ofNat 2 n) u).dec.outPos
            prevByte := (emittedByte dest (BitVec.ofNat 2 n) u).dec.prevByte
            j := (emittedByte dest (BitVec.ofNat 2 n) u).dec.j } := rfl
      rw [e]
      generalize (emittedByte dest (BitVec.ofNat 2 n) u).dec = d
      rw [h4]
    · have e : emittedByte dest (BitVec.ofNat 2 n) u =
          { u with
            out := (emittedByte dest (BitVec.ofNat 2 n) u).out
            dec := (emittedByte dest (BitVec.ofNat 2 n) u).dec } := rfl
      rw [e]
      generalize (emittedByte dest (BitVec.ofNat 2 n) u).dec = d
      generalize (emittedByte dest (BitVec.ofNat 2 n) u).out = o
      rw [h5]

theorem emittedRun_succ (dest : Word) (n : Nat) (s : State) :
    emittedRun dest (n + 1) s = emittedByte dest (BitVec.ofNat 2 n) (emittedRun dest n s) := rfl

/-- EMIT4 with room for `n` bytes ends the session after them, where `n ≤ 4` bytes fill OUT, and goes on after four where there is more room (R184). -/
theorem emit4_eq (dest : Word) {s : State} {n : Nat} (hr : s.dec.outPos.toNat < s.dec.originalSize.toNat)
    (hn : n = min 4 (s.dec.originalSize.toNat - s.dec.outPos.toNat)) :
    emit4 dest s =
      if s.dec.outPos.toNat + n = s.dec.originalSize.toNat then .ended (finishComplete (emittedRun dest n s))
      else .ok () (emittedRun dest n s) := by
  have more : ∀ m, m < 4 → s.dec.outPos.toNat + m + 1 < s.dec.originalSize.toNat →
      emitByte dest (BitVec.ofNat 2 m) (emittedRun dest m s) = .ok () (emittedRun dest (m + 1) s) := fun m h1 h2 => by
    have hw := emittedRun_spec dest (n := m) (s := s) (by omega) (by omega)
    have ho : (emittedRun dest m s).dec.originalSize = s.dec.originalSize := by rw [hw.dec]
    exact emitByte_more _ _ (by rw [hw.outPos, ho]; omega)
  have last : ∀ m, m < 4 → s.dec.outPos.toNat + m + 1 = s.dec.originalSize.toNat →
      emitByte dest (BitVec.ofNat 2 m) (emittedRun dest m s) = .ended (finishComplete (emittedRun dest (m + 1) s)) :=
    fun m h1 h2 => by
      have hw := emittedRun_spec dest (n := m) (s := s) (by omega) (by omega)
      have ho : (emittedRun dest m s).dec.originalSize = s.dec.originalSize := by rw [hw.dec]
      exact emitByte_last _ _ (by rw [hw.outPos, ho]; omega)
  have hcase : n = 1 ∨ n = 2 ∨ n = 3 ∨ n = 4 := by omega
  unfold emit4
  simp only [emitBytes]
  have z : emittedRun dest 0 s = s := rfl
  have m0 := more 0
  have l0 := last 0
  rw [z] at m0 l0
  rcases hcase with rfl | rfl | rfl | rfl
  · rw [if_pos (by omega)]
    erw [l0 (by omega) (by omega)]
    rfl
  · rw [if_pos (by omega)]
    erw [m0 (by omega) (by omega), Res.bind_ok, last 1 (by omega) (by omega)]
    rfl
  · rw [if_pos (by omega)]
    erw [m0 (by omega) (by omega), Res.bind_ok, more 1 (by omega) (by omega), Res.bind_ok, last 2 (by omega) (by omega)]
    rfl
  · split
    · erw [m0 (by omega) (by omega), Res.bind_ok, more 1 (by omega) (by omega), Res.bind_ok, more 2 (by omega) (by omega),
        Res.bind_ok, last 3 (by omega) (by omega)]
      rfl
    · erw [m0 (by omega) (by omega), Res.bind_ok, more 1 (by omega) (by omega), Res.bind_ok, more 2 (by omega) (by omega),
        Res.bind_ok, more 3 (by omega) (by omega)]
      rfl

/-- What EMIT4 answers: a next state or the end of the session, and what has been written (R184). -/
theorem emit4_spec {dest : Word} {s : State} {n : Nat} (hp : s.dec.phase = .run) (hd : s.dec.dest = dest)
    (hr : s.dec.outPos.toNat < s.dec.originalSize.toNat)
    (hn : n = min 4 (s.dec.originalSize.toNat - s.dec.outPos.toNat)) :
    ∃ t, (emit4 dest s = if s.dec.outPos.toNat + n = s.dec.originalSize.toNat then .ended t else .ok () t) ∧
      PatchWritten s t s.dec.outPos.toNat n dest ∧ OutSameOutside s t s.dec.outPos.toNat n ∧
      (s.dec.outPos.toNat + n ≠ s.dec.originalSize.toNat → t.dec.resolving = s.dec.resolving) ∧ t.dec.b = s.dec.b ∧
      t = { s with out := t.out, dec := t.dec } := by
  have hw := emittedRun_spec dest (n := n) (s := s) (by omega) (by omega)
  have he := emit4_eq dest hr hn
  generalize emittedRun dest n s = u at *
  have bytes : ∀ i, i < n → u.out.read (s.dec.outPos.toNat + i) = some (BitVec.ofNat 8 (dest.toNat / 2 ^ (8 * i))) :=
    fun i hi => by rw [hw.read, if_neg (by omega), Nat.add_sub_cancel_left]
  have same : OutSameOutside s u s.dec.outPos.toNat n := fun x hx => by rw [hw.read, if_pos hx]
  obtain ⟨hl1, hl2⟩ := hw.last (by omega)
  split at he
  · rename_i hf
    refine ⟨finishComplete u, by rw [he, if_pos hf], ⟨bytes, hw.outPos, hl1, hl2, ?_, ?_, fun _ => ⟨rfl, rfl, ?_⟩, fun c => absurd hf c⟩,
      same, fun c => absurd hf c, ?_, ?_⟩
    · rw [finishComplete_dec_dest, hw.dec]
      exact hd
    · rw [finishComplete_dec_originalSize, hw.dec]
    · rw [finishComplete_dec_result]
      congr 1
      apply BitVec.eq_of_toNat_eq
      rw [hw.outPos, hf]
    · rw [finishComplete_dec_b, hw.dec]
    · rw [finishComplete, finish, hw.rest]
  · rename_i hf
    refine ⟨u, by rw [he, if_neg hf], ⟨bytes, hw.outPos, hl1, hl2, ?_, ?_, fun c => absurd c hf, fun _ => ⟨?_, ?_⟩⟩, same, fun _ => ?_, ?_, hw.rest⟩
    · rw [hw.dec]
      exact hd
    · rw [hw.dec]
    · rw [hw.dec]
      exact hp
    · rw [hw.dec]
    · rw [hw.dec]
    · rw [hw.dec]

theorem be32_toNat (a0 a1 a2 a3 : Byte) :
    (be32 [a0, a1, a2, a3]).toNat = a0.toNat * 2 ^ 24 + a1.toNat * 2 ^ 16 + a2.toNat * 2 ^ 8 + a3.toNat := by
  have := a0.isLt
  have := a1.isLt
  have := a2.isLt
  have := a3.isLt
  simp [be32, beNat]
  omega

/-- Rebasing is undone by adding the position after the patch, and by nothing else (R183). -/
theorem rebase_eq_iff {t outPos dest : Word} :
    rebase t outPos = dest ↔ (dest.toNat + outPos.toNat + 4) % 2 ^ 32 = t.toNat := by
  have e : rebase t outPos = dest ↔ dest + (outPos + 4) = t := by
    unfold rebase
    constructor
    · rintro rfl
      exact BitVec.sub_add_cancel _ _
    · rintro rfl
      exact BitVec.add_sub_cancel _ _
  rw [e, ← BitVec.toNat_inj, BitVec.toNat_add, BitVec.toNat_add]
  have h4 : (4 : Word).toNat = 4 := rfl
  rw [h4]
  omega

/-- The state after PATCH has latched `dest`, before it emits. -/
def patchRead (k : StreamIx) (dest : Word) (s : State) : State :=
  { advance k 4 s with dec := { s.dec with dest := dest } }

theorem patchRead_frame (k : StreamIx) (dest : Word) (s : State) : SessionFrame s (patchRead k dest s) :=
  ⟨rfl, rfl, rfl, rfl, rfl, rfl⟩

/-- PATCH with an address word: what is left is EMIT4 of the rebased target. -/
theorem patch_of_word {s : State} {k : StreamIx} {a0 a1 a2 a3 : Byte} (hw : streamWord s k a0 a1 a2 a3) :
    patch k s = emit4 (rebase (be32 [a0, a1, a2, a3]) s.dec.outPos)
      (patchRead k (rebase (be32 [a0, a1, a2, a3]) s.dec.outPos) s) := by
  unfold patch
  rw [curRead4be_of_word hw, Res.bind_ok]
  rfl

theorem patch_exhausted {s : State} {k : StreamIx} (h : s.demux.len[k] < s.demux.pos[k] + 4) :
    patch k s = .ended (raiseExhausted k s) := by
  unfold patch
  rw [curRead4be_exhausted h, Res.bind_ended]

end Sys2Proof.Machine
end

