-- ==== Sys2Proof/Laws/Kept.lean ====
section
/-! SUPPORT. What every instruction keeps: a property that the updates of the state keep is kept by all operations of a session, and one for the
extractor; so an invariant is shown once per update, not once per instruction. -/

namespace Sys2Proof.Machine

/-- A property of states that every update of a session keeps, those of DEMUX_SETUP, PROB_INIT and START apart. -/
structure SessionKept (R : State → Prop) : Prop where
  rc : ∀ s r, R s → R { s with rc := r }
  probUp : ∀ s slot, R s → R (probUp slot s)
  probDown : ∀ s slot, R s → R (probDown slot s)
  advance : ∀ s k n, R s → R (advance k n s)
  emitted : ∀ s v, s.dec.outPos.toNat < s.dec.originalSize.toNat → R s → R (emitted v s)
  latches : ∀ s prev resolving b dest j, R s →
    R { s with dec := { s.dec with prevByte := prev, resolving := resolving, b := b, dest := dest, j := j } }
  finish : ∀ s tag, R s → R (finish tag s)
  ports : ∀ s p, R s → R { s with ports := p }

namespace SessionKept

variable {R : State → Prop} (k : SessionKept R) {s : State}
include k

theorem ofExhausted (i : StreamIx) (h : R s) : R (raiseExhausted i s) := k.finish s _ h

theorem ofRead1 (i : StreamIx) (h : R s) : (curRead1 i s).Rel R := curRead1_rel (k.advance s i 1 h) (k.ofExhausted i h)

theorem ofRead4be (i : StreamIx) (h : R s) : (curRead4be i s).Rel R := curRead4be_rel (k.advance s i 4 h) (k.ofExhausted i h)

theorem ofFetch (i : StreamIx) (h : R s) : (curFetch i s).Rel R := curFetch_rel h (k.ofExhausted i h)

theorem ofSeed (n : Nat) (h : R s) : (seedLoop n s).Rel R := by
  induction n generalizing s with
  | zero => exact h
  | succ n ih => exact (k.ofRead1 3 h).bind fun v t ht => ih (k.rc t _ ht)

theorem ofNormalize (h : R s) : (rcNormalize s).Rel R :=
  rcNormalize_rel h (fun u _ hu => k.rc _ _ (k.advance u 3 1 hu)) fun _ hu => k.ofExhausted 3 hu

theorem ofDecide (slot : Slot) (h : R s) : R (decide1 slot s).2 := by
  unfold decide1
  split
  · exact k.probUp _ slot (k.rc s _ h)
  · exact k.probDown _ slot (k.rc s _ h)

theorem ofDecodeBit (slot : Slot) (h : R s) : (decodeBit slot s).Rel R :=
  (k.ofNormalize (k.ofDecide slot h)).bind fun _ _ ht => ht

theorem ofPrev (v : Byte) (h : R s) : R (setPrev v s) := k.latches s v _ _ _ _ h

theorem ofResolving (r : Bool) (h : R s) : R (setResolving r s) := k.latches s _ r _ _ _ h

theorem ofOutEmit (v : Byte) (h : R s) : (outEmit v s).Rel R := by
  by_cases hr : s.dec.outPos.toNat < s.dec.originalSize.toNat
  · rw [outEmit_ok v hr]
    exact k.emitted s v hr h
  · have : ¬ s.dec.outPos.ult s.dec.originalSize = true := by simpa [BitVec.ult] using hr
    rw [outEmit, if_neg this]
    trivial

theorem ofEmitByte (dest : Word) (j : BitVec 2) (h : R s) : (emitByte dest j s).Rel R := by
  refine (k.ofOutEmit _ (k.latches s _ _ _ _ j h)).bind fun _ t ht => ?_
  have h2 := k.ofPrev (destByte dest j) ht
  dsimp only
  split
  · exact k.finish _ _ h2
  · exact h2

theorem ofEmitBytes (dest : Word) (js : List (BitVec 2)) (h : R s) : (emitBytes dest js s).Rel R := by
  induction js generalizing s with
  | nil => exact h
  | cons j js ih => exact (k.ofEmitByte dest j h).bind fun _ _ ht => ih ht

theorem ofPatch (i : StreamIx) (h : R s) : (patch i s).Rel R :=
  (k.ofRead4be i h).bind fun v t ht => k.ofEmitBytes _ _ (k.latches t _ _ _ (rebase v t.dec.outPos) _ ht)

theorem ofResolve (b : Byte) (slot : Slot) (i : StreamIx) (h : R s) : (resolve b slot i s).Rel R := by
  refine (k.ofRead1 0 (k.latches s _ true b _ _ h)).bind fun _ t ht => (k.ofOutEmit b ht).bind fun _ u hu => ?_
  unfold resolveEmitted
  split
  · exact k.finish _ _ hu
  · refine (k.ofDecodeBit slot hu).bind fun bit w hw => ?_
    unfold resolveBit
    split
    · exact (k.ofPatch i hw).bind fun _ _ hx => k.ofResolving false hx
    · exact k.ofResolving false (k.ofPrev b hw)

theorem ofLiteral (h : R s) : (copyLiteral s).Rel R :=
  (k.ofRead1 0 h).bind fun v _ ht => (k.ofOutEmit v ht).bind fun _ _ hu => k.ofPrev v hu

omit k in
/-- What a session operation answers in `Run`, or the state unchanged. -/
theorem gate {t : State} {α : Type} {r : Res α} {g : α → State → State} (h : R s) (hr : r.Rel R)
    (hg : ∀ a u, R u → R (g a u)) (ht : inSession s (r.outcome g) = .next t) : R t := by
  rcases inSession_next ht with ⟨-, ht⟩ | ⟨-, rfl⟩
  · exact hr.next hg ht
  · exact h

omit k in
theorem ofDone {t : State} {r : Res Unit} (h : R s) (hr : r.Rel R) (ht : inSession s r.done = .next t) : R t :=
  gate h hr (fun _ _ hu => hu) ht

theorem ofMain {t : State} (op : MainOp) (h : R s) (ht : execMain op s = .next t) : R t := by
  cases op with
  | call => exact ofDone h (k.ofResolve _ _ _ h) ht
  | jmp => exact ofDone h (k.ofResolve _ _ _ h) ht
  | jcc c => exact ofDone h (k.ofResolve _ _ _ h) ht
  | lit b => exact ofDone h (k.ofLiteral h) ht

theorem ofStep {t : State} (h : R s) (ht : execStep s = .next t) : R t := by
  rcases inSession_next ht with ⟨-, ht⟩ | ⟨-, rfl⟩
  · unfold mainLoop at ht
    split at ht
    · cases ht
      exact k.finish s _ h
    · have hf := k.ofFetch 0 h
      split at ht
      · rename_i b u hu
        rw [hu] at hf
        exact k.ofMain _ hf ht
      · rename_i u hu
        rw [hu] at hf
        cases ht
        exact hf
      · cases ht
  · exact h

/-- Every session operation but DEMUX_SETUP and PROB_INIT keeps the property. -/
theorem ofExec {t : State} {i : Instr} (hi : Sys2Proof.Machine.ofSession i = true) (h1 : i ≠ .demuxSetup) (h2 : i ≠ .probInit) (h : R s)
    (ht : exec i s = .next t) : R t := by
  cases i with
  | call => exact ofDone h (k.ofResolve _ _ _ h) ht
  | jmp => exact ofDone h (k.ofResolve _ _ _ h) ht
  | jcc c => exact ofDone h (k.ofResolve _ _ _ h) ht
  | lit b => exact ofDone h (k.ofLiteral h) ht
  | step => exact k.ofStep h ht
  | resolve b slot i => exact ofDone h (k.ofResolve _ _ _ h) ht
  | patch b i => exact ofDone h (k.ofPatch _ h) ht
  | emit4 dest => exact ofDone h (k.ofEmitBytes _ _ (k.latches s _ _ _ dest _ h)) ht
  | outEmit v => exact ofDone h (k.ofOutEmit _ h) ht
  | rcInit => exact ofDone h (k.ofSeed _ (k.rc s _ h)) ht
  | rcDecodeBit slot => exact gate h (k.ofDecodeBit slot h) (fun _ u hu => k.ports u _ hu) ht
  | rcNormalize => exact ofDone h (k.ofNormalize h) ht
  | probUp slot =>
    rcases inSession_next ht with ⟨-, ht⟩ | ⟨-, rfl⟩
    · cases ht
      exact k.probUp s slot h
    · exact h
  | probDown slot =>
    rcases inSession_next ht with ⟨-, ht⟩ | ⟨-, rfl⟩
    · cases ht
      exact k.probDown s slot h
    · exact h
  | curFetch i => exact gate h (k.ofFetch i h) (fun _ u hu => k.ports u _ hu) ht
  | curRead1 i => exact gate h (k.ofRead1 i h) (fun _ u hu => k.ports u _ hu) ht
  | curRead4be i => exact gate h (k.ofRead4be i h) (fun _ u hu => k.ports u _ hu) ht
  | demuxSetup => exact absurd rfl h1
  | probInit => exact absurd rfl h2
  | start | loadHeader | tarStartOp | tarStep | tarName | tarSize | tarKind | tarSanitize | tarDir | tarFile | tarAdvance
  | tarMagicEnd | tarMagicUstar | tarMagicGnu | tarMagicOther m | tarTypeDir | tarTypeFile f => cases hi

/-- START keeps the property where the state it seeds has it. -/
theorem ofStart {t : State} (h : R s) (h0 : R (startState s)) (ht : execStart s = .next t) : R t := by
  unfold execStart at ht
  split at ht
  · cases ht
    exact h
  · exact (k.ofSeed _ (k.rc _ _ h0)).next (fun _ _ hu => hu) ht

end SessionKept

/-- A property of states that every update of the extractor keeps. -/
structure ExtractorKept (R : State → Prop) : Prop where
  tar : ∀ s x, R s → R { s with tar := x }
  sink : ∀ s e, R s → R (sinkEvent e s)

namespace ExtractorKept

variable {R : State → Prop} (k : ExtractorKept R) {s : State}
include k

theorem ofMagic (op : MagicOp) (h : R s) : (tarMagic op s).Rel R := by
  cases op with
  | endMark => exact k.tar s _ h
  | ustar => exact h
  | gnu => exact h
  | other m => exact k.tar s _ h

theorem ofSize (h : R s) : (tarSize s).Rel R := by
  unfold tarSize
  split
  · exact k.tar s _ h
  · exact k.tar s _ h

theorem ofType (op : TypeOp) (h : R s) : R (tarType op s) := by
  cases op with
  | dir => exact k.tar s _ h
  | file f => exact k.tar s _ h

theorem ofFile (h : R s) : (tarFile s).Rel R := by
  unfold tarFile
  split
  · exact k.tar s _ h
  · exact (readOp_rel h).bind fun content t ht => k.sink t _ ht

theorem ofTarStep (h : R s) : (tarStep s).Rel R := by
  unfold tarStep
  split
  · exact k.tar s _ h
  · have hh : (tarReadHeader s).Rel R := (readOp_rel h).bind fun bs t ht => k.tar t _ ht
    refine hh.bind fun _ t ht => (k.ofMagic _ ht).bind fun _ u hu => ?_
    refine (k.ofSize (k.tar u _ hu)).bind fun _ v hv => ?_
    have hw : R (tarSanitize (tarKind v)) := k.tar _ _ (k.ofType _ hv)
    refine Res.Rel.bind ?_ fun _ x hx => k.tar _ _ (k.tar _ _ (k.tar _ _ hx))
    unfold tarEmit
    split
    · exact k.sink _ _ hw
    · exact k.ofFile hw

omit k in
/-- What an extractor operation answers in `Done`, or the state unchanged. -/
theorem gate {t : State} {r : Res Unit} (h : R s) (hr : r.Rel R) (ht : inExtraction s r.done = .next t) : R t := by
  rcases inExtraction_next ht with ⟨-, ht⟩ | ⟨-, rfl⟩
  · exact hr.next (fun _ _ hu => hu) ht
  · exact h

omit k in
theorem gateNext {t u : State} (h : R s) (hu : R u) (ht : inExtraction s (.next u) = .next t) : R t :=
  gate (r := .ok () u) h hu ht

/-- Every operation of the extractor keeps the property. -/
theorem ofExec {t : State} {i : Instr} (hi : ofExtractor i = true) (h : R s) (ht : exec i s = .next t) : R t := by
  cases i with
  | tarStartOp => exact gateNext h (k.tar s _ h) ht
  | tarStep =>
    rcases inExtraction_next ht with ⟨-, ht⟩ | ⟨-, rfl⟩
    · split at ht
      · exact (k.ofTarStep h).next (fun _ _ hu => hu) ht
      · cases ht
        exact h
    · exact h
  | tarName => exact gateNext h (k.tar s _ h) ht
  | tarSize => exact gate h (k.ofSize h) ht
  | tarKind => exact gateNext h (k.ofType _ h) ht
  | tarSanitize => exact gateNext h (k.tar s _ h) ht
  | tarDir => exact gateNext h (k.sink s _ h) ht
  | tarFile => exact gate h (k.ofFile h) ht
  | tarAdvance => exact gateNext h (k.tar s _ h) ht
  | tarMagicEnd => exact gate h (k.ofMagic .endMark h) ht
  | tarMagicUstar => exact gate h (k.ofMagic .ustar h) ht
  | tarMagicGnu => exact gate h (k.ofMagic .gnu h) ht
  | tarMagicOther m => exact gate h (k.ofMagic (.other m) h) ht
  | tarTypeDir => exact gateNext h (k.ofType .dir h) ht
  | tarTypeFile f => exact gateNext h (k.ofType (.file f) h) ht
  | call | jmp | jcc c | lit b | step | resolve b slot i | patch b i | emit4 dest | outEmit v | rcInit | rcDecodeBit slot
  | rcNormalize | probInit | probUp slot | probDown slot | demuxSetup | curFetch i | curRead1 i | curRead4be i | start
  | loadHeader => cases hi

end ExtractorKept

/-- Every instruction is an operation of a session, of the extractor, START or LOAD_HEADER. -/
theorem instr_kinds (i : Instr) : ofSession i = true ∨ ofExtractor i = true ∨ i = .start ∨ i = .loadHeader := by
  cases i <;>
    first
    | exact .inl rfl
    | exact .inr (.inl rfl)
    | exact .inr (.inr (.inl rfl))
    | exact .inr (.inr (.inr rfl))

/-- LOAD_HEADER changes the launch record and the pending commands only. -/
theorem execLoadHeader_next {s t : State} (h : execLoadHeader s = .next t) : t = { s with launch := t.launch, cmds := t.cmds } := by
  unfold execLoadHeader at h
  split at h
  · cases h
    rfl
  · unfold readOp at h
    split at h
    · cases h
      rfl
    · cases h

end Sys2Proof.Machine
end

