-- ==== Sys2Proof/Laws/Extractor.lean ====
section
/-! SUPPORT. Header words of the loader, and TAR_STEP unfolded once: the header read, the magic test, the entry. -/

namespace Sys2Proof.Machine

/-! ## Header words (R91) -/

theorem le32_toNat (a0 a1 a2 a3 : Byte) :
    (le32 [a0, a1, a2, a3]).toNat = a0.toNat + a1.toNat * 2 ^ 8 + a2.toNat * 2 ^ 16 + a3.toNat * 2 ^ 24 := by
  have := a0.isLt
  have := a1.isLt
  have := a2.isLt
  have := a3.isLt
  simp [le32, leNat]
  omega

theorem take_four {h : List Byte} {o : Nat} (hl : o + 4 ≤ h.length) :
    (h.drop o).take 4 = [h[o], h[o + 1], h[o + 2], h[o + 3]] := by
  apply List.ext_getElem
  · simp
    omega
  · intro i h1 h2
    have : i < 4 := by simpa using h2
    interval_cases i <;> simp

theorem headerWord_toNat {h : List Byte} {o : Nat} (hl : o + 4 ≤ h.length) :
    (headerWord h o).toNat = h[o].toNat + h[o + 1].toNat * 2 ^ 8 + h[o + 2].toNat * 2 ^ 16 + h[o + 3].toNat * 2 ^ 24 := by
  rw [headerWord, take_four hl, le32_toNat]

/-! ## TAR_STEP (R211) -/

theorem header_ofBytes (h : Header) : Header.ofBytes h.toList = h := by
  apply Vector.toList_inj.1
  show (h.toList ++ List.replicate 512 0).take 512 = h.toList
  have : h.toList.length = 512 := by simp
  rw [List.take_append_of_le_length (by omega), List.take_of_length_le (by omega)]

/-- A header that OUT holds is read whole. -/
theorem tarReadHeader_of {s : State} {h : Header} (hh : HeaderAt s h) :
    tarReadHeader s = .ok () { s with tar := { s.tar with hdr := h } } := by
  obtain ⟨h1, h2, h3⟩ := hh
  have hr : outRun s s.tar.tpos 512 = .ok h.toList := by
    rw [outRun_eq]
    refine readRun_ok (by simp) fun i hi => ?_
    have hi' : i < 512 := by simpa using hi
    have hb : s.out.read (s.tar.tpos + i) = some h[i] := h3 ⟨i, hi'⟩
    unfold outByte outByteIn
    rw [if_pos (by omega), hb]
    simp
  unfold tarReadHeader
  rw [show Config.tarBlock = 512 from rfl, hr]
  simp only [readOp, Res.bind_ok, header_ofBytes]

/-- The content of a file that OUT holds is read whole. -/
theorem content_read {s : State} {content : List Byte} (hc : ContentAt s content) :
    outRun s (s.tar.tpos + 512) content.length = .ok content := by
  obtain ⟨h1, h2, h3⟩ := hc
  rw [outRun_eq]
  refine readRun_ok rfl fun i hi => ?_
  unfold outByte outByteIn
  rw [if_pos (by omega), h3 i hi]

theorem magic_field (h : Header) : (headerField h 257 8).take 5 = headerField h 257 5 := by
  simp [headerField, List.take_take]

/-- Five zero bytes are the end marker (R212). -/
theorem classifyMagic_end {bs : List Byte} (h : bs.take 5 = [0, 0, 0, 0, 0]) : classifyMagic bs = .endMark := if_pos h

/-- "ustar" is one of the two valid magics, whatever the next bytes are (R213). -/
theorem classifyMagic_valid {bs : List Byte} (h : bs.take 5 = [0x75, 0x73, 0x74, 0x61, 0x72]) :
    classifyMagic bs = .ustar ∨ classifyMagic bs = .gnu := by
  unfold classifyMagic
  rw [if_neg (by rw [h]; decide)]
  split
  · exact .inr rfl
  · exact .inl (if_pos h)

/-- Any other five bytes are a foreign magic (R213). -/
theorem classifyMagic_other {bs : List Byte} (h1 : bs.take 5 ≠ [0, 0, 0, 0, 0])
    (h2 : bs.take 5 ≠ [0x75, 0x73, 0x74, 0x61, 0x72]) : ∃ m, classifyMagic bs = .other m := by
  have h3 : bs.take 8 ≠ gnuBytes := fun e => by
    have : (bs.take 8).take 5 = gnuBytes.take 5 := by rw [e]
    rw [List.take_take] at this
    exact h2 this
  unfold classifyMagic
  rw [if_neg h1, if_neg h3, if_neg (by exact h2)]
  exact ⟨_, rfl⟩

/-- A valid header passes the magic test. -/
theorem tarCheckMagic_valid {s : State} (h : headerField s.tar.hdr 257 5 = [0x75, 0x73, 0x74, 0x61, 0x72]) :
    tarCheckMagic s = .ok () s := by
  unfold tarCheckMagic
  rcases classifyMagic_valid (bs := headerField s.tar.hdr 257 8) (by rw [magic_field, h]) with e | e <;> rw [e] <;> rfl

theorem tarStep_of_header {s : State} {h : Header} (hh : HeaderAt s h) :
    tarStep s = (tarCheckMagic { s with tar := { s.tar with hdr := h } }).bind fun _ s => tarEntry s := by
  have := hh.inImage
  unfold tarStep
  rw [if_neg (by simp only [Config.tarBlock]; omega), tarReadHeader_of hh, Res.bind_ok]

theorem exec_tarStep {s : State} (hp : s.dec.phase = .done) (hr : s.tar.running = true) :
    exec .tarStep s = (tarStep s).done := by
  simp only [exec, execTarStep]
  rw [inExtraction_done hp, if_pos hr]

/-- The state in which TAR_STEP emits the event of a valid header. -/
def entryParsed (h : Header) (size : Nat) (s : State) : State :=
  { s with
    tar :=
      { s.tar with
        hdr := h
        full := joinedName h
        size := size
        isdir := h[156] == 0x35 || endsInSlash (joinedName h)
        clean := sanitize (joinedName h) } }

/-- TAR_STEP on a valid header: the event, the count, the advance and the discarding of the entry are what is left. -/
theorem exec_tarStep_valid {s : State} {h : Header} {size : Nat} (hp : s.dec.phase = .done) (hr : s.tar.running = true)
    (hh : HeaderAt s h) (hm : headerField h 257 5 = [0x75, 0x73, 0x74, 0x61, 0x72])
    (hs : sizeOfField (headerField h 124 12) = some size) :
    exec .tarStep s = ((tarEmit (entryParsed h size s)).bind fun _ s =>
      .ok () (tarDiscard (tarAdvance (tarCountUp s)))).done := by
  have e : tarSanitize (tarKind { s with tar := { s.tar with hdr := h, full := joinedName h, size := size } }) =
      entryParsed h size s := by
    unfold tarKind classifyType entryParsed
    by_cases e : h[156] = 0x35
    · simp only [e, if_true]
      simp [tarSanitize, tarType, setIsdir]
    · have e' : (h[156] == 0x35) = false := by simpa using e
      simp only [e, if_false]
      simp only [tarSanitize, tarType, setIsdir, e', Bool.false_or]
  rw [exec_tarStep hp hr, tarStep_of_header hh, tarCheckMagic_valid (by exact hm), Res.bind_ok, tarEntry, tarSize]
  simp only [tarName]
  rw [hs]
  simp only [Res.bind_ok]
  rw [e]

end Sys2Proof.Machine
end

