-- ==== Sys2Proof/Laws/PerInstr.lean ====
section
/-! SUPPORT. Facts about every instruction as syntax, one lemma per constructor. -/

/-- An instruction is encoded in as many bytes as its format has: one on the main stream, five, eight or one in a tar header, none for an internal
operation (R104, R98, R107). -/
def Sys2Proof.Laws.EncodedLength.Statement (i : Sys2Proof.Instr) : Prop :=
  (Sys2Proof.encode i).length = i.format.bytes

namespace Sys2Proof.Laws.EncodedLength

open Sys2Proof

theorem call : Statement (.call) := rfl

theorem jmp : Statement (.jmp) := rfl

theorem jcc (c : BitVec 4) : Statement (.jcc c) := rfl

theorem lit (b : Byte) : Statement (.lit b) := rfl

theorem start : Statement (.start) := rfl

theorem step : Statement (.step) := rfl

theorem resolve (b : Byte) (slot : Slot) (k : StreamIx) : Statement (.resolve b slot k) := rfl

theorem patch (b : Byte) (k : StreamIx) : Statement (.patch b k) := rfl

theorem emit4 (dest : Word) : Statement (.emit4 dest) := rfl

theorem outEmit (v : Byte) : Statement (.outEmit v) := rfl

theorem rcInit : Statement (.rcInit) := rfl

theorem rcDecodeBit (slot : Slot) : Statement (.rcDecodeBit slot) := rfl

theorem rcNormalize : Statement (.rcNormalize) := rfl

theorem probInit : Statement (.probInit) := rfl

theorem probUp (slot : Slot) : Statement (.probUp slot) := rfl

theorem probDown (slot : Slot) : Statement (.probDown slot) := rfl

theorem demuxSetup : Statement (.demuxSetup) := rfl

theorem curFetch (k : StreamIx) : Statement (.curFetch k) := rfl

theorem curRead1 (k : StreamIx) : Statement (.curRead1 k) := rfl

theorem curRead4be (k : StreamIx) : Statement (.curRead4be k) := rfl

theorem loadHeader : Statement (.loadHeader) := rfl

theorem tarStartOp : Statement (.tarStartOp) := rfl

theorem tarStep : Statement (.tarStep) := rfl

theorem tarName : Statement (.tarName) := rfl

theorem tarSize : Statement (.tarSize) := rfl

theorem tarKind : Statement (.tarKind) := rfl

theorem tarSanitize : Statement (.tarSanitize) := rfl

theorem tarDir : Statement (.tarDir) := rfl

theorem tarFile : Statement (.tarFile) := rfl

theorem tarAdvance : Statement (.tarAdvance) := rfl

theorem tarMagicEnd : Statement (.tarMagicEnd) := rfl

theorem tarMagicUstar : Statement (.tarMagicUstar) := rfl

theorem tarMagicGnu : Statement (.tarMagicGnu) := rfl

theorem tarMagicOther (m : BitVec 40) : Statement (.tarMagicOther m) := rfl

theorem tarTypeDir : Statement (.tarTypeDir) := rfl

theorem tarTypeFile (f : Byte) : Statement (.tarTypeFile f) := rfl

end Sys2Proof.Laws.EncodedLength
end

