-- ==== Sys2Proof/Laws/Sequencer.lean ====
section
/-! SUPPORT. Which commands wait, and which action the machine takes, case by case. -/

namespace Sys2Proof.Machine

variable {s : State} {c : Cmd} {rest : List Cmd}

/-- With nothing running, no command waits. -/
theorem waits_idle (c : Cmd) (hp : s.dec.phase ≠ .run) (ht : s.tar.running = false) : c.waits s = false := by
  have hb : busy s = false := by simp [busy, hp, ht]
  cases c with
  | issue op => cases op <;> simp [Cmd.waits, hb, ht]
  | _ => simp [Cmd.waits, hb, ht]

/-- While a session runs, every command waits but the three that are answered at once. -/
theorem waits_run (hp : s.dec.phase = .run) :
    c.waits s = true ↔ c ≠ .powerOn ∧ c ≠ .issue .start ∧ ∀ bytes, c ≠ .place bytes := by
  have hb : busy s = true := by simp [busy, hp]
  cases c with
  | issue op => cases op <;> simp [Cmd.waits, hb, hp]
  | _ => simp [Cmd.waits, hb, hp]

/-- While an extraction runs, every command waits but power-on reset. -/
theorem waits_tar (hp : s.dec.phase ≠ .run) (ht : s.tar.running = true) : c.waits s = true ↔ c ≠ .powerOn := by
  have hb : busy s = true := by simp [busy, ht]
  cases c with
  | issue op => cases op <;> simp [Cmd.waits, hb, hp, ht]
  | _ => simp [Cmd.waits, hb, hp, ht]

theorem coreAction_run (hp : s.dec.phase = .run) : coreAction s = .run .step s := if_pos hp

theorem coreAction_tar (hp : s.dec.phase ≠ .run) (ht : s.tar.running = true) : coreAction s = .run .tarStep s := by
  rw [coreAction, if_neg hp, if_pos ht]

theorem coreAction_rest (hp : s.dec.phase ≠ .run) (ht : s.tar.running = false) : coreAction s = .settle s := by
  simp [coreAction, hp, ht]

theorem nextAction_none (h : s.cmds = []) : nextAction s = coreAction s := by rw [nextAction, h]

theorem nextAction_waits (h : s.cmds = c :: rest) (hw : c.waits s = true) : nextAction s = coreAction s := by
  simp [nextAction, h, hw]

theorem nextAction_takes (h : s.cmds = c :: rest) (hw : c.waits s = false) :
    nextAction s = cmdAction c { s with cmds := rest } := by
  simp [nextAction, h, hw]

theorem step_run {i : Instr} {t : State} (h : nextAction s = .run i t) : step s = exec i t := by rw [step, h]

theorem step_settle {t : State} (h : nextAction s = .settle t) : step s = .next t := by rw [step, h]

theorem step_refuse {r : Refusal} (h : nextAction s = .refuse r) : step s = .refused r := by rw [step, h]

end Sys2Proof.Machine
end

