-- ==== Sys2Proof/Tests/Slice0.lean ====
section
/-! SUPPORT. Tests on values of spec/95_test_vectors.md and of the encoding tables, the checks of WellFormed, and a witness for every obligation that has
hypotheses. -/

namespace Sys2Proof.Tests

open Sys2Proof Sys2Proof.Machine

/-! ## Helpers -/

/-- The outcome is a next state with a property. -/
def answers (o : Out) (p : State → Bool) : Bool :=
  match o with
  | .next t => p t
  | _ => false

/-- BLOB holds a byte list. -/
def withBlob (bs : List Byte) (s : State) : State :=
  { s with blob := { cells := Memory.ofBytes 0 bs, size := bs.length } }

/-- A session that runs on four streams laid end to end, seeded with `code`, nothing consumed. -/
def session (size : Word) (s0 s1 s2 s3 : List Byte) (code : Word) : State :=
  { withBlob (s0 ++ s1 ++ s2 ++ s3) State.reset with
    rc := { code := code, range := 0xFFFFFFFF }
    prob := Vector.replicate 258 1024
    demux :=
      { base := #v[0, s0.length, s0.length + s1.length, s0.length + s1.length + s2.length]
        len := #v[s0.length, s1.length, s2.length, s3.length]
        pos := Vector.replicate 4 0 }
    dec := { State.reset.dec with phase := .run, originalSize := size } }

/-- The session with other values of `range` and `code`. -/
def withRc (range code : Word) (s : State) : State := { s with rc := { range := range, code := code } }

/-- The session with another value of one slot. -/
def withSlot (slot : Slot) (p : Prob) (s : State) : State := { s with prob := s.prob.set slot p }

/-- The session with some output already written. -/
def withOut (bs : List Byte) (prev : Byte) (s : State) : State :=
  { s with out := Memory.ofBytes 0 bs, dec := { s.dec with outPos := BitVec.ofNat 32 bs.length, prevByte := prev } }

/-- Program P1 after its first literal: `55` is out and `E8` is next; the seed is taken, so the decision on slot 85 is 1. -/
def p1 (size : Word) : State := withOut [0x55] 0x55 (session size [0xE8, 0xC3] [0x00, 0x00, 0x10, 0x00] [] [] 0x80000000)

/-- Vector X10 at the same place: the decision is 0. -/
def x10 : State := { p1 3 with rc := { code := 0, range := 0xFFFFFFFF } }

/-- A finished session whose output is a byte list. -/
def image (bs : List Byte) : State :=
  { State.reset with
    out := Memory.ofBytes 0 bs
    dec :=
      { State.reset.dec with
        phase := .done
        originalSize := BitVec.ofNat 32 bs.length
        outPos := BitVec.ofNat 32 bs.length
        result := { tag := .complete, length := BitVec.ofNat 32 bs.length } } }

/-- The same with an extraction running from address 0. -/
def extracting (bs : List Byte) : State := { image bs with tar := { (image bs).tar with running := true } }

/-- A list filled with zeros up to a length. -/
def fill (n : Nat) (bs : List Byte) : List Byte := bs ++ List.replicate (n - bs.length) 0

/-- `HDR(name, sizefield, flag, magic, prefix)` of spec/95 2.8. -/
def hdrBytes (name size : List Byte) (flag : Byte) (magic pre : List Byte) : List Byte :=
  fill 100 name ++ List.replicate 24 0 ++ fill 12 size ++ List.replicate 20 0 ++ [flag] ++ List.replicate 100 0 ++ fill 88 magic ++
    fill 155 pre ++ List.replicate 12 0

def hdr (name size : List Byte) (flag : Byte) (magic pre : List Byte) : Header := Header.ofBytes (hdrBytes name size flag magic pre)

/-- "ustar" and a NUL. -/
def magicBytes : List Byte := [0x75, 0x73, 0x74, 0x61, 0x72, 0x00]

/-- "00000000005" and a NUL, "0..0", and " 5" (which is no octal number). -/
def size5 : List Byte := [0x30, 0x30, 0x30, 0x30, 0x30, 0x30, 0x30, 0x30, 0x30, 0x30, 0x35, 0x00]
def size0 : List Byte := [0x30, 0x30, 0x30, 0x30, 0x30, 0x30, 0x30, 0x30, 0x30, 0x30, 0x30, 0x00]
def sizeBad : List Byte := [0x20, 0x35]

def aTxt : List Byte := [0x61, 0x2E, 0x74, 0x78, 0x74]
def hello : List Byte := [0x68, 0x65, 0x6C, 0x6C, 0x6F]

/-- An extractor that holds a header. -/
def holding (h : Header) : State := { image [] with tar := { (image []).tar with hdr := h } }

/-- An extractor that holds a joined name. -/
def naming (full : List Byte) : State := { image [] with tar := { (image []).tar with full := full } }

/-! ## Decoding: words written out from the encoding tables (R92, R98 to R100) -/

theorem test_word_call : decodeTableWord 8 0b11101000 = some .call := by decide
theorem test_word_jmp : decodeTableWord 8 0b11101001 = some .jmp := by decide
theorem test_word_jcc : decodeTableWord 8 0b10000100 = some (.jcc 4) := by decide
theorem test_word_lit : decodeTableWord 8 0b01010101 = some (.lit 0x55) := by decide
theorem test_word_magic_end : decodeTableWord 40 0 = some .tarMagicEnd := by decide
theorem test_word_magic_ustar : decodeTableWord 40 0x7573746172 = some .tarMagicUstar := by decide
theorem test_word_magic_gnu : decodeTableWord 64 0x7573746172202000 = some .tarMagicGnu := by decide
/-- "USTAR" is a foreign magic (vector Tg). -/
theorem test_word_magic_other : decodeTableWord 40 0x5553544152 = some (.tarMagicOther 0x5553544152) := by decide
theorem test_word_type_dir : decodeTableWord 8 0b00110101 = some .tarTypeDir := by decide
theorem test_type_file : (classifyType 0x30).toInstr = .tarTypeFile 0x30 := by decide
/-- Vectors K8 to K12: the boundaries of JCC. -/
theorem test_jcc_range :
    decodeMain 0x0F 0x80 = .jcc 0 ∧ decodeMain 0x0F 0x8F = .jcc 15 ∧ decodeMain 0x0F 0x7F = .lit 0x7F ∧
      decodeMain 0x0F 0x90 = .lit 0x90 ∧ decodeMain 0x0E 0x84 = .lit 0x84 := by decide
/-- Vectors K3, K7, K15, K16: the boundaries of CALL and JMP. -/
theorem test_call_jmp_range :
    decodeMain 0x0F 0xE8 = .call ∧ decodeMain 0x0F 0xE9 = .jmp ∧ decodeMain 0x00 0xEA = .lit 0xEA ∧
      decodeMain 0x00 0xE7 = .lit 0xE7 := by decide
theorem test_decode_refuses :
    decodeStream 0 [] = .error .noByte ∧ decodeMagic [0x75] = .error .shortMagic ∧ decodeTableWord 0 0 = none := by decide
theorem test_encode_jcc : encode (.jcc 4) = [0x84] := by decide

/-! ## WellFormed: an ill-formed term for each check -/

theorem test_ill_formed :
    (Instr.lit 0xE8).wellFormed = false ∧ (Instr.lit 0xE9).wellFormed = false ∧
      (Instr.resolve 0x55 85 1).wellFormed = false ∧ (Instr.resolve 0xE8 256 1).wellFormed = false ∧
      (Instr.resolve 0xE9 255 2).wellFormed = false ∧ (Instr.resolve 0x84 256 2).wellFormed = false ∧
      (Instr.resolve 0xE8 85 2).wellFormed = false ∧ (Instr.patch 0xE9 1).wellFormed = false ∧
      (Instr.patch 0x90 2).wellFormed = false ∧ (Instr.curFetch 1).wellFormed = false ∧
      (Instr.curRead1 2).wellFormed = false ∧ (Instr.curRead4be 0).wellFormed = false := by decide
theorem test_ill_formed_tar :
    (Instr.tarMagicOther 0).wellFormed = false ∧ (Instr.tarMagicOther 0x7573746172).wellFormed = false ∧
      (Instr.tarTypeFile 0x35).wellFormed = false := by decide
theorem test_ill_formed_context :
    (Instr.jcc 4).wellFormedAt 0x0E = false ∧ (Instr.lit 0x84).wellFormedAt 0x0F = false := by decide
theorem test_well_formed :
    (Instr.resolve 0xE8 255 1).wellFormed = true ∧ (Instr.resolve 0xE9 256 2).wellFormed = true ∧
      (Instr.resolve 0x8F 257 2).wellFormed = true ∧ (Instr.lit 0x84).wellFormedAt 0x0E = true := by decide

/-! ## The range decoder (spec/95 2.1, 2.2) -/

def seeded (s3 : List Byte) : State := session 1 [] [] [] s3 0

/-- Vector I2. -/
theorem test_rcInit : answers (exec .rcInit (seeded [0xFF, 0x12, 0x34, 0x56, 0x78])) (fun t =>
    t.rc.code == 0x12345678 && t.rc.range == 0xFFFFFFFF && t.demux.pos[3] == 5) = true := by decide
/-- Vector I6. -/
theorem test_rcInit_short : answers (exec .rcInit (seeded [1, 2, 3, 4])) (fun t =>
    t.dec.result == { tag := .partialAt 3 4, length := 0 } && t.dec.phase == .done) = true := by decide

/-- Vector B3: `code = bound` is bit 1. -/
theorem test_rcDecodeBit_one : answers (exec (.rcDecodeBit 7) (withRc 0xFFFFFFFF 0x7FFFFC00 (seeded []))) (fun t =>
    t.ports.bit && t.rc.range == 0x800003FF && t.rc.code == 0 && t.prob[7] == 992) = true := by decide
/-- Vector B5: one byte is pulled after the decision. -/
theorem test_rcDecodeBit_pull : answers (exec (.rcDecodeBit 7) (withRc 0x01000000 0x00123456 (seeded [0xAB]))) (fun t =>
    !t.ports.bit && t.rc.range == 0x80000000 && t.rc.code == 0x123456AB && t.prob[7] == 1056 && t.demux.pos[3] == 1) = true := by
  decide
/-- The normalisation of vector B5 on its own. -/
theorem test_rcNormalize : answers (exec .rcNormalize (withRc 0x00800000 0x00123456 (seeded [0xAB]))) (fun t =>
    t.rc.range == 0x80000000 && t.rc.code == 0x123456AB) = true := by decide

/-! ## The probability model (spec/95 2.3) -/

theorem test_probInit : answers (exec .probInit { State.reset with dec := { State.reset.dec with phase := .run } }) (fun t =>
    t.prob[0] == 1024 && t.prob[257] == 1024) = true := by decide
theorem test_probUp : probUpValue 1024 = 1056 ∧ probUpValue 2016 = 2017 ∧ probUpValue 2017 = 2017 ∧ probUpValue 2047 = 2047 := by
  decide
theorem test_probUp_slot : answers (exec (.probUp 256) (seeded [])) (fun t =>
    t.prob[256] == 1056 && t.prob[255] == 1024) = true := by decide
theorem test_probDown : probDownValue 1024 = 992 ∧ probDownValue 32 = 31 ∧ probDownValue 31 = 31 ∧ probDownValue 2047 = 1984 := by
  decide
theorem test_probDown_slot : answers (exec (.probDown 256) (seeded [])) (fun t =>
    t.prob[256] == 992 && t.prob[257] == 1024) = true := by decide

/-! ## The loader and the demux (spec/95 2.4) -/

def sizes (n : Nat) (a b c d : Word) : State :=
  { session 1 [] [] [] [] 0 with
    blob := { cells := [], size := n }
    launch := { State.reset.launch with desc := { originalSize := 1, size := #v[a, b, c, d] } } }

/-- Window W7: a stream cut in the middle. -/
theorem test_demuxSetup_cut : answers (exec .demuxSetup (sizes 24 2 4 4 5)) (fun t =>
    t.demux.base == #v[20, 22, 24, 24] && t.demux.len == #v[2, 2, 0, 0]) = true := by decide
/-- Window W6: the sums do not wrap. -/
theorem test_demuxSetup_nowrap :
    answers (exec .demuxSetup (sizes 30 0xFFFFFFFF 0xFFFFFFFF 0xFFFFFFFF 0xFFFFFFFF)) (fun t =>
      t.demux.base == #v[20, 30, 30, 30] && t.demux.len == #v[10, 0, 0, 0]) = true := by decide

def cursors : State := session 1 [0xAA] [0xAA, 0xBB, 0xCC, 0xDD, 0xEE] [] [] 0

theorem test_curFetch : answers (exec (.curFetch 0) cursors) (fun t => t.ports.byte == 0xAA && t.demux.pos[0] == 0) = true := by
  decide
theorem test_curRead1 : answers (exec (.curRead1 0) cursors) (fun t => t.ports.byte == 0xAA && t.demux.pos[0] == 1) = true := by
  decide
theorem test_curRead4be : answers (exec (.curRead4be 1) cursors) (fun t =>
    t.ports.word == 0xAABBCCDD && t.demux.pos[1] == 4) = true := by decide
/-- One byte is left after the first word: the second read consumes nothing. -/
theorem test_curRead4be_short :
    answers (exec (.curRead4be 1) { cursors with demux := { cursors.demux with pos := #v[0, 4, 0, 0] } }) (fun t =>
      t.dec.result.tag == .partialAt 1 4 && t.demux.pos[1] == 4) = true := by decide

def lh3 : List Byte := [0, 1, 0, 0, 0, 0, 1, 0, 0, 0, 0, 1, 0xFF, 0xFF, 0xFF, 0xFF, 0, 0, 0, 0]

/-- Vector LH3: the byte order of the header. -/
theorem test_loadHeader : answers (exec .loadHeader (withBlob lh3 State.reset)) (fun t =>
    t.launch.desc == { originalSize := 256, size := #v[0x10000, 0x01000000, 0xFFFFFFFF, 0] } && t.launch.sizeMismatch) = true := by
  decide
/-- Vector LH4. -/
theorem test_loadHeader_small : answers (exec .loadHeader (withBlob (lh3.take 19) State.reset)) (fun t =>
    t.launch.headerTooSmall && t.launch.desc == State.reset.launch.desc) = true := by decide

/-! ## The decoder (spec/95 2.6, 2.7, P1) -/

/-- Vector X1's header and seed: START takes the seed, and the next step ends Complete. -/
def launched (n : Nat) : State :=
  { withBlob (List.replicate 20 0 ++ [0, 0x80, 0, 0, 0].take n) State.reset with
    launch := { State.reset.launch with desc := { originalSize := 0, size := #v[0, 0, 0, BitVec.ofNat 32 n] } } }

theorem test_start : answers (exec .start (launched 5)) (fun t =>
    t.dec.phase == .run && t.rc.code == 0x80000000 && t.demux.base == #v[20, 20, 20, 20] && t.demux.pos == #v[0, 0, 0, 5]) = true := by
  decide
/-- Vector X2: without a seed the session ends at once. -/
theorem test_start_dry : answers (exec .start (launched 0)) (fun t =>
    t.dec.result == { tag := .partialAt 3 0, length := 0 } && t.dec.phase == .done) = true := by decide
/-- P1, step 1. -/
theorem test_step_literal : answers (exec .step (session 7 [0x55] [] [] [] 0)) (fun t =>
    t.out == [(0, 0x55)] && t.dec.prevByte == 0x55 && t.demux.pos[0] == 1) = true := by decide
/-- X1: a full OUT ends the session before anything is fetched. -/
theorem test_step_full : answers (exec .step (session 0 [0x90] [] [] [] 0)) (fun t =>
    t.dec.result == { tag := .complete, length := 0 } && t.demux.pos[0] == 0) = true := by decide
theorem test_lit : answers (exec (.lit 0x55) (session 7 [0x55] [] [] [] 0)) (fun t =>
    t.out == [(0, 0x55)] && t.dec.outPos == 1) = true := by decide
/-- P1, step 2: the patch `FA 0F 00 00`. -/
theorem test_call : answers (exec .call (p1 7)) (fun t =>
    t.out == [(0, 0x55), (1, 0xE8), (2, 0xFA), (3, 0x0F), (4, 0x00), (5, 0x00)] && t.dec.prevByte == 0x00 &&
      t.rc.range == 0x800003FF && t.rc.code == 0x00000400 && t.prob[85] == 992 && t.demux.pos == #v[1, 4, 0, 0]) = true := by decide
/-- X10: bit 0, and stream1 is untouched. -/
theorem test_call_zero : answers (exec .call x10) (fun t =>
    t.out == [(0, 0x55), (1, 0xE8)] && t.dec.prevByte == 0xE8 && t.prob[85] == 1056 && t.demux.pos == #v[1, 0, 0, 0]) = true := by
  decide
/-- JMP uses slot 256 and stream 2 (R180). -/
theorem test_jmp : answers (exec .jmp (session 9 [0xE9] [] [0, 0, 0, 0x20] [] 0x80000000)) (fun t =>
    t.out == [(0, 0xE9), (1, 0x1B), (2, 0), (3, 0), (4, 0)] && t.prob[256] == 992 && t.demux.pos == #v[1, 0, 4, 0]) = true := by decide
/-- P2, decision 2: T = 20, P = 8, dest = 14, with slot 257 and stream 2 (here at the same `out_pos`). -/
theorem test_jcc :
    answers (exec (.jcc 4)
      (withOut [0x55, 0xE8, 0xFA, 0x0F, 0x40, 0x00, 0x0F] 0x0F
        (withRc 0x800003FF 0x48000000 (session 31 [0x84] [] [0, 0, 0, 0x20] [] 0)))) (fun t =>
      t.out.drop 7 == [(7, 0x84), (8, 0x14), (9, 0), (10, 0), (11, 0)] && t.rc.range == 0x400003FF && t.rc.code == 0x08000000 &&
        t.prob[257] == 992) = true := by decide
/-- X7: the opcode byte fills OUT, and no bit is decoded. -/
theorem test_resolve_full : answers (exec (.resolve 0xE8 85 1) (p1 2)) (fun t =>
    t.dec.result == { tag := .complete, length := 2 } && t.rc.range == 0xFFFFFFFF && t.prob[85] == 1024) = true := by decide
/-- X8c: three bytes of the patch. -/
theorem test_resolve_truncated : answers (exec (.resolve 0xE8 85 1) (p1 5)) (fun t =>
    t.dec.result == { tag := .complete, length := 5 } && t.out.drop 2 == [(2, 0xFA), (3, 0x0F), (4, 0x00)]) = true := by decide
/-- Vector A3: the subtraction wraps. -/
theorem test_patch : answers (exec (.patch 0xE8 1) (withOut [0x55, 0xE8] 0x55 (session 9 [] [0, 0, 0, 0] [] [] 0))) (fun t =>
    t.out.drop 2 == [(2, 0xFA), (3, 0xFF), (4, 0xFF), (5, 0xFF)] && t.dec.prevByte == 0xFF) = true := by decide
/-- The truncated emission of spec/95 2.6 with ORIGINAL_SIZE 4. -/
theorem test_emit4 : answers (exec (.emit4 0x00000FFA) (withOut [0x55, 0xE8] 0x55 (session 4 [] [] [] [] 0))) (fun t =>
    t.out.drop 2 == [(2, 0xFA), (3, 0x0F)] && t.dec.prevByte == 0x0F && t.dec.result == { tag := .complete, length := 4 }) = true := by
  decide
theorem test_outEmit : answers (exec (.outEmit 0x90) (session 2 [] [] [] [] 0)) (fun t =>
    t.out == [(0, 0x90)] && t.dec.prevByte == 0) = true := by decide

/-! ## The extractor (spec/95 2.8) -/

theorem test_tarStartOp : answers (exec .tarStartOp { image [] with launch := { (image []).launch with tarStart := 7 } }) (fun t =>
    t.tar.tpos == 7 && t.tar.running && t.tar.stop == .none) = true := by decide
/-- Vector Tl. -/
theorem test_tarStep_truncated : answers (exec .tarStep (extracting [])) (fun t =>
    t.tar.stop == .truncated && !t.tar.running) = true := by decide
/-- Vector Td: the prefix. -/
theorem test_tarName : joinedName (hdr [0x6E] size0 0x30 magicBytes [0x2F, 0x70, 0x2F, 0x71]) = [0x2F, 0x70, 0x2F, 0x71, 0x2F, 0x6E] := by
  decide
theorem test_tarSize : sizeOfField size5 = some 5 ∧ sizeOfField [0x31, 0x37, 0x20, 0, 0, 0, 0, 0, 0, 0, 0, 0] = some 15 ∧
    sizeOfField (List.replicate 12 0x20) = some 0 := by decide
theorem test_tarSize_bad : sizeOfField [0x20, 0x35, 0, 0, 0, 0, 0, 0, 0, 0, 0, 0] = none ∧
    sizeOfField [0x30, 0x30, 0x38, 0, 0, 0, 0, 0, 0, 0, 0, 0] = none := by decide
/-- Vectors Tb and Tm. -/
theorem test_tarKind : answers (exec .tarKind (holding (hdr [0x78] size0 0x35 magicBytes []))) (fun t => t.tar.isdir) = true := by decide
theorem test_tarKind_slash : answers (exec .tarKind (naming [0x78, 0x2F])) (fun t => t.tar.isdir) = true := by decide
/-- Vector Tc: "../../etc". -/
theorem test_tarSanitize : sanitize [0x2E, 0x2E, 0x2F, 0x2E, 0x2E, 0x2F, 0x65, 0x74, 0x63] = [0x5F, 0x2F, 0x5F, 0x2F, 0x65, 0x74, 0x63] := by
  decide
theorem test_tarSanitize_edges : sanitize [0x2E, 0x2E, 0x2E] = [0x5F, 0x2E] ∧ sanitize [0x2F, 0x2F, 0x78] = [0x78] ∧
    sanitize [0x2F] = [] := by decide
theorem test_tarDir : answers (exec .tarDir { image [] with tar := { (image []).tar with clean := [0x78] } }) (fun t =>
    t.sink == [.createDir [0x78]]) = true := by decide
/-- Vector Tf: the content passes the image. -/
theorem test_tarFile : answers (exec .tarFile { image hello with tar := { (image hello).tar with size := 600 } }) (fun t =>
    t.tar.stop == .truncated && t.sink == []) = true := by decide
/-- Table TA. -/
theorem test_tarAdvance : tarAdvanceBy false 0 = 512 ∧ tarAdvanceBy false 5 = 1024 ∧ tarAdvanceBy false 512 = 1024 ∧
    tarAdvanceBy false 513 = 1536 ∧ tarAdvanceBy true 512 = 512 := by decide
theorem test_tarMagicEnd : answers (exec .tarMagicEnd (image [])) (fun t => t.tar.stop == .endMarker) = true := by decide
theorem test_tarMagicUstar : exec .tarMagicUstar (image []) = .next (image []) := by rfl
theorem test_tarMagicGnu : exec .tarMagicGnu (image []) = .next (image []) := by rfl
theorem test_tarMagicOther : answers (exec (.tarMagicOther 0x5553544152) (image [])) (fun t => t.tar.stop == .magicMismatch) = true := by
  decide
theorem test_tarTypeDir : answers (exec .tarTypeDir (image [])) (fun t => t.tar.isdir) = true := by decide
theorem test_tarTypeFile : answers (exec (.tarTypeFile 0x30) (naming aTxt)) (fun t => !t.tar.isdir) = true := by decide

/-! ## Fetching (assumption log 14) -/

theorem test_fetch_literal : answers (step (State.reset.withFetchWord 8 0x55)) (fun t => t.out == [(0, 0x55)]) = true := by decide
theorem test_fetch_selector : answers (step (State.reset.withFetchWord 40 0)) (fun t => t.tar.stop == .endMarker && !t.tar.running) = true := by
  decide +kernel
/-- The type flag '5' in a header with an empty name: a directory. -/
theorem test_fetch_flag : answers (step (State.reset.withFetchWord 8 0x35)) (fun t =>
    t.sink == [.createDir []] && t.tar.tpos == 512 && t.tar == { t.tar.discard with tpos := 512 }) = true := by decide +kernel
theorem test_await : answers (step { p1 7 with cmds := [.await] }) (fun t => t.cmds == [.await] && t.dec.outPos == 6) = true := by decide
theorem test_place_refused : step { p1 7 with cmds := [.place []] } = .refused .blobWriteDuringRun := by rfl

/-! ## Witnesses: states and operands that meet all hypotheses of each obligation, one for each clause -/

theorem witness_DecodeOfEncodeIsTheInstruction :
    (Instr.jcc 4).wellFormedAt 0x0F = true ∧ (Instr.jcc 4).format ≠ .internal ∧
      ((Instr.jcc 4) = .tarMagicUstar → ([] : List Byte).take 3 ≠ [0x20, 0x20, 0x00]) := by decide
theorem witness_DecodeOfEncodeIsTheInstruction_ustar :
    Instr.tarMagicUstar.wellFormedAt 0x00 = true ∧ Instr.tarMagicUstar.format ≠ .internal ∧
      ([0x00, 0x30, 0x30] : List Byte).take 3 ≠ [0x20, 0x20, 0x00] := by decide
theorem witness_CandidatesResolve : (withOut [0x0F] 0x0F (session 7 [] [] [] [] 0)).dec.prevByte = 0x0F := by decide
theorem witness_MainClassesFollowTheTable : (x10).dec.prevByte = 0x55 := by decide
theorem witness_BoundNeverWraps :
    2048 ≤ (withRc 2048 0 (seeded [])).rc.range.toNat ∧ 1 ≤ (withSlot 3 1 (withRc 2048 0 (seeded []))).prob[(3 : Slot)].toNat := by decide

/-- Vector B1: settled without a byte; vector B5: with one. -/
theorem witness_DecodeBitCompletes :
    (seeded []).dec.phase = .run ∧ settled (seeded []) 7 = some (0x7FFFFC00, 0, 0) := by decide
theorem witness_DecodeBitCompletes_byte :
    (withRc 0x01000000 0x00123456 (seeded [0xAB])).dec.phase = .run ∧
      settled (withRc 0x01000000 0x00123456 (seeded [0xAB])) 7 = some (0x80000000, 0x123456AB, 1) := by decide
/-- Vector B11. -/
theorem witness_DecodeBitRunsDry :
    let s := withRc 0x01000000 0x00123456 (seeded [])
    s.dec.phase = .run ∧ decidedRange s 7 < 2 ^ 24 ∧ s.demux.pos[3] = s.demux.len[3] := by decide
theorem witness_DecodeBitKeepsItsInvariants :
    let s := withSlot 7 2017 (withRc 0x01000000 0x00FC2000 (seeded [0x22]))
    s.dec.phase = .run ∧ 2 ^ 24 ≤ s.rc.range.toNat ∧ 31 ≤ s.prob[(7 : Slot)].toNat ∧ s.prob[(7 : Slot)].toNat ≤ 2017 ∧
      answers (exec (.rcDecodeBit 7) s) (fun t => t.dec.phase == .run) = true ∧ s.rc.code.toNat < s.rc.range.toNat := by decide
theorem witness_NormalizeIsTheLoop :
    (withRc 0x01000000 0 (seeded [])).dec.phase = .run ∧ 2 ^ 24 ≤ (withRc 0x01000000 0 (seeded [])).rc.range.toNat := by decide
theorem witness_NormalizeIsTheLoop_dry :
    let s := withRc 0x00FFFFFF 0 (seeded [])
    s.dec.phase = .run ∧ s.rc.range.toNat < 2 ^ 24 ∧ s.demux.len[3] ≤ s.demux.pos[3] := by decide
theorem witness_NormalizeIsTheLoop_byte :
    let s := withRc 0x00FFFFFF 0 (seeded [0x7E])
    s.dec.phase = .run ∧ s.rc.range.toNat < 2 ^ 24 ∧ streamByte s 3 0 = some 0x7E := by decide
theorem witness_RcInitSeedsCode :
    let s := seeded [0xFF, 0x12, 0x34, 0x56, 0x78]
    s.dec.phase = .run ∧ streamByte s 3 0 = some 0xFF ∧ streamByte s 3 1 = some 0x12 ∧ streamByte s 3 2 = some 0x34 ∧
      streamByte s 3 3 = some 0x56 ∧ streamByte s 3 4 = some 0x78 := by decide

/-- For the statements whose only hypothesis is that a session runs: PROB_INIT, PROB_UP, PROB_DOWN, DEMUX_SETUP. -/
theorem witness_session_runs : (p1 7).dec.phase = .run := by decide
/-- The boundaries of both updates: 2017 and 2016, 31 and 32. -/
theorem witness_ProbUpRaisesTheSlot : probUpValue 2017 = 2017 ∧ probUpValue 2016 ≠ 2016 := by decide
theorem witness_ProbDownLowersTheSlot : probDownValue 31 = 31 ∧ probDownValue 32 ≠ 32 := by decide

theorem session_slots (size : Word) (s0 s1 s2 s3 : List Byte) (code : Word) (k : Slot) :
    (session size s0 s1 s2 s3 code).prob[k] = 1024 := by
  show (Vector.replicate 258 (1024 : Prob))[k] = 1024
  simp

theorem witness_EveryInstructionKeepsSlotsReachable :
    (∀ k : Slot, 31 ≤ (seeded []).prob[k].toNat ∧ (seeded []).prob[k].toNat ≤ 2017) ∧
      ∃ t, exec (.probUp 256) (seeded []) = .next t :=
  ⟨fun k => by rw [seeded, session_slots]; decide, _, rfl⟩

theorem witness_DemuxSetupClipsWindows_fits :
    (sizes 56 19 8 4 5).dec.phase = .run ∧ declaredStart (sizes 56 19 8 4 5).launch.desc 4 ≤ (sizes 56 19 8 4 5).blob.size := by decide
theorem witness_DemuxSetupClipsWindows_clipped :
    let s := sizes 24 2 4 4 5
    s.blob.size ≤ declaredStart s.launch.desc (1 : StreamIx).succ ∧ (1 : StreamIx) < 2 := by decide
theorem witness_CurReadsGiveTheNextByte : cursors.dec.phase = .run ∧ streamByte cursors 0 0 = some 0xAA := by decide
theorem witness_CurReadsGiveTheNextByte_dry :
    cursors.dec.phase = .run ∧ cursors.demux.len[(2 : StreamIx)] ≤ cursors.demux.pos[(2 : StreamIx)] := by decide
theorem witness_CurRead4beConsumesAWord : cursors.dec.phase = .run ∧ streamWord cursors 1 0xAA 0xBB 0xCC 0xDD :=
  ⟨by decide, by decide, by decide, by decide, by decide⟩
theorem witness_ShortStreamRaisesExhausted : cursors.dec.phase = .run ∧ cursors.demux.len[(2 : StreamIx)] ≤ cursors.demux.pos[(2 : StreamIx)] := by
  decide
theorem witness_ShortStreamRaisesExhausted_word :
    let s := session 1 [] [0xAA, 0xBB, 0xCC] [] [] 0
    s.dec.phase = .run ∧ s.demux.len[(1 : StreamIx)] < s.demux.pos[(1 : StreamIx)] + 4 := by decide
theorem witness_CursorsOnlyMoveForward :
    Instr.call ≠ .start ∧ Instr.call ≠ .demuxSetup ∧ ∃ t, exec .call (p1 7) = .next t :=
  ⟨by decide, by decide, _, rfl⟩

/-! The decoder. -/

theorem witness_LitCopiesOneByte :
    let s := session 7 [0x55] [] [] [] 0
    s.dec.phase = .run ∧ streamByte s 0 0 = some 0x55 ∧ s.dec.outPos.toNat < s.dec.originalSize.toNat := by decide
/-- Vector X7. -/
theorem witness_CandidateThatFillsOutCompletes :
    (p1 2).dec.phase = .run ∧ candidateOf (p1 2) .call = some (0xE8, 85, 1) ∧ streamByte (p1 2) 0 0 = some 0xE8 ∧
      (p1 2).dec.outPos.toNat + 1 = (p1 2).dec.originalSize.toNat := by decide
/-- Vector X10. -/
theorem witness_CandidateDecidedZero :
    x10.dec.phase = .run ∧ candidateOf x10 .call = some (0xE8, 85, 1) ∧ streamByte x10 0 0 = some 0xE8 ∧
      x10.dec.outPos.toNat + 1 < x10.dec.originalSize.toNat ∧ decidedOne x10 85 = false ∧
      settled x10 85 = some (0x7FFFFC00, 0, 0) := by decide
/-- P1's CALL with room for the whole patch; then vector X8a, with room for one byte of it. -/
theorem witness_CandidateDecidedOnePatches :
    (p1 7).dec.phase = .run ∧ Instr.call.wellFormed = true ∧ candidateOf (p1 7) .call = some (0xE8, 85, 1) ∧
      streamByte (p1 7) 0 0 = some 0xE8 ∧ streamByte (p1 7) 1 0 = some 0x00 ∧ streamByte (p1 7) 1 1 = some 0x00 ∧
      streamByte (p1 7) 1 2 = some 0x10 ∧ streamByte (p1 7) 1 3 = some 0x00 ∧
      (p1 7).dec.outPos.toNat + 1 < (p1 7).dec.originalSize.toNat ∧
      4 = min 4 ((p1 7).dec.originalSize.toNat - ((p1 7).dec.outPos.toNat + 1)) ∧ decidedOne (p1 7) 85 = true ∧
      settled (p1 7) 85 = some (0x800003FF, 0x00000400, 0) ∧
      ((0x00000FFA : Word).toNat + (p1 7).dec.outPos.toNat + 5) % 2 ^ 32 = 0x00001000 := by decide
theorem witness_CandidateDecidedOnePatches_truncated :
    (p1 3).dec.outPos.toNat + 1 < (p1 3).dec.originalSize.toNat ∧
      1 = min 4 ((p1 3).dec.originalSize.toNat - ((p1 3).dec.outPos.toNat + 1)) ∧ decidedOne (p1 3) 85 = true := by decide
theorem witness_CandidateRunsDry :
    let s := withOut [0x55] 0x55 (withRc 0x01000000 0 (session 7 [0xE9] [] [] [] 0))
    s.dec.phase = .run ∧ candidateOf s .jmp = some (0xE9, 256, 2) ∧ streamByte s 0 0 = some 0xE9 ∧
      s.dec.outPos.toNat + 1 < s.dec.originalSize.toNat ∧ decidedRange s 256 < 2 ^ 24 ∧ s.demux.pos[3] = s.demux.len[3] := by decide
/-- Vector X4. -/
theorem witness_CandidateLacksAddress :
    let s := withOut [0x55] 0x55 (session 7 [0xE8, 0xC3] [0x00, 0x00, 0x10] [] [] 0x80000000)
    s.dec.phase = .run ∧ Instr.call.wellFormed = true ∧ candidateOf s .call = some (0xE8, 85, 1) ∧ streamByte s 0 0 = some 0xE8 ∧
      s.dec.outPos.toNat + 1 < s.dec.originalSize.toNat ∧ decidedOne s 85 = true ∧
      settled s 85 = some (0x800003FF, 0x00000400, 0) ∧ s.demux.len[(1 : StreamIx)] < s.demux.pos[(1 : StreamIx)] + 4 := by decide
/-- Vector A3. -/
theorem witness_PatchRebasesTheTarget :
    let s := withOut [0x55, 0xE8] 0x55 (session 9 [] [0, 0, 0, 0] [] [] 0)
    s.dec.phase = .run ∧ (streamByte s 1 0 = some 0 ∧ streamByte s 1 1 = some 0 ∧ streamByte s 1 2 = some 0 ∧ streamByte s 1 3 = some 0) ∧
      s.dec.outPos.toNat < s.dec.originalSize.toNat ∧ 4 = min 4 (s.dec.originalSize.toNat - s.dec.outPos.toNat) ∧
      ((0xFFFFFFFA : Word).toNat + s.dec.outPos.toNat + 4) % 2 ^ 32 = 0 := by decide
theorem witness_PatchRebasesTheTarget_short :
    let s := session 1 [] [0xAA, 0xBB, 0xCC] [] [] 0
    s.dec.phase = .run ∧ s.demux.len[(1 : StreamIx)] < s.demux.pos[(1 : StreamIx)] + 4 := by decide
theorem witness_Emit4WritesWhatFits :
    let s := withOut [0x55, 0xE8] 0x55 (session 4 [] [] [] [] 0)
    s.dec.phase = .run ∧ s.dec.outPos.toNat < s.dec.originalSize.toNat ∧
      2 = min 4 (s.dec.originalSize.toNat - s.dec.outPos.toNat) ∧ s.dec.outPos.toNat + 2 = s.dec.originalSize.toNat := by decide
theorem witness_Emit4WritesWhatFits_room :
    let s := withOut [0x55, 0xE8] 0x55 (session 7 [] [] [] [] 0)
    4 = min 4 (s.dec.originalSize.toNat - s.dec.outPos.toNat) ∧ s.dec.outPos.toNat + 4 ≠ s.dec.originalSize.toNat := by decide
theorem witness_OutEmitAppends : (p1 2).dec.phase = .run ∧ (p1 2).dec.outPos.toNat < (p1 2).dec.originalSize.toNat := by decide
theorem witness_OutEmitAppends_full : (p1 1).dec.phase = .run ∧ (p1 1).dec.originalSize.toNat ≤ (p1 1).dec.outPos.toNat := by decide
theorem witness_StepIsTheMainLoop_full : (p1 1).dec.phase = .run ∧ (p1 1).dec.outPos = (p1 1).dec.originalSize := by decide
/-- Vector X6 at its last step. -/
theorem witness_StepIsTheMainLoop_dry :
    let s := withOut [0x48, 0x89] 0x89 (session 5 [] [] [] [] 0)
    s.dec.phase = .run ∧ s.dec.outPos ≠ s.dec.originalSize ∧ s.demux.len[0] ≤ s.demux.pos[0] := by decide
theorem witness_StepIsTheMainLoop_byte :
    (p1 7).dec.phase = .run ∧ (p1 7).dec.outPos ≠ (p1 7).dec.originalSize ∧ streamByte (p1 7) 0 0 = some 0xE8 := by decide

/-- A session just seeded, over one byte of stream0. -/
def begun : State := session 1 [0x90] [] [] [] 0

/-- The invariant holds in it, so it holds in a state that runs. -/
theorem begun_inv : begun.Inv where
  placed a ha := (Memory.read_ofBytes_isSome [0x90] a).2 ha
  resolving := rfl
  run _ :=
    { window := by decide
      cursor := by decide
      range := by decide
      probs := fun i => by rw [begun, session_slots]; decide
      count := by decide
      prev := by decide }
  bounded _ := by decide
  written _ a := by
    show (Memory.read [] a).isSome = true ↔ a < 0
    simp
  done h := absurd h (by decide)
  tar h := absurd h (by decide)
  discarded := rfl

theorem witness_StepAdvancesOrEnds : begun.Inv ∧ begun.dec.phase = .run := ⟨begun_inv, rfl⟩
theorem witness_StartBeginsASession :
    let s := launched 5
    s.dec.phase ≠ .run ∧ 20 ≤ s.blob.size ∧ declaredStart s.launch.desc 3 + 5 ≤ s.blob.size ∧ 5 ≤ s.launch.desc.size[3].toNat ∧
      s.blob.cells.read (declaredStart s.launch.desc 3) = some 0 ∧
      s.blob.cells.read (declaredStart s.launch.desc 3 + 1) = some 0x80 ∧
      s.blob.cells.read (declaredStart s.launch.desc 3 + 2) = some 0 ∧
      s.blob.cells.read (declaredStart s.launch.desc 3 + 3) = some 0 ∧
      s.blob.cells.read (declaredStart s.launch.desc 3 + 4) = some 0 := by decide
/-- Vector X3: four bytes of seed. -/
theorem witness_StartWithoutSeedEndsPartial :
    let s := launched 4
    s.dec.phase ≠ .run ∧ 20 ≤ s.blob.size ∧ (∀ a, a < s.blob.size → (s.blob.cells.read a).isSome = true) ∧
      4 = min (declaredStart s.launch.desc 4) s.blob.size - min (declaredStart s.launch.desc 3) s.blob.size ∧ 4 < 5 :=
  ⟨by decide, by decide, fun a ha => (Memory.read_ofBytes_isSome _ a).2 ha, by decide, by decide⟩
/-- An earlier session is over in the second state, and its output and registers are still there. -/
theorem witness_StartForgetsEarlierSessions :
    (launched 5).dec.phase ≠ .run ∧ { launched 5 with dec := (image hello).dec, out := (image hello).out }.dec.phase ≠ .run ∧
      20 ≤ (launched 5).blob.size ∧ ∃ t, exec .start (launched 5) = .next t :=
  ⟨by decide, by decide, by decide, _, rfl⟩
/-- Two states that differ in the dead latches. -/
theorem witness_MainLoopDependsOnTheSessionAlone :
    SessionEq (p1 7) { p1 7 with dec := { (p1 7).dec with b := 1, dest := 2, j := 3 } } ∧ (p1 7).dec.phase = .run ∧
      ∃ t, exec .step (p1 7) = .next t :=
  ⟨⟨rfl, rfl, rfl, rfl, rfl, rfl, rfl, rfl, rfl, rfl⟩, rfl, _, rfl⟩
theorem witness_OperationsOutsideTheirPhaseDoNothing :
    ofSession .call = true ∧ (image []).dec.phase ≠ .run ∧ ofExtractor .tarStep = true ∧ (p1 7).dec.phase ≠ .done ∧
      State.reset.blob.size < 20 := by decide
theorem witness_DoneIsLeftOnlyByStart :
    Instr.tarStartOp ≠ .start ∧ (image hello).dec.phase = .done ∧ ∃ t, exec .tarStartOp (image hello) = .next t :=
  ⟨by decide, rfl, _, rfl⟩
theorem witness_BlobIsReadOnlyAndSinkAppendOnly :
    (∃ t, exec .call (p1 7) = .next t) ∧ ofExtractor .call = false := ⟨⟨_, rfl⟩, by decide⟩
theorem witness_OutIsAppendOnly :
    (p1 7).dec.phase = .run ∧ (p1 7).dec.outPos.toNat ≤ (p1 7).dec.originalSize.toNat ∧ ∃ t, exec .call (p1 7) = .next t :=
  ⟨rfl, by decide, _, rfl⟩

/-! The loader and the extractor. -/

theorem witness_LoadHeaderReadsTheDescriptor :
    20 ≤ (withBlob lh3 State.reset).blob.size ∧
      ∀ i : Fin 20, (withBlob lh3 State.reset).blob.cells.read i =
        some (#v[0, 1, 0, 0, 0, 0, 1, 0, 0, 0, 0, 1, 0xFF, 0xFF, 0xFF, 0xFF, 0, 0, 0, 0] : Vector Byte 20)[i] := by decide
/-- For the statements whose only hypothesis is that the session is over: TAR_START_OP, TAR_NAME, TAR_KIND, TAR_SANITIZE, TAR_ADVANCE, the selectors. -/
theorem witness_session_done : (image hello).dec.phase = .done ∧ (extracting hello).tar.running = true := by decide
theorem witness_TarStepStopsByReason_noRoom :
    (extracting []).dec.phase = .done ∧ (extracting []).tar.running = true ∧ imgLen (extracting []) < (extracting []).tar.tpos + 512 := by decide

theorem fill_length {n : Nat} {bs : List Byte} (h : bs.length ≤ n) : (fill n bs).length = n := by
  rw [fill, List.length_append, List.length_replicate]
  omega

theorem hdr_length {name size magic pre : List Byte} (flag : Byte) (h1 : name.length ≤ 100) (h2 : size.length ≤ 12)
    (h3 : magic.length ≤ 88) (h4 : pre.length ≤ 155) : (hdrBytes name size flag magic pre).length = 512 := by
  simp only [hdrBytes, List.length_append, List.length_replicate, fill_length h1, fill_length h2, fill_length h3, fill_length h4,
    List.length_cons, List.length_nil]

/-- A header block stands at the front of an image that begins with it. -/
theorem headerAt_front {bs rest : List Byte} (h1 : bs.length = 512) (h3 : rest.length < 512) :
    HeaderAt (extracting (bs ++ rest)) (Header.ofBytes bs) := by
  have h2 : (bs ++ rest).length < 2 ^ 32 := by
    rw [List.length_append]
    omega
  have hn : (BitVec.ofNat 32 (bs ++ rest).length).toNat = (bs ++ rest).length := by
    rw [BitVec.toNat_ofNat, Nat.mod_eq_of_lt h2]
  have hl : (bs ++ rest).length = 512 + rest.length := by rw [List.length_append, h1]
  have hz : ((bs ++ List.replicate 512 0).take 512) = bs := by
    rw [List.take_append_of_le_length (by omega), List.take_of_length_le (by omega)]
  refine ⟨?_, ?_, fun i => ?_⟩
  · show 0 + 512 ≤ (BitVec.ofNat 32 (bs ++ rest).length).toNat
    omega
  · show (BitVec.ofNat 32 (bs ++ rest).length).toNat ≤ (BitVec.ofNat 32 (bs ++ rest).length).toNat
    omega
  · have hb : (i : Nat) < bs.length := by omega
    have e : (Header.ofBytes bs)[i] = bs[(i : Nat)] := by
      show ((bs ++ List.replicate 512 0).take 512)[(i : Nat)]'_ = _
      simp only [hz]
    show (Memory.ofBytes 0 (bs ++ rest)).read (0 + i) = _
    rw [e, Memory.read_ofBytes, if_pos (by omega)]
    simp [List.getElem?_append_left hb, hb]

theorem imgLen_extracting {bs : List Byte} (h : bs.length = 512) : imgLen (extracting (bs ++ [])) = 512 := by
  show (BitVec.ofNat 32 (bs ++ []).length).toNat = 512
  rw [List.append_nil, h]
  rfl

theorem witness_TarStepStopsByReason_endMarker :
    HeaderAt (extracting (List.replicate 512 0 ++ [])) (Header.ofBytes (List.replicate 512 0)) ∧
      headerField (Header.ofBytes (List.replicate 512 0)) 257 5 = [0, 0, 0, 0, 0] :=
  ⟨headerAt_front List.length_replicate (by decide), by decide⟩
/-- Vector Tg. -/
theorem witness_TarStepStopsByReason_foreign :
    let bs := hdrBytes aTxt size5 0x30 [0x55, 0x53, 0x54, 0x41, 0x52, 0x00] []
    HeaderAt (extracting (bs ++ [])) (Header.ofBytes bs) ∧ headerField (Header.ofBytes bs) 257 5 ≠ [0, 0, 0, 0, 0] ∧
      headerField (Header.ofBytes bs) 257 5 ≠ [0x75, 0x73, 0x74, 0x61, 0x72] :=
  ⟨headerAt_front (hdr_length _ (by decide) (by decide) (by decide) (by decide)) (by decide), by decide, by decide⟩
/-- Vector Th. -/
theorem witness_TarStepStopsByReason_badSize :
    let bs := hdrBytes [0x61] sizeBad 0x30 magicBytes []
    HeaderAt (extracting (bs ++ [])) (Header.ofBytes bs) ∧
      headerField (Header.ofBytes bs) 257 5 = [0x75, 0x73, 0x74, 0x61, 0x72] ∧
      sizeOfField (headerField (Header.ofBytes bs) 124 12) = none :=
  ⟨headerAt_front (hdr_length _ (by decide) (by decide) (by decide) (by decide)) (by decide), by decide, by decide⟩
/-- A file of five bytes whose content is missing. -/
theorem witness_TarStepStopsByReason_content :
    let bs := hdrBytes aTxt size5 0x30 magicBytes []
    HeaderAt (extracting (bs ++ [])) (Header.ofBytes bs) ∧
      headerField (Header.ofBytes bs) 257 5 = [0x75, 0x73, 0x74, 0x61, 0x72] ∧
      sizeOfField (headerField (Header.ofBytes bs) 124 12) = some 5 ∧ (Header.ofBytes bs)[156].toNat ≠ 0x35 ∧
      (joinedName (Header.ofBytes bs)).getLast? ≠ some 0x2F ∧ imgLen (extracting (bs ++ [])) < (extracting (bs ++ [])).tar.tpos + 512 + 5 :=
  ⟨headerAt_front (hdr_length _ (by decide) (by decide) (by decide) (by decide)) (by decide), by decide, by decide, by decide, by decide,
    by rw [imgLen_extracting (hdr_length _ (by decide) (by decide) (by decide) (by decide))]; decide⟩
/-- Vector Tb. -/
theorem witness_TarStepCreatesADirectory :
    let bs := hdrBytes [0x73, 0x75, 0x62, 0x2F] size0 0x35 magicBytes []
    (extracting (bs ++ [])).dec.phase = .done ∧ (extracting (bs ++ [])).tar.running = true ∧
      HeaderAt (extracting (bs ++ [])) (Header.ofBytes bs) ∧
      headerField (Header.ofBytes bs) 257 5 = [0x75, 0x73, 0x74, 0x61, 0x72] ∧
      sizeOfField (headerField (Header.ofBytes bs) 124 12) = some 0 ∧ (Header.ofBytes bs)[156].toNat = 0x35 :=
  ⟨rfl, rfl, headerAt_front (hdr_length _ (by decide) (by decide) (by decide) (by decide)) (by decide), by decide, by decide, by decide⟩

theorem contentAt_front {bs content : List Byte} (h1 : bs.length = 512) (h3 : content.length < 512) :
    ContentAt (extracting (bs ++ content)) content := by
  have h2 : (bs ++ content).length < 2 ^ 32 := by
    rw [List.length_append]
    omega
  have hn : (BitVec.ofNat 32 (bs ++ content).length).toNat = (bs ++ content).length := by
    rw [BitVec.toNat_ofNat, Nat.mod_eq_of_lt h2]
  have hl : (bs ++ content).length = 512 + content.length := by rw [List.length_append, h1]
  refine ⟨?_, ?_, fun i hi => ?_⟩
  · show 0 + 512 + content.length ≤ (BitVec.ofNat 32 (bs ++ content).length).toNat
    omega
  · show (BitVec.ofNat 32 (bs ++ content).length).toNat ≤ (BitVec.ofNat 32 (bs ++ content).length).toNat
    omega
  · show (Memory.ofBytes 0 (bs ++ content)).read (0 + 512 + i) = _
    rw [Memory.read_ofBytes, if_pos (by omega), List.getElem?_append_right (by omega)]
    simp [h1, hi]

/-- Vector Ta. -/
theorem witness_TarStepWritesAFile :
    let bs := hdrBytes aTxt size5 0x30 magicBytes []
    (extracting (bs ++ hello)).dec.phase = .done ∧ (extracting (bs ++ hello)).tar.running = true ∧
      HeaderAt (extracting (bs ++ hello)) (Header.ofBytes bs) ∧
      headerField (Header.ofBytes bs) 257 5 = [0x75, 0x73, 0x74, 0x61, 0x72] ∧
      sizeOfField (headerField (Header.ofBytes bs) 124 12) = some hello.length ∧
      ContentAt (extracting (bs ++ hello)) hello ∧ (Header.ofBytes bs)[156].toNat ≠ 0x35 ∧
      (joinedName (Header.ofBytes bs)).getLast? ≠ some 0x2F :=
  ⟨rfl, rfl, headerAt_front (hdr_length _ (by decide) (by decide) (by decide) (by decide)) (by decide), by decide, by decide, contentAt_front (hdr_length _ (by decide) (by decide) (by decide) (by decide)) (by decide), by decide,
    by decide⟩
/-- TAR_STEP on vector Tb goes on: it creates the directory and advances. -/
theorem witness_TarStepAdvances :
    let bs := hdrBytes [0x73, 0x75, 0x62, 0x2F] size0 0x35 magicBytes []
    (extracting (bs ++ [])).tar.running = true ∧
      ∃ t, exec .tarStep (extracting (bs ++ [])) = .next t ∧ t.tar.running = true := by
  have h := exec_tarStep_valid (size := 0) rfl rfl
    (headerAt_front (bs := hdrBytes [0x73, 0x75, 0x62, 0x2F] size0 0x35 magicBytes []) (rest := [])
      (hdr_length _ (by decide) (by decide) (by decide) (by decide)) (by decide)) (by decide) (by decide)
  have hd : (entryParsed (Header.ofBytes (hdrBytes [0x73, 0x75, 0x62, 0x2F] size0 0x35 magicBytes [])) 0
      (extracting (hdrBytes [0x73, 0x75, 0x62, 0x2F] size0 0x35 magicBytes [] ++ []))).tar.isdir = true := by decide
  rw [tarEmit, if_pos hd] at h
  exact ⟨rfl, _, h, rfl⟩
theorem witness_TarSizeReadsOctal :
    let s := holding (hdr aTxt size5 0x30 magicBytes [])
    s.dec.phase = .done ∧ headerField s.tar.hdr 124 12 = size5.take 11 ++ [0x00] ∧ (∀ b ∈ ([0x00] : List Byte), b = 0 ∨ b = 0x20) ∧
      (size5.take 11).getLast? = some 0x35 ∧ ∀ b ∈ size5.take 11, 0x30 ≤ b.toNat ∧ b.toNat ≤ 0x37 := by decide
theorem witness_TarSizeReadsOctal_bad :
    let s := holding (hdr aTxt sizeBad 0x30 magicBytes [])
    s.dec.phase = .done ∧ headerField s.tar.hdr 124 12 = sizeBad ++ List.replicate 10 0 ∧
      (∀ b ∈ List.replicate 10 (0 : Byte), b = 0 ∨ b = 0x20) ∧ sizeBad.getLast? = some 0x35 ∧
      ∃ b ∈ sizeBad, b.toNat < 0x30 ∨ 0x37 < b.toNat := by decide
/-- "/a/..b.": one slash, then "a", "/" and "b" with 0, 0 and 2 dots before them, and one dot at the end. -/
theorem witness_TarSanitizeNeutralisesTraversal :
    let s := naming [0x2F, 0x61, 0x2F, 0x2E, 0x2E, 0x62, 0x2E]
    let runs : List (Nat × Byte) := [(0, 0x61), (0, 0x2F), (2, 0x62)]
    let rest : List Byte := [0x61, 0x2F, 0x2E, 0x2E, 0x62, 0x2E]
    s.dec.phase = .done ∧ (∀ r ∈ runs, r.2 ≠ 0x2E) ∧
      rest = runs.flatMap (fun r => List.replicate r.1 0x2E ++ [r.2]) ++ List.replicate 1 0x2E ∧ rest.head? ≠ some 0x2F ∧
      s.tar.full = List.replicate 1 0x2F ++ rest := by decide
theorem witness_TarSanitizeNeutralisesTraversal_clean :
    (naming aTxt).tar.full.head? ≠ some 0x2F ∧ ¬ [0x2E, 0x2E] <:+: (naming aTxt).tar.full := by decide
theorem witness_TarEventsGoToTheSink :
    let s := { extracting (List.replicate 512 0 ++ hello) with tar := { (extracting []).tar with size := 5 } }
    s.dec.phase = .done ∧ hello.length = s.tar.size ∧ ContentAt s hello :=
  ⟨rfl, rfl,
    let c := contentAt_front (bs := List.replicate 512 0) (content := hello) List.length_replicate (by decide)
    ⟨c.inImage, c.inOut, c.bytes⟩⟩
theorem witness_TarEventsGoToTheSink_truncated :
    let s := { image hello with tar := { (image hello).tar with size := 600 } }
    s.dec.phase = .done ∧ imgLen s < s.tar.tpos + 512 + s.tar.size := by decide

/-! The machine. -/

theorem witness_StepRunsTheDecodedInstruction :
    let s := { p1 7 with cmds := [.issue .loadHeader] }
    s.cmds.head? ≠ some .powerOn ∧ s.cmds.head? ≠ some (.issue .start) ∧ (∀ bytes, s.cmds.head? ≠ some (.place bytes)) ∧
      s.dec.phase = .run ∧ s.dec.outPos ≠ s.dec.originalSize ∧ streamByte s 0 0 = some 0xE8 ∧
      decodeStream s.dec.prevByte [0xE8] = .ok (.call, []) :=
  ⟨by decide, by decide, (fun _ => by simp), by decide⟩
theorem witness_StepTakesPendingOperations :
    { image [] with cmds := [.issue .tarStart] }.cmds = .issue .tarStart :: [] ∧ (image []).dec.phase ≠ .run ∧ (extracting []).cmds = [] ∧
      (extracting []).dec.phase ≠ .run ∧ (extracting []).tar.running = true ∧ (image []).tar.running = false ∧
      { p1 7 with cmds := [.place hello] }.cmds = .place hello :: [] := ⟨rfl, by decide, rfl, by decide, rfl, rfl, rfl⟩
/-- START asked for during a session. -/
theorem witness_StepTakesPendingOperations_running :
    let s := { p1 7 with cmds := [.issue .start] }
    s.dec.phase = .run ∧ s.cmds.head? ≠ some .powerOn ∧ step s = .next { s with cmds := [] } := ⟨rfl, by decide, rfl⟩
theorem witness_HostWritesAndWaits :
    { p1 7 with cmds := [.issue .loadHeader] }.cmds = .issue .loadHeader :: [] ∧ (p1 7).dec.phase = .run ∧
      { extracting [] with cmds := [.issue .start] }.cmds = .issue .start :: [] ∧ (extracting []).dec.phase ≠ .run ∧
      (extracting []).tar.running = true ∧ { image [] with cmds := [.setTarStart 7] }.cmds = .setTarStart 7 :: [] ∧
      (image []).dec.phase ≠ .run ∧ (image []).tar.running = false := ⟨rfl, rfl, rfl, by decide, rfl, rfl, by decide, rfl⟩
/-- LOAD_HEADER asked for during a session waits: the step is an iteration of the main loop, and the flag is as it was (R7, R290). -/
theorem witness_HostWritesAndWaits_running :
    let s := { p1 7 with cmds := [.issue .loadHeader] }
    s.dec.phase = .run ∧ s.cmds.head? ≠ some .powerOn ∧ ∃ t, step s = .next t := ⟨rfl, by decide, _, rfl⟩
theorem witness_PowerOnResetsTheMachine : { p1 7 with cmds := [.powerOn] }.cmds = .powerOn :: [] := rfl
theorem witness_EveryStepKeepsMemoriesCanonical : (p1 7).memWf ∧ ∃ t, step (p1 7) = .next t :=
  ⟨⟨Memory.ofBytes_wf _ _, Memory.ofBytes_wf _ _⟩, _, rfl⟩
theorem witness_EveryStepKeepsTheInvariant : begun.Inv ∧ ∃ t, step begun = .next t := ⟨begun_inv, _, rfl⟩
theorem witness_LawfulRunsNeverFault : begun.Inv := begun_inv

end Sys2Proof.Tests
end

section
/-! PROOF. The class table of R92 read as one equivalence per class, and the candidate test as its complement on the literals. -/

namespace Sys2Proof

/-- The decoder by the values of the two bytes (R92). -/
theorem decodeMain_nat (prev b : Byte) :
    decodeMain prev b =
      if b.toNat = 0xE8 then .call
      else if b.toNat = 0xE9 then .jmp
      else if b.toNat / 16 = 8 ∧ prev.toNat = 0x0F then .jcc (BitVec.ofNat 4 b.toNat)
      else .lit b := by
  rw [decodeMain, classifyMain_nat]
  split_ifs <;> rfl

theorem decodeMain_eq_call_iff (prev b : Byte) : decodeMain prev b = .call ↔ b.toNat = 0xE8 := by
  rw [decodeMain_nat]
  split_ifs with hcall <;> simp [hcall]

theorem decodeMain_eq_jmp_iff (prev b : Byte) : decodeMain prev b = .jmp ↔ b.toNat = 0xE9 := by
  rw [decodeMain_nat]
  split_ifs with hcall hjmp <;> simp [*]

/-- A byte of the row `80`..`8F` carries the condition in its low nibble. -/
theorem ofNat_low_nibble_eq_iff {n : Nat} (h : n / 16 = 8) (c : BitVec 4) :
    BitVec.ofNat 4 n = c ↔ n = 0x80 + c.toNat := by
  rw [← BitVec.toNat_inj, BitVec.toNat_ofNat]
  omega

theorem decodeMain_eq_jcc_iff (prev b : Byte) (c : BitVec 4) :
    decodeMain prev b = .jcc c ↔ prev.toNat = 0x0F ∧ b.toNat = 0x80 + c.toNat := by
  rw [decodeMain_nat]
  split_ifs with hcall hjmp hjcc
  · simp only [false_iff]; omega
  · simp only [false_iff]; omega
  · obtain ⟨hrow, hprev⟩ := hjcc
    rw [Instr.jcc.injEq, ofNat_low_nibble_eq_iff hrow, and_iff_right hprev]
  · simp only [false_iff]; omega

theorem decodeMain_eq_lit_iff (prev b : Byte) :
    decodeMain prev b = .lit b ↔
      b.toNat ≠ 0xE8 ∧ b.toNat ≠ 0xE9 ∧ ¬(prev.toNat = 0x0F ∧ b.toNat / 16 = 8) := by
  rw [decodeMain_nat]
  split_ifs with hcall hjmp hjcc
  · simp [hcall]
  · simp [hjmp]
  · simp [hjcc]
  · simp [hcall, hjmp, and_comm.not.mp hjcc]

/-- A byte is no candidate exactly where the class table reads it as a literal (R92, R177). -/
theorem isCandidate_eq_false_iff (prev b : Byte) : isCandidate prev b = false ↔ decodeMain prev b = .lit b := by
  rw [decodeMain_eq_lit_iff, ← Bool.not_eq_true, isCandidate_nat]
  tauto

namespace Machine

/-- The main loop's candidate test is the document's predicate at the current `prev_byte` (R34). -/
theorem cand_eq_isCandidate (s : State) (b : Byte) : cand s b = isCandidate s.dec.prevByte b := rfl

/-- Settles O3: one equivalence per class of R92's table, the literals being the bytes that are no candidates. -/
theorem mainClassesFollowTheTable : Obligations.MainClassesFollowTheTable := by
  intro prev b
  refine ⟨decodeMain_eq_call_iff prev b, decodeMain_eq_jmp_iff prev b, decodeMain_eq_jcc_iff prev b,
    decodeMain_eq_lit_iff prev b, ?_⟩
  rintro s rfl
  rw [cand_eq_isCandidate, isCandidate_eq_false_iff]

end Machine
end Sys2Proof
end

section
/-! PROOF. The two updates of the probability model: when a slot's value stays as it is, and what the instructions leave alone (R142, R143). -/

namespace Sys2Proof.Machine

/-! ## The updated values -/

/-- `(2048 - p) >> 5` is zero exactly from 2017 on (R142). -/
theorem probUpValue_eq_self_iff (p : Prob) : probUpValue p = p ↔ 2017 ≤ p.toNat := by
  have hp := p.isLt
  rw [← BitVec.toNat_inj, probUpValue_toNat]
  omega

/-- `p >> 5` is zero exactly up to 31 (R143). -/
theorem probDownValue_eq_self_iff (p : Prob) : probDownValue p = p ↔ p.toNat ≤ 31 := by
  rw [← BitVec.toNat_inj, probDownValue_toNat]
  omega

/-! ## The instructions in a session -/

theorem exec_probUp {s : State} (h : s.dec.phase = .run) (slot : Slot) :
    exec (.probUp slot) s = .next (probUp slot s) :=
  inSession_run h _

theorem exec_probDown {s : State} (h : s.dec.phase = .run) (slot : Slot) :
    exec (.probDown slot) s = .next (probDown slot s) :=
  inSession_run h _

theorem probUp_prob_same (s : State) (slot : Slot) : (probUp slot s).prob[slot] = probUpValue s.prob[slot] := by
  simp

theorem probDown_prob_same (s : State) (slot : Slot) : (probDown slot s).prob[slot] = probDownValue s.prob[slot] := by
  simp

theorem probUp_otherSlotsSame (s : State) (slot : Slot) : OtherSlotsSame s (probUp slot s) slot :=
  fun _ h => prob_set_other h _

theorem probDown_otherSlotsSame (s : State) (slot : Slot) : OtherSlotsSame s (probDown slot s) slot :=
  fun _ h => prob_set_other h _

/-- Settles O12: the slot gets `probUpValue`, whose exact value is `probUpValue_toNat`; the bound is the slot's width of 11 bits. -/
theorem probUpRaisesTheSlot : Obligations.ProbUpRaisesTheSlot := by
  intro s slot hrun
  refine ⟨probUp slot s, exec_probUp hrun slot, ?_, ?_, ?_, probUp_otherSlotsSame s slot, rfl⟩
  · rw [probUp_prob_same, probUpValue_toNat]
  · exact Nat.le_of_lt_succ (BitVec.isLt _)
  · rw [probUp_prob_same]
    exact probUpValue_eq_self_iff _

/-- Settles O13: the slot gets `probDownValue`, whose exact value is `probDownValue_toNat`. -/
theorem probDownLowersTheSlot : Obligations.ProbDownLowersTheSlot := by
  intro s slot hrun
  refine ⟨probDown slot s, exec_probDown hrun slot, ?_, ?_, probDown_otherSlotsSame s slot, rfl⟩
  · rw [probDown_prob_same, probDownValue_toNat]
  · rw [probDown_prob_same]
    exact probDownValue_eq_self_iff _

end Sys2Proof.Machine
end

section
/-! PROOF. LIT's copy of one byte, and the three candidate bytes as uses of RESOLVE (R178 to R181). -/

namespace Sys2Proof.Machine

/-! ## What a consumed and an emitted byte leave alone -/

theorem advance_otherCursorsSame (k : StreamIx) (n : Nat) (s : State) : OtherCursorsSame s (advance k n s) [k] :=
  ⟨rfl, rfl, fun _ h => advance_pos_other (List.ne_of_not_mem_cons h) n s⟩

theorem emitted_read_same (v : Byte) (s : State) : (emitted v s).out.read s.dec.outPos.toNat = some v :=
  Memory.read_write_same _ _ _

theorem emitted_outSameOutside (v : Byte) (s : State) : OutSameOutside s (emitted v s) s.dec.outPos.toNat 1 :=
  fun _ h => Memory.read_write_other _ v (by omega)

/-! ## LIT (R178) -/

/-- The state after a literal has been copied: its byte consumed from stream0, emitted, and made `prev_byte`. -/
def literalCopied (v : Byte) (s : State) : State := setPrev v (emitted v (advance 0 1 s))

theorem copyLiteral_of_byte {s : State} {v : Byte} (hv : streamByte s 0 0 = some v)
    (hroom : s.dec.outPos.toNat < s.dec.originalSize.toNat) : copyLiteral s = .ok () (literalCopied v s) := by
  rw [copyLiteral, curRead1_of_byte hv, Res.bind_ok, outEmit_ok v (by exact hroom), Res.bind_ok, literalCopied]

theorem exec_lit {s : State} (hrun : s.dec.phase = .run) (b : Byte) : exec (.lit b) s = (copyLiteral s).done :=
  inSession_run hrun _

theorem exec_lit_of_byte {s : State} {v : Byte} (hrun : s.dec.phase = .run) (hv : streamByte s 0 0 = some v)
    (hroom : s.dec.outPos.toNat < s.dec.originalSize.toNat) (b : Byte) :
    exec (.lit b) s = .next (literalCopied v s) := by
  rw [exec_lit hrun, copyLiteral_of_byte hv hroom, Res.done_ok]

theorem literalCopied_frame (v : Byte) (s : State) : SessionFrame s (literalCopied v s) :=
  ⟨rfl, rfl, rfl, rfl, rfl, rfl⟩

/-- The bytes `80`..`8F` are those with high nibble 8. -/
theorem high_nibble_eight_iff (n : Nat) : n / 16 = 8 ↔ 0x80 ≤ n ∧ n ≤ 0x8F := by omega

/-- Settles O20: the class test is `decodeMain_eq_lit_iff`; LIT answers `literalCopied`. -/
theorem litCopiesOneByte : Obligations.LitCopiesOneByte := by
  intro s v hrun hv hroom
  refine ⟨?_, literalCopied v s, exec_lit_of_byte hrun hv hroom v, ?_, ?_, rfl, ?_, ?_, rfl, rfl, rfl,
    literalCopied_frame v s⟩
  · rw [decodeMain_eq_lit_iff, high_nibble_eight_iff]
  · exact emitted_read_same v (advance 0 1 s)
  · exact emitted_outSameOutside v (advance 0 1 s)
  · exact advance_pos_same 0 1 s
  · exact advance_otherCursorsSame 0 1 s

/-! ## CALL, JMP and JCC (R179 to R181) -/

theorem jccByte_eq_ofNat (c : BitVec 4) : jccByte c = BitVec.ofNat 8 (0x80 + c.toNat) := by
  rw [← jccByte_toNat, BitVec.ofNat_toNat, BitVec.setWidth_eq]

/-- After `0F` the byte of a JCC reads as that JCC. -/
theorem decodeMain_jccByte {prev : Byte} (hprev : prev = 0x0F) (c : BitVec 4) : decodeMain prev (jccByte c) = .jcc c :=
  (decodeMain_eq_jcc_iff prev _ c).mpr ⟨congrArg BitVec.toNat hprev, jccByte_toNat c⟩

theorem exec_call_eq_resolve (s : State) : exec .call s = exec (.resolve 0xE8 (slotOfPrev s.dec.prevByte) 1) s := rfl

theorem exec_jmp_eq_resolve (s : State) : exec .jmp s = exec (.resolve 0xE9 Config.slotJmp 2) s := rfl

theorem exec_jcc_eq_resolve (c : BitVec 4) (s : State) :
    exec (.jcc c) s = exec (.resolve (jccByte c) Config.slotJcc 2) s := rfl

/-- Settles O21: each class test gives the instruction back, and each instruction is RESOLVE by its definition, JCC at the byte `jccByte c`. -/
theorem candidatesResolve : Obligations.CandidatesResolve := by
  intro s c
  rw [← jccByte_eq_ofNat]
  exact ⟨⟨(decodeMain_eq_call_iff _ _).mpr rfl, exec_call_eq_resolve s⟩,
    ⟨(decodeMain_eq_jmp_iff _ _).mpr rfl, exec_jmp_eq_resolve s⟩,
    fun hprev => decodeMain_jccByte hprev c, exec_jcc_eq_resolve c s⟩

end Sys2Proof.Machine
end

section
/-! PROOF. Decoding what was encoded: the four classes of the main stream and the selectors of a tar header (R92, R98 to R102). -/

namespace Sys2Proof

/-! ## The main stream -/

/-- The byte of a main-stream instruction reads as that instruction wherever its context lets it occur (R92, R103). -/
theorem decodeStream_encode {prev : Byte} {i : Instr} (h : i.wellFormedAt prev = true) (hf : i.format = .main)
    (rest : List Byte) : decodeStream prev (encode i ++ rest) = .ok (i, rest) := by
  have one (b : Byte) (hb : decodeMain prev b = i) (he : encode i = [b]) :
      decodeStream prev (encode i ++ rest) = .ok (i, rest) := by rw [he, ← hb]; rfl
  cases i with
  | call => exact one _ ((decodeMain_eq_call_iff _ _).mpr rfl) rfl
  | jmp => exact one _ ((decodeMain_eq_jmp_iff _ _).mpr rfl) rfl
  | jcc c =>
    have hprev : prev = 0x0F := by simpa [Instr.wellFormedAt, Instr.wellFormed] using h
    exact one _ (Machine.decodeMain_jccByte hprev c) rfl
  | lit b =>
    have hb : isCandidate prev b = false := by
      simp only [Instr.wellFormedAt, Bool.and_eq_true, Bool.not_eq_true'] at h
      exact h.2
    exact one _ ((isCandidate_eq_false_iff _ _).mp hb) rfl
  | _ => cases hf

/-- Every byte reads as a well-formed main-stream instruction, whose byte it is (R102). -/
theorem decodeMain_wellFormedAt_encode (prev b : Byte) :
    (decodeMain prev b).wellFormedAt prev = true ∧ encode (decodeMain prev b) = [b] := by
  rcases hop : classifyMain prev b with _ | _ | c | v
  all_goals have hd : decodeMain prev b = _ := congrArg MainOp.toInstr hop
  · have hb := (decodeMain_eq_call_iff prev b).mp hd
    rw [hd, (byte_eq_iff b 0xE8).mpr hb]
    exact ⟨rfl, rfl⟩
  · have hb := (decodeMain_eq_jmp_iff prev b).mp hd
    rw [hd, (byte_eq_iff b 0xE9).mpr hb]
    exact ⟨rfl, rfl⟩
  · obtain ⟨hprev, hb⟩ := (decodeMain_eq_jcc_iff prev b c).mp hd
    rw [hd, (byte_eq_iff prev 0x0F).mpr hprev, (byte_eq_iff b (Machine.jccByte c)).mpr (hb.trans (jccByte_toNat c).symm)]
    exact ⟨rfl, rfl⟩
  · obtain rfl : v = b := by
      simp only [classifyMain] at hop
      split_ifs at hop
      exact (MainOp.lit.inj hop).symm
    have hc := (isCandidate_eq_false_iff prev v).mpr hd
    obtain ⟨hcall, hjmp, -⟩ := (decodeMain_eq_lit_iff prev v).mp hd
    have h8 : v ≠ 0xE8 := fun e => hcall (congrArg BitVec.toNat e)
    have h9 : v ≠ 0xE9 := fun e => hjmp (congrArg BitVec.toNat e)
    rw [hd]
    refine ⟨?_, rfl⟩
    simp only [MainOp.toInstr, Instr.wellFormedAt, Instr.wellFormed, Bool.and_eq_true, bne_iff_ne]
    exact ⟨⟨h8, h9⟩, by rw [hc]; rfl⟩

/-! ## The selectors of a header -/

theorem classifyMagic_gnuBytes (rest : List Byte) : classifyMagic (gnuBytes ++ rest) = .gnu := rfl

/-- "ustar" is read as itself where the GNU variant does not continue it (assumption log 15). -/
theorem classifyMagic_ustarBytes {rest : List Byte} (h : rest.take 3 ≠ [0x20, 0x20, 0x00]) :
    classifyMagic (ustarBytes ++ rest) = .ustar := by
  have h5 : (ustarBytes ++ rest).take 5 = ustarBytes := rfl
  have h8 : (ustarBytes ++ rest).take 8 = ustarBytes ++ rest.take 3 := rfl
  have hg : gnuBytes = ustarBytes ++ [0x20, 0x20, 0x00] := rfl
  unfold classifyMagic
  rw [h5, h8, hg, if_neg (by decide), if_neg (fun e => h (List.append_cancel_left e)), if_pos rfl]

/-- Five bytes that are neither the end marker nor "ustar" are read as the number they spell (R213). -/
theorem classifyMagic_bytesMsb {m : BitVec 40} (h0 : m ≠ 0) (hu : m ≠ magicUstar) (rest : List Byte) :
    classifyMagic (bytesMsb 5 m.toNat ++ rest) = .other m := by
  have h5 : (bytesMsb 5 m.toNat ++ rest).take 5 = bytesMsb 5 m.toNat := rfl
  have hm : BitVec.ofNat 40 (beNat (bytesMsb 5 m.toNat)) = m := by
    rw [beNat_bytesMsb5, BitVec.ofNat_toNat, BitVec.setWidth_eq]
  have ne {n : BitVec 40} (hn : m ≠ n) (bs : List Byte) (hbs : BitVec.ofNat 40 (beNat bs) = n) : bytesMsb 5 m.toNat ≠ bs :=
    fun e => hn (by rw [← hbs, ← e, hm])
  have hustar : bytesMsb 5 m.toNat ≠ ustarBytes := ne hu _ rfl
  have hgnu : (bytesMsb 5 m.toNat ++ rest).take 8 ≠ gnuBytes := fun e => hustar (congrArg (List.take 5) e)
  unfold classifyMagic
  rw [h5, if_neg (ne h0 _ rfl), if_neg hgnu, if_neg hustar, hm]

/-- The bytes of a header selector read as that selector. -/
theorem decodeMagic_encode {i : Instr} (h : i.wellFormed = true) (hf : i.format = .magic5 ∨ i.format = .magic8)
    {rest : List Byte} (hg : i = .tarMagicUstar → rest.take 3 ≠ [0x20, 0x20, 0x00]) :
    decodeMagic (encode i ++ rest) = .ok (i, rest) := by
  have hlen : ¬ (encode i ++ rest).length < 5 := by
    have he : (encode i).length = i.format.bytes := by cases i <;> rfl
    rw [List.length_append, he]
    rcases hf with e | e <;> rw [e] <;> simp only [Format.bytes] <;> omega
  rw [decodeMagic, if_neg hlen]
  cases i with
  | tarMagicEnd => rfl
  | tarMagicUstar =>
    rw [encode, classifyMagic_ustarBytes (hg rfl)]
    rfl
  | tarMagicGnu => rfl
  | tarMagicOther m =>
    simp only [Instr.wellFormed, Bool.and_eq_true, bne_iff_ne] at h
    rw [encode, classifyMagic_bytesMsb h.1 h.2]
    rfl
  | _ => simp [Instr.format] at hf

theorem decodeType_encode {i : Instr} (h : i.wellFormed = true) (hf : i.format = .typeFlag) (rest : List Byte) :
    decodeType (encode i ++ rest) = .ok (i, rest) := by
  cases i with
  | tarTypeDir => rfl
  | tarTypeFile f =>
    have hne : f ≠ 0x35 := bne_iff_ne.mp h
    have hc : classifyType f = .file f := if_neg hne
    show Except.ok ((classifyType f).toInstr, rest) = _
    rw [hc, TypeOp.toInstr]
  | _ => cases hf

namespace Machine

/-- Settles O1: by the format, each format's decoder undoes its encoding. -/
theorem decodeOfEncodeIsTheInstruction : Obligations.DecodeOfEncodeIsTheInstruction := by
  intro prev i rest hwf hf hg
  have hw : i.wellFormed = true := (Bool.and_eq_true_iff.mp hwf).1
  rcases hfmt : i.format with _ | _ | _ | _ | _
  · exact decodeStream_encode hwf hfmt rest
  · exact absurd hfmt hf
  · exact decodeMagic_encode hw (.inl hfmt) hg
  · exact decodeMagic_encode hw (.inr hfmt) hg
  · exact decodeType_encode hw hfmt rest

/-- Settles O2: by the class the byte falls in. -/
theorem everyMainByteIsOneInstruction : Obligations.EveryMainByteIsOneInstruction :=
  decodeMain_wellFormedAt_encode

/-- Settles O4: the six words are evaluated. -/
theorem sampleWordsDecode : Obligations.SampleWordsDecode := by
  unfold Obligations.SampleWordsDecode
  decide

end Machine
end Sys2Proof
end

section
/-! PROOF. RC_DECODE_BIT, RC_NORMALIZE and RC_INIT: what a decision leaves, when its normalisation settles, and the bounds R126 to R128 infer. -/

namespace Sys2Proof.Machine

/-! ## The bound (R126) -/

theorem boundNat_lt_range {s : State} (slot : Slot) (h : 2048 ≤ s.rc.range.toNat) : boundNat s slot < s.rc.range.toNat := by
  have hp := s.prob[slot].isLt
  have hle : boundNat s slot ≤ s.rc.range.toNat / 2048 * 2047 := Nat.mul_le_mul_left _ (by omega)
  omega

theorem boundNat_pos {s : State} {slot : Slot} (h : 2048 ≤ s.rc.range.toNat) (hp : 1 ≤ s.prob[slot].toNat) :
    1 ≤ boundNat s slot :=
  Nat.mul_pos (by omega) hp

/-- Settles O5: `boundNat_eq` and `bound_lt` for the exact value, and a slot's width of 11 bits for the rest. -/
theorem boundNeverWraps : Obligations.BoundNeverWraps := fun s slot =>
  ⟨boundNat_eq s slot, bound_lt s _, boundNat_lt_range slot, boundNat_pos⟩

/-! ## What the decision leaves (R122, R123, R127, R128) -/

/-- From a normalised range and a reachable slot, what is left of `range` needs at most one byte (R127). -/
theorem le_decidedRange {s : State} {slot : Slot} (hr : 2 ^ 24 ≤ s.rc.range.toNat)
    (hp : 31 ≤ s.prob[slot].toNat ∧ s.prob[slot].toNat ≤ 2017) : 2 ^ 16 ≤ decidedRange s slot := by
  obtain ⟨hlo, hhi⟩ := hp
  have h1 : s.rc.range.toNat / 2048 * 31 ≤ boundNat s slot := Nat.mul_le_mul_left _ hlo
  have h2 : boundNat s slot ≤ s.rc.range.toNat / 2048 * 2017 := Nat.mul_le_mul_left _ hhi
  unfold decidedRange
  split <;> omega

/-- The decision keeps `code` below `range` (R128). -/
theorem decidedCode_lt {s : State} {slot : Slot} (h : s.rc.code.toNat < s.rc.range.toNat) :
    decidedCode s slot < decidedRange s slot := by
  unfold decidedCode decidedRange decidedOne
  split <;> simp only [decide_eq_true_iff] at * <;> omega

theorem decidedProb_reach {s : State} {slot : Slot} (hp : 31 ≤ s.prob[slot].toNat ∧ s.prob[slot].toNat ≤ 2017) :
    31 ≤ decidedProb s slot ∧ decidedProb s slot ≤ 2017 := by
  unfold decidedProb
  split <;> omega

/-- A decision that settles leaves `range` normalised, consumes at most one byte and keeps `code` below `range` (R127, R128). -/
theorem settled_spec {s : State} {slot : Slot} {r : Nat × Nat × Nat} (h : settled s slot = some r) :
    2 ^ 24 ≤ r.1 ∧ r.2.2 ≤ 1 ∧ (decidedCode s slot < decidedRange s slot → r.2.1 < r.1) := by
  unfold settled at h
  split at h
  · cases h
    exact ⟨‹_›, Nat.zero_le _, id⟩
  · split at h
    · obtain ⟨v, -, rfl⟩ := Option.map_eq_some_iff.mp h
      have hv := v.isLt
      refine ⟨by omega, le_rfl, fun hlt => (Nat.mod_le _ _).trans_lt ?_⟩
      show _ < decidedRange s slot * 256
      omega
    · cases h

/-! ## Whether it settles -/

/-- A cursor read finds a byte, finds the stream used up, or faults. -/
theorem curRead1_cases (k : StreamIx) (s : State) :
    (∃ v, streamByte s k 0 = some v) ∨ s.demux.len[k] ≤ s.demux.pos[k] ∨
      s.demux.pos[k] < s.demux.len[k] ∧ ∃ f, curRead1 k s = .fault f := by
  rcases Nat.lt_or_ge s.demux.pos[k] s.demux.len[k] with hlt | hge
  · rcases hb : blobByte s (cursorAddress s k) with f | v
    · refine .inr (.inr ⟨hlt, f, ?_⟩)
      rw [curRead1, if_neg (by omega), hb]
      rfl
    · refine .inl ⟨v, ?_⟩
      unfold blobByte at hb
      split at hb
      · rename_i hsize
        split at hb
        · rename_i w hw
          cases hb
          rw [streamByte, if_pos ⟨hlt, hsize⟩]
          exact hw
        · cases hb
      · cases hb
  · exact .inr (.inl hge)

theorem rcNormalize_fault {s : State} {f : Fault} (hr : s.rc.range.toNat < 2 ^ 24) (hlt : s.demux.pos[3] < s.demux.len[3])
    (h : curRead1 3 s = .fault f) : rcNormalize s = .fault f := by
  obtain ⟨n, hn⟩ : ∃ n, rem s 3 = n + 1 := Nat.exists_eq_succ_of_ne_zero (Nat.sub_ne_zero_of_lt hlt)
  rw [rcNormalize, hn, normLoop, if_pos ((needNorm_iff s).mpr hr), h, Res.bind_fault]

/-- Where one byte is enough, a decision settles, runs dry, or faults at the byte. -/
theorem decodeBit_cases {s : State} {slot : Slot} (h : 2 ^ 16 ≤ decidedRange s slot) :
    (∃ r, settled s slot = some r) ∨ decidedRange s slot < 2 ^ 24 ∧ s.demux.len[3] ≤ s.demux.pos[3] ∨
      ∃ f, decodeBit slot s = .fault f := by
  unfold settled
  by_cases hge : 2 ^ 24 ≤ decidedRange s slot
  · exact .inl ⟨_, if_pos hge⟩
  · have hr : (decide1 slot s).2.rc.range.toNat < 2 ^ 24 := by rw [decide1_range]; omega
    rcases curRead1_cases 3 (decide1 slot s).2 with ⟨v, hv⟩ | hdry | ⟨hlt, f, hf⟩
    · rw [streamByte_congr (decide1_demux slot s) (decide1_blob slot s)] at hv
      rw [if_neg hge, if_pos h, hv]
      exact .inl ⟨_, rfl⟩
    · rw [decide1_demux] at hdry
      exact .inr (.inl ⟨by omega, hdry⟩)
    · refine .inr (.inr ⟨f, ?_⟩)
      rw [decodeBit, rcNormalize_fault hr hlt hf, Res.bind_fault]

/-! ## RC_DECODE_BIT (R121 to R125) -/

theorem exec_rcDecodeBit {s : State} (h : s.dec.phase = .run) (slot : Slot) :
    exec (.rcDecodeBit slot) s = (decodeBit slot s).outcome portBit :=
  inSession_run h _

/-- Settles O6: `decodeBit_settled`, with the bit latched in its port. -/
theorem decodeBitCompletes : Obligations.DecodeBitCompletes := by
  intro s slot r hrun hr
  obtain ⟨t, ht, ⟨hrange, hcode, hslot, hothers, hcursor⟩, hcur, hdec, hout, hports, hframe⟩ := decodeBit_settled hr
  have hbyte : t.ports.byte = s.ports.byte := congrArg Ports.byte hports
  have hword : t.ports.word = s.ports.word := congrArg Ports.word hports
  refine ⟨portBit (decidedOne s slot) t, ?_, rfl, hbyte, hword, ⟨hrange, hcode, hslot, hothers, hcursor⟩, hcur, hdec,
    fun a => congrArg (Memory.read · a) hout,
    hframe.trans ⟨rfl, rfl, rfl, rfl, rfl, rfl⟩⟩
  rw [exec_rcDecodeBit hrun, ht, Res.outcome_ok]

/-- The decoder's registers after the entry of StreamExhausted (R259). -/
theorem raiseExhausted_dec {s : State} {k : StreamIx} {n : Nat} (h : s.demux.pos[k] = n) :
    (raiseExhausted k s).dec = { s.dec with
      phase := .done, resolving := false, result := { tag := .partialAt k n, length := s.dec.outPos } } := by
  rw [← h]
  rfl

/-- Settles O7: `decodeBit_dry`; the entry of StreamExhausted touches the decoder's registers only. -/
theorem decodeBitRunsDry : Obligations.DecodeBitRunsDry := by
  intro s slot hrun hr hd
  refine ⟨raiseExhausted 3 (decide1 slot s).2, ?_, ?_, decide1_range slot s, decide1_code slot s, decide1_prob slot s,
    fun i hi => decide1_other hi s, decide1_ports slot s, decide1_demux slot s, fun a => congrArg (Memory.read · a) (decide1_out slot s),
    (decide1_frame slot s).trans ⟨rfl, rfl, rfl, rfl, rfl, rfl⟩⟩
  · rw [exec_rcDecodeBit hrun, decodeBit_dry hr hd.ge, Res.outcome_ended]
  · rw [raiseExhausted_dec (n := s.demux.len[3]) (by rw [decide1_demux]; exact hd), decide1_dec]

/-- Settles O8: of the three cases of `decodeBit_cases` only the settled one answers a state that still runs. -/
theorem decodeBitKeepsItsInvariants : Obligations.DecodeBitKeepsItsInvariants := by
  intro s t slot hrun hrange hlo hhi ht hgoes
  rw [exec_rcDecodeBit hrun] at ht
  rcases decodeBit_cases (le_decidedRange hrange ⟨hlo, hhi⟩) with ⟨r, hr⟩ | ⟨hlt, hdry⟩ | ⟨f, hf⟩
  · obtain ⟨u, hu, hd, -⟩ := decodeBit_settled hr
    rw [hu, Res.outcome_ok, Host.Outcome.next.injEq] at ht
    subst ht
    obtain ⟨h1, h2, h3⟩ := settled_spec hr
    obtain ⟨hplo, hphi⟩ := decidedProb_reach ⟨hlo, hhi⟩
    rw [portBit_rc, portBit_prob, portBit_demux, hd.range, hd.code, hd.slotValue, hd.cursor]
    exact ⟨h1, hplo, hphi, by omega, fun hlt => h3 (decidedCode_lt hlt)⟩
  · rw [decodeBit_dry hlt hdry, Res.outcome_ended, Host.Outcome.next.injEq] at ht
    subst ht
    cases hgoes
  · rw [hf] at ht
    cases ht

/-! ## RC_NORMALIZE (R124) -/

theorem exec_rcNormalize {s : State} (h : s.dec.phase = .run) : exec .rcNormalize s = (rcNormalize s).done :=
  inSession_run h _

theorem normShift_eq (v : Byte) (s : State) :
    normShift v s = { s with
      rc := { range := s.rc.range <<< 8, code := BitVec.ofNat 32 (s.rc.code.toNat * 256 + v.toNat) }
      demux := { s.demux with pos := s.demux.pos.set 3 (s.demux.pos[3] + 1) } } := by
  rw [← shiftIn_eq]
  rfl

/-- Settles O9: the three cases of the loop's test. -/
theorem normalizeIsTheLoop : Obligations.NormalizeIsTheLoop := by
  intro s hrun
  refine ⟨fun hge => ?_, fun hlt hdry => ?_, fun v hlt hv => ?_⟩
  · rw [exec_rcNormalize hrun, rcNormalize_of_ge hge, Res.done_ok]
  · rw [exec_rcNormalize hrun, rcNormalize_dry hlt hdry, Res.done_ended]
    rfl
  · rw [← normShift_eq, exec_rcNormalize hrun, exec_rcNormalize (by exact hrun), rcNormalize_step hlt hv]

/-! ## RC_INIT (R120) -/

theorem exec_rcInit {s : State} (h : s.dec.phase = .run) : exec .rcInit s = (rcInit s).done :=
  inSession_run h _

/-- Settles O10: `rcInit_ok` gives the state, the cursor of stream3 five further. -/
theorem rcInitSeedsCode : Obligations.RcInitSeedsCode := by
  intro s s0 s1 s2 s3 s4 hrun h0 h1 h2 h3 h4
  obtain ⟨code, hcode, hok⟩ := rcInit_ok h0 h1 h2 h3 h4
  refine ⟨setRc 0xFFFFFFFF code (advance 3 5 s), ?_, hcode, rfl, advance_pos_same 3 5 s, advance_otherCursorsSame 3 5 s, rfl, rfl,
    fun _ => rfl, rfl, ⟨rfl, rfl, rfl, rfl, rfl, rfl⟩⟩
  rw [exec_rcInit hrun, hok, Res.done_ok]

/-! ## PROB_INIT (R141) -/

theorem probInit_slot (s : State) (i : Slot) : (probInit s).prob[i].toNat = 1024 := by
  simp [Config.probInit]

/-- Settles O11: PROB_INIT answers `probInit s`. -/
theorem probInitSetsEverySlot : Obligations.ProbInitSetsEverySlot := fun s hrun =>
  ⟨probInit s, inSession_run hrun _, probInit_slot s, rfl⟩

end Sys2Proof.Machine
end

section
/-! PROOF. DEMUX_SETUP and the cursor operations: the clipped windows, what a read answers, and the entry of StreamExhausted (R156 to R161). -/

namespace Sys2Proof.Machine

/-! ## DEMUX_SETUP (R156, R65) -/

/-- The windows stand in address order and do not meet (R65). -/
theorem windows_disjoint (d : Descriptor) (n : Nat) {k l : StreamIx} (h : k < l) :
    (windows d n).base[k] + (windows d n).len[k] ≤ (windows d n).base[l] := by
  have hm := declaredStart_mono d (Fin.succ_le_castSucc_iff.mpr h)
  rw [windows_end, windows_base]
  omega

/-- Where all declared sizes fit, a window has its declared size. -/
theorem windows_len_of_fit {d : Descriptor} {n : Nat} (h : declaredStart d 4 ≤ n) (k : StreamIx) :
    (windows d n).len[k] = d.size[k].toNat := by
  have hlast := declaredStart_mono d (Fin.le_last k.succ)
  have hsucc := declaredStart_succ d k
  rw [windows_len, windows_base]
  change declaredStart d k.succ ≤ declaredStart d 4 at hlast
  omega

/-- After a declared end at or past `N` every later stream is empty. -/
theorem windows_len_of_past {d : Descriptor} {n : Nat} {k l : StreamIx} (h : n ≤ declaredStart d k.succ) (hkl : k < l) :
    (windows d n).len[l] = 0 := by
  have hm := declaredStart_mono d (Fin.succ_le_castSucc_iff.mpr hkl)
  have hsucc := declaredStart_succ d l
  rw [windows_len, windows_base]
  omega

/-- Settles O15: DEMUX_SETUP answers the windows of the launch descriptor over BLOB. -/
theorem demuxSetupClipsWindows : Obligations.DemuxSetupClipsWindows := by
  intro s hrun
  refine ⟨demuxSetup s, inSession_run hrun _, fun k => ⟨windows_base _ _ k, windows_len _ _ k, windows_pos _ _ k⟩, rfl,
    fun k l hkl => windows_disjoint _ _ hkl, fun k => ?_, fun h k => windows_len_of_fit h k, fun k l h hkl => windows_len_of_past h hkl⟩
  exact (windows_end _ _ k).trans_le (Nat.min_le_right _ _)

/-! ## CUR_FETCH, CUR_READ1 and CUR_READ4BE (R157 to R161) -/

section
variable {s : State} (hrun : s.dec.phase = .run) (k : StreamIx)
include hrun

theorem exec_curFetch : exec (.curFetch k) s = (curFetch k s).outcome portByte := inSession_run hrun _

theorem exec_curRead1 : exec (.curRead1 k) s = (curRead1 k s).outcome portByte := inSession_run hrun _

theorem exec_curRead4be : exec (.curRead4be k) s = (curRead4be k s).outcome portWord := inSession_run hrun _

theorem exec_curFetch_exhausted (h : s.demux.len[k] ≤ s.demux.pos[k]) :
    exec (.curFetch k) s = .next (raiseExhausted k s) := by
  rw [exec_curFetch hrun, curFetch_exhausted h, Res.outcome_ended]

theorem exec_curRead1_exhausted (h : s.demux.len[k] ≤ s.demux.pos[k]) :
    exec (.curRead1 k) s = .next (raiseExhausted k s) := by
  rw [exec_curRead1 hrun, curRead1_exhausted h, Res.outcome_ended]

theorem exec_curRead4be_exhausted (h : s.demux.len[k] < s.demux.pos[k] + 4) :
    exec (.curRead4be k) s = .next (raiseExhausted k s) := by
  rw [exec_curRead4be hrun, curRead4be_exhausted h, Res.outcome_ended]

end

/-- Settles O16: `curFetch_of_byte`, `curRead1_of_byte`, and the entry of StreamExhausted where the stream is used up. -/
theorem curReadsGiveTheNextByte : Obligations.CurReadsGiveTheNextByte := by
  intro s k hrun
  refine ⟨fun h i hi => ?_, fun v hv => ⟨?_, portByte v (advance k 1 s), ?_, rfl, advance_pos_same k 1 s,
    advance_otherCursorsSame k 1 s, rfl, rfl, rfl, fun _ => rfl, ⟨rfl, rfl, rfl, rfl, rfl, rfl⟩⟩⟩
  · obtain rfl | rfl : i = .curFetch k ∨ i = .curRead1 k := by simpa using hi
    · exact exec_curFetch_exhausted hrun k h
    · exact exec_curRead1_exhausted hrun k h
  · rw [exec_curFetch hrun, curFetch_of_byte hv, Res.outcome_ok]
    rfl
  · rw [exec_curRead1 hrun, curRead1_of_byte hv, Res.outcome_ok]

/-- Settles O17: `curRead4be_of_word`, with the word latched in its port. -/
theorem curRead4beConsumesAWord : Obligations.CurRead4beConsumesAWord := by
  intro s k a0 a1 a2 a3 hrun hw
  refine ⟨portWord (be32 [a0, a1, a2, a3]) (advance k 4 s), ?_, be32_toNat a0 a1 a2 a3, rfl, rfl, advance_pos_same k 4 s,
    advance_otherCursorsSame k 4 s, rfl, rfl, rfl, fun _ => rfl, ⟨rfl, rfl, rfl, rfl, rfl, rfl⟩⟩
  rw [exec_curRead4be hrun, curRead4be_of_word hw, Res.outcome_ok]

/-- Settles O18: each of the three operations enters StreamExhausted before it reads. -/
theorem shortStreamRaisesExhausted : Obligations.ShortStreamRaisesExhausted := by
  rintro s k i hrun (⟨rfl | rfl, h⟩ | ⟨rfl, h⟩)
  · exact exec_curFetch_exhausted hrun k h
  · exact exec_curRead1_exhausted hrun k h
  · exact exec_curRead4be_exhausted hrun k h

end Sys2Proof.Machine
end

section
/-! PROOF. What every instruction keeps: one rule for all of `exec`, and the invariants and frames that follow from it. -/

namespace Sys2Proof.Machine

/-- A property that the updates of a session and of the extractor keep is kept by every instruction, where the four operations that write whole
components keep it from this state. -/
theorem exec_keeps {R : State → Prop} {i : Instr} {s t : State} (k : SessionKept R)
    (hext : ofExtractor i = true → ExtractorKept R) (hprob : i = .probInit → R (probInit s))
    (hdemux : i = .demuxSetup → R (demuxSetup s)) (hstart : i = .start → R (startState s))
    (hload : i = .loadHeader → ∀ l c, R { s with launch := l, cmds := c }) (h : R s) (ht : exec i s = .next t) : R t := by
  rcases instr_kinds i with hi | hi | rfl | rfl
  · by_cases h1 : i = .demuxSetup
    · subst h1
      rcases inSession_next ht with ⟨-, ht⟩ | ⟨-, rfl⟩
      · cases ht
        exact hdemux rfl
      · exact h
    · by_cases h2 : i = .probInit
      · subst h2
        rcases inSession_next ht with ⟨-, ht⟩ | ⟨-, rfl⟩
        · cases ht
          exact hprob rfl
        · exact h
      · exact k.ofExec hi h1 h2 h ht
  · exact (hext hi).ofExec hi h ht
  · exact k.ofStart h (hstart rfl) ht
  · rw [execLoadHeader_next ht]
    exact hload rfl _ _

/-! ## The slots stay reachable (R144) -/

/-- Every slot lies in 31..2017. -/
def SlotsReachable (s : State) : Prop := ∀ k : Slot, 31 ≤ s.prob[k].toNat ∧ s.prob[k].toNat ≤ 2017

theorem probInit_slotsReachable (s : State) : SlotsReachable (probInit s) := fun k => by
  rw [probInit_slot]
  omega

/-- Writing a reachable value to one slot keeps all of them reachable. -/
theorem SlotsReachable.set {s t : State} (h : SlotsReachable s) {slot : Slot} {v : Prob} (hv : 31 ≤ v.toNat ∧ v.toNat ≤ 2017)
    (ht : t.prob = s.prob.set slot v) : SlotsReachable t := fun k => by
  rw [ht]
  by_cases hk : k = slot
  · subst hk
    simpa using hv
  · rw [prob_set_other hk]
    exact h k

theorem slotsReachable_sessionKept : SessionKept SlotsReachable where
  rc _ _ h := h
  probUp _ slot h := h.set (probUpValue_reach (h slot).1 (h slot).2) rfl
  probDown _ slot h := h.set (probDownValue_reach (h slot).1 (h slot).2) rfl
  advance _ _ _ h := h
  emitted _ _ _ h := h
  latches _ _ _ _ _ _ h := h
  finish _ _ h := h
  ports _ _ h := h

theorem slotsReachable_extractorKept : ExtractorKept SlotsReachable where
  tar _ _ h := h
  sink _ _ h := h

/-- Settles O14: the two updates keep the range, and PROB_INIT and START set 1024. -/
theorem everyInstructionKeepsSlotsReachable : Obligations.EveryInstructionKeepsSlotsReachable := fun _ s _ h ht =>
  exec_keeps slotsReachable_sessionKept (fun _ => slotsReachable_extractorKept) (fun _ => probInit_slotsReachable s) (fun _ => h)
    (fun _ => probInit_slotsReachable (demuxSetup s)) (fun _ _ _ => h) h ht

/-! ## The memories stay canonical -/

theorem memWf_sessionKept : SessionKept State.memWf where
  rc _ _ h := h
  probUp _ _ h := h
  probDown _ _ h := h
  advance _ _ _ h := h
  emitted _ _ _ h := ⟨h.1, Memory.write_wf h.2 _ _⟩
  latches _ _ _ _ _ _ h := h
  finish _ _ h := h
  ports _ _ h := h

theorem memWf_extractorKept : ExtractorKept State.memWf where
  tar _ _ h := h
  sink _ _ h := h

/-- Every instruction keeps both memories canonical: OUT is written a byte at a time or emptied, BLOB not at all. -/
theorem exec_memWf {i : Instr} {s t : State} (h : s.memWf) (ht : exec i s = .next t) : t.memWf :=
  exec_keeps memWf_sessionKept (fun _ => memWf_extractorKept) (fun _ => h) (fun _ => h) (fun _ => ⟨h.1, List.Pairwise.nil⟩)
    (fun _ _ _ => h) h ht

/-! ## Cursors only move forward (R162) -/

/-- The windows of `s`, and no cursor behind that of `s`. -/
structure CursorsFrom (s t : State) : Prop where
  base : t.demux.base = s.demux.base
  len : t.demux.len = s.demux.len
  pos : ∀ k : StreamIx, s.demux.pos[k] ≤ t.demux.pos[k]

theorem CursorsFrom.refl (s : State) : CursorsFrom s s := ⟨rfl, rfl, fun _ => le_rfl⟩

theorem le_advance_pos (k l : StreamIx) (n : Nat) (s : State) : s.demux.pos[l] ≤ (advance k n s).demux.pos[l] := by
  by_cases h : l = k
  · subst h
    rw [advance_pos_same]
    omega
  · rw [advance_pos_other h]

theorem CursorsFrom.of_same {s t u : State} (h : CursorsFrom s t) (hd : u.demux = t.demux) : CursorsFrom s u :=
  ⟨by rw [hd, h.base], by rw [hd, h.len], by rw [hd]; exact h.pos⟩

theorem cursorsFrom_sessionKept (s : State) : SessionKept (CursorsFrom s) where
  rc _ _ h := h.of_same rfl
  probUp _ _ h := h.of_same rfl
  probDown _ _ h := h.of_same rfl
  advance t k n h := ⟨h.base, h.len, fun l => (h.pos l).trans (le_advance_pos k l n t)⟩
  emitted _ _ _ h := h.of_same rfl
  latches _ _ _ _ _ _ h := h.of_same rfl
  finish _ _ h := h.of_same rfl
  ports _ _ h := h.of_same rfl

theorem cursorsFrom_extractorKept (s : State) : ExtractorKept (CursorsFrom s) where
  tar _ _ h := h.of_same rfl
  sink _ _ h := h.of_same rfl

/-- Settles O19: the one update of a cursor moves it forward. -/
theorem cursorsOnlyMoveForward : Obligations.CursorsOnlyMoveForward := by
  intro i s t hstart hdemux ht
  have h0 := CursorsFrom.refl s
  have h : CursorsFrom s t :=
    exec_keeps (cursorsFrom_sessionKept s) (fun _ => cursorsFrom_extractorKept s) (fun _ => h0.of_same rfl) (fun e => absurd e hdemux)
      (fun e => absurd e hstart) (fun _ _ _ => h0.of_same rfl) h0 ht
  exact ⟨h.base, h.len, h.pos⟩

/-! ## BLOB and the sink (R60, R63) -/

/-- A property of the launch record, BLOB and the sink is kept by a session, which touches none of them. -/
theorem untouched_sessionKept (P : Launch → Blob → List SinkEvent → Prop) : SessionKept fun t => P t.launch t.blob t.sink where
  rc _ _ h := h
  probUp _ _ h := h
  probDown _ _ h := h
  advance _ _ _ h := h
  emitted _ _ _ h := h
  latches _ _ _ _ _ _ h := h
  finish _ _ h := h
  ports _ _ h := h

/-- BLOB is that of `s`. -/
def BlobSame (s t : State) : Prop := t.blob = s.blob

theorem blobSame_extractorKept (s : State) : ExtractorKept (BlobSame s) where
  tar _ _ h := h
  sink _ _ h := h

theorem exec_blob {i : Instr} {s t : State} (ht : exec i s = .next t) : t.blob = s.blob :=
  exec_keeps (R := BlobSame s) (untouched_sessionKept fun _ b _ => b = s.blob) (fun _ => blobSame_extractorKept s) (fun _ => rfl)
    (fun _ => rfl) (fun _ => rfl) (fun _ _ _ => rfl) rfl ht

/-- The sink starts with the events `es`. -/
def SinkFrom (es : List SinkEvent) (t : State) : Prop := es <+: t.sink

theorem sinkFrom_extractorKept (es : List SinkEvent) : ExtractorKept (SinkFrom es) where
  tar _ _ h := h
  sink _ _ h := h.trans (List.prefix_append _ _)

theorem exec_sink_prefix {i : Instr} {s t : State} (ht : exec i s = .next t) : s.sink <+: t.sink :=
  have h : SinkFrom s.sink s := List.prefix_refl _
  exec_keeps (R := SinkFrom s.sink) (untouched_sessionKept fun _ _ es => s.sink <+: es) (fun _ => sinkFrom_extractorKept _) (fun _ => h) (fun _ => h)
    (fun _ => h) (fun _ _ _ => h) h ht

theorem exec_sink_of_not_extractor {i : Instr} {s t : State} (hi : ofExtractor i = false) (ht : exec i s = .next t) :
    t.sink = s.sink :=
  exec_keeps (untouched_sessionKept fun _ _ es => es = s.sink) (fun e => absurd (hi.symm.trans e) (by decide)) (fun _ => rfl) (fun _ => rfl)
    (fun _ => rfl) (fun _ _ _ => rfl) rfl ht

/-- Settles O38: `exec_keeps` for BLOB, for the front part of the sink, and for the sink of what is no extractor operation. -/
theorem blobIsReadOnlyAndSinkAppendOnly : Obligations.BlobIsReadOnlyAndSinkAppendOnly := by
  intro i s t ht
  obtain ⟨es, hes⟩ := exec_sink_prefix ht
  exact ⟨exec_blob ht, ⟨es, hes.symm⟩, fun hi => exec_sink_of_not_extractor hi ht⟩

/-! ## Operations outside their phase (R189, R285, R286) -/

theorem exec_ofSession_outside {i : Instr} {s : State} (hi : ofSession i = true) (hp : s.dec.phase ≠ .run) :
    exec i s = .next s := by
  cases i
  case start | loadHeader | tarStartOp | tarStep | tarName | tarSize | tarKind | tarSanitize | tarDir | tarFile | tarAdvance
    | tarMagicEnd | tarMagicUstar | tarMagicGnu | tarMagicOther | tarTypeDir | tarTypeFile => cases hi
  all_goals exact inSession_other hp _

theorem exec_ofExtractor_outside {i : Instr} {s : State} (hi : ofExtractor i = true) (hp : s.dec.phase ≠ .done) :
    exec i s = .next s := by
  cases i
  case tarStartOp | tarStep | tarName | tarSize | tarKind | tarSanitize | tarDir | tarFile | tarAdvance
    | tarMagicEnd | tarMagicUstar | tarMagicGnu | tarMagicOther | tarTypeDir | tarTypeFile => exact inExtraction_other hp _
  all_goals cases hi

theorem exec_start_no_effect {s : State} (h : s.dec.phase = .run ∨ s.blob.size < 20) : exec .start s = .next s := if_pos h

/-- Settles O36: the gates `inSession` and `inExtraction`, and START's own test. -/
theorem operationsOutsideTheirPhaseDoNothing : Obligations.OperationsOutsideTheirPhaseDoNothing := fun _ _ =>
  ⟨exec_ofSession_outside, exec_ofExtractor_outside, exec_start_no_effect⟩

/-! ## `Done` is left only by START (R189) -/

/-- The session's registers and OUT are those of `s`. -/
def SessionSame (s t : State) : Prop :=
  t.dec = s.dec ∧ t.rc = s.rc ∧ t.prob = s.prob ∧ t.demux = s.demux ∧ t.out = s.out

theorem SessionSame.refl (s : State) : SessionSame s s := ⟨rfl, rfl, rfl, rfl, rfl⟩

theorem sessionSame_extractorKept (s : State) : ExtractorKept (SessionSame s) where
  tar _ _ h := h
  sink _ _ h := h

theorem exec_done_sessionSame {i : Instr} {s t : State} (hi : i ≠ .start) (hp : s.dec.phase = .done) (ht : exec i s = .next t) :
    SessionSame s t := by
  rcases instr_kinds i with hk | hk | rfl | rfl
  · rw [exec_ofSession_outside hk (by rw [hp]; decide)] at ht
    cases ht
    exact .refl s
  · exact (sessionSame_extractorKept s).ofExec hk (.refl s) ht
  · exact absurd rfl hi
  · rw [execLoadHeader_next ht]
    exact .refl s

/-- Settles O37: session operations do nothing in `Done`, and the extractor writes its own registers and the sink. -/
theorem doneIsLeftOnlyByStart : Obligations.DoneIsLeftOnlyByStart := by
  intro i s t hi hp ht
  obtain ⟨hdec, hrc, hprob, hdemux, hout⟩ := exec_done_sessionSame hi hp ht
  exact ⟨hdec, hrc, hprob, hdemux, fun a => congrArg (Memory.read · a) hout⟩

/-! ## OUT is append-only (R61) -/

/-- What a session that had reached `s` may have done to OUT: bytes appended from `out_pos` on and below ORIGINAL_SIZE. -/
structure OutFrom (s t : State) : Prop where
  grown : s.dec.outPos.toNat ≤ t.dec.outPos.toNat
  bounded : t.dec.outPos.toNat ≤ s.dec.originalSize.toNat
  originalSize : t.dec.originalSize = s.dec.originalSize
  same : ∀ a, a < s.dec.outPos.toNat ∨ s.dec.originalSize.toNat ≤ a → t.out.read a = s.out.read a

theorem OutFrom.refl {s : State} (h : s.dec.outPos.toNat ≤ s.dec.originalSize.toNat) : OutFrom s s :=
  ⟨le_rfl, h, rfl, fun _ _ => rfl⟩

/-- A property of OUT, `out_pos` and ORIGINAL_SIZE is kept by every update that leaves them alone. -/
theorem OutFrom.of_same {s t u : State} (h : OutFrom s t) (ho : u.out = t.out) (hp : u.dec.outPos = t.dec.outPos)
    (hs : u.dec.originalSize = t.dec.originalSize) : OutFrom s u :=
  ⟨by rw [hp]; exact h.grown, by rw [hp]; exact h.bounded, hs.trans h.originalSize, by rw [ho]; exact h.same⟩

theorem OutFrom.emitted {s t : State} (h : OutFrom s t) (v : Byte) (hroom : t.dec.outPos.toNat < t.dec.originalSize.toNat) :
    OutFrom s (emitted v t) := by
  have hsucc : (Machine.emitted v t).dec.outPos.toNat = t.dec.outPos.toNat + 1 := outPos_succ hroom
  have hsize := congrArg BitVec.toNat h.originalSize
  have hgrown := h.grown
  refine ⟨by omega, by omega, h.originalSize, fun a ha => ?_⟩
  rw [← h.same a ha]
  exact Memory.read_write_other _ v (by omega)

theorem outFrom_sessionKept (s : State) : SessionKept (OutFrom s) where
  rc _ _ h := h.of_same rfl rfl rfl
  probUp _ _ h := h.of_same rfl rfl rfl
  probDown _ _ h := h.of_same rfl rfl rfl
  advance _ _ _ h := h.of_same rfl rfl rfl
  emitted _ v hroom h := h.emitted v hroom
  latches _ _ _ _ _ _ h := h.of_same rfl rfl rfl
  finish _ _ h := h.of_same rfl rfl rfl
  ports _ _ h := h.of_same rfl rfl rfl

theorem outFrom_extractorKept (s : State) : ExtractorKept (OutFrom s) where
  tar _ _ h := h.of_same rfl rfl rfl
  sink _ _ h := h.of_same rfl rfl rfl

/-- Settles O39: OUT is written by OUT_EMIT alone, at `out_pos`; START has no effect in `Run`. -/
theorem outIsAppendOnly : Obligations.OutIsAppendOnly := by
  intro i s t hrun hle ht
  have h0 : OutFrom s s := .refl hle
  have h : OutFrom s t := by
    by_cases hi : i = .start
    · rw [hi, exec_start_no_effect (.inl hrun)] at ht
      cases ht
      exact h0
    · exact exec_keeps (outFrom_sessionKept s) (fun _ => outFrom_extractorKept s) (fun _ => h0.of_same rfl rfl rfl)
        (fun _ => h0.of_same rfl rfl rfl) (fun e => absurd e hi) (fun _ _ _ => h0.of_same rfl rfl rfl) h0 ht
  exact ⟨h.grown, h.bounded, h.originalSize, h.same⟩

end Sys2Proof.Machine
end

section
/-! PROOF. RESOLVE, PATCH, EMIT4, OUT_EMIT and STEP, branch by branch: the opcode byte, the decision, the patch (R176, R182 to R185). -/

namespace Sys2Proof.Machine

/-! ## Cursors that stay -/

theorem OtherCursorsSame.trans {s t u : State} {l m : List StreamIx} (h : OtherCursorsSame s t l) (g : OtherCursorsSame t u m) :
    OtherCursorsSame s u (l ++ m) := by
  obtain ⟨hbase, hlen, hpos⟩ := h
  obtain ⟨gbase, glen, gpos⟩ := g
  refine ⟨gbase.trans hbase, glen.trans hlen, fun k hk => ?_⟩
  rw [List.mem_append, not_or] at hk
  exact (gpos k hk.2).trans (hpos k hk.1)

theorem OtherCursorsSame.pos_eq {s t : State} {l : List StreamIx} (h : OtherCursorsSame s t l) {k : StreamIx} (hk : k ∉ l) :
    t.demux.pos[k] = s.demux.pos[k] := h.2.2 k hk

/-- A stream whose cursor stays offers the bytes it offered. -/
theorem OtherCursorsSame.streamByte {s t : State} {l : List StreamIx} (h : OtherCursorsSame s t l) (hb : t.blob = s.blob)
    {k : StreamIx} (hk : k ∉ l) (i : Nat) : streamByte t k i = streamByte s k i := by
  obtain ⟨hbase, hlen, hpos⟩ := h
  unfold Machine.streamByte cursorAddress
  rw [hbase, hlen, hpos k hk, hb]

theorem OtherCursorsSame.streamWord {s t : State} {l : List StreamIx} (h : OtherCursorsSame s t l) (hb : t.blob = s.blob)
    {k : StreamIx} (hk : k ∉ l) {a0 a1 a2 a3 : Byte} (hw : streamWord s k a0 a1 a2 a3) : streamWord t k a0 a1 a2 a3 := by
  unfold Machine.streamWord
  simp only [h.streamByte hb hk]
  exact hw

/-! ## The opcode byte (R182) -/

theorem opcodeEmitted_read (b : Byte) (s : State) : (opcodeEmitted b s).out.read s.dec.outPos.toNat = some b :=
  Memory.read_write_same _ _ _

theorem opcodeEmitted_outSameOutside (b : Byte) (s : State) : OutSameOutside s (opcodeEmitted b s) s.dec.outPos.toNat 1 :=
  emitted_outSameOutside b (advance 0 1 { s with dec := { s.dec with resolving := true, b := b } })

theorem opcodeEmitted_pos_zero (b : Byte) (s : State) : (opcodeEmitted b s).demux.pos[0] = s.demux.pos[0] + 1 :=
  advance_pos_same 0 1 s

theorem opcodeEmitted_otherCursorsSame (b : Byte) (s : State) : OtherCursorsSame s (opcodeEmitted b s) [0] :=
  advance_otherCursorsSame 0 1 s

theorem opcodeEmitted_pos_three (b : Byte) (s : State) : (opcodeEmitted b s).demux.pos[3] = s.demux.pos[3] :=
  (opcodeEmitted_otherCursorsSame b s).pos_eq (k := 3) (by decide)

/-- The opcode byte on its way out changes nothing a decision depends on. -/
theorem settled_opcodeEmitted (b : Byte) (s : State) (slot : Slot) : settled (opcodeEmitted b s) slot = settled s slot := by
  unfold settled
  rw [(opcodeEmitted_otherCursorsSame b s).streamByte rfl (by decide)]
  rfl

/-- Settles O22: `resolve_last`, where `out_pos` after the opcode byte is ORIGINAL_SIZE. -/
theorem candidateThatFillsOutCompletes : Obligations.CandidateThatFillsOutCompletes := by
  intro s i v b slot k hrun hcand hv hfull
  have hpos : s.dec.outPos + 1 = s.dec.originalSize := (outPos_succ_eq (by omega)).mpr hfull
  refine ⟨finishComplete (opcodeEmitted b s), ?_, opcodeEmitted_read b s, opcodeEmitted_outSameOutside b s, ?_,
    opcodeEmitted_pos_zero b s, opcodeEmitted_otherCursorsSame b s, rfl, rfl, rfl, ⟨rfl, rfl, rfl, rfl, rfl, rfl⟩⟩
  · rw [exec_candidate hrun hcand, resolve_last b slot k hv hfull, Res.done_ended]
  · rw [← hpos]
    rfl

/-! ## The decision of a candidate (R182) -/

/-- Where a candidate stands once its bit is known: the opcode byte is out and the decision has settled. -/
structure CandidateDecided (s u : State) (b : Byte) (slot : Slot) (r : Nat × Nat × Nat) : Prop where
  out : u.out = (opcodeEmitted b s).out
  dec : u.dec = (opcodeEmitted b s).dec
  opcode : u.demux.pos[0] = s.demux.pos[0] + 1
  cursors : OtherCursorsSame s u [0, 3]
  decision : DecisionTaken s u slot r
  ports : u.ports = s.ports
  frame : SessionFrame s u

section
variable {s : State} {i : Instr} {v b : Byte} {slot : Slot} {k : StreamIx}
  (hrun : s.dec.phase = .run) (hcand : candidateOf s i = some (b, slot, k)) (hv : streamByte s 0 0 = some v)
  (hroom : s.dec.outPos.toNat + 1 < s.dec.originalSize.toNat)
include hrun hcand hv hroom

/-- With room left, a candidate whose decision settles is what RESOLVE does after the bit. -/
theorem exec_candidate_settled {r : Nat × Nat × Nat} (hr : settled s slot = some r) :
    ∃ u, exec i s = (resolveBit b k (decidedOne s slot) u).done ∧ CandidateDecided s u b slot r := by
  obtain ⟨u, hu, ⟨hrange, hcode, hslot, hothers, hcursor⟩, hcur, hdec, hout, hports, hframe⟩ :=
    decodeBit_settled ((settled_opcodeEmitted b s slot).trans hr)
  refine ⟨u, ?_, hout, hdec, ?_, (opcodeEmitted_otherCursorsSame b s).trans hcur, ⟨hrange, hcode, hslot, hothers, ?_⟩, hports,
    (opcodeEmitted_frame b s).trans hframe⟩
  · rw [exec_candidate hrun hcand, resolve_more b slot k hv hroom, hu, Res.bind_ok]
    rfl
  · exact (hcur.pos_eq (k := 0) (by decide)).trans (opcodeEmitted_pos_zero b s)
  · rw [hcursor, opcodeEmitted_pos_three]

theorem exec_candidate_dry (hr : decidedRange s slot < 2 ^ 24) (hd : s.demux.pos[3] = s.demux.len[3]) :
    exec i s = .next (raiseExhausted 3 (decide1 slot (opcodeEmitted b s)).2) := by
  have hdry : (opcodeEmitted b s).demux.len[3] ≤ (opcodeEmitted b s).demux.pos[3] := by
    rw [opcodeEmitted_pos_three]
    exact hd.ge
  rw [exec_candidate hrun hcand, resolve_more b slot k hv hroom, decodeBit_dry (by exact hr) hdry, Res.bind_ended, Res.done_ended]

end

/-- Settles O23: after a decision 0 the opcode byte becomes `prev_byte` and the latch is cleared. -/
theorem candidateDecidedZero : Obligations.CandidateDecidedZero := by
  intro s i v b slot k r hrun hcand hv hroom hbit hr
  obtain ⟨u, hu, hd⟩ := exec_candidate_settled hrun hcand hv hroom hr
  obtain ⟨hrange, hcode, hslot, hothers, hcursor⟩ := hd.decision
  refine ⟨setResolving false (setPrev b u), ?_, ?_, fun a ha => ?_, ?_, hd.opcode, hd.cursors,
    ⟨hrange, hcode, hslot, hothers, hcursor⟩, hd.ports, hd.frame.trans ⟨rfl, rfl, rfl, rfl, rfl, rfl⟩⟩
  · rw [hu, hbit, resolveBit, if_neg (by decide), Res.done_ok]
  · rw [setResolving_out, setPrev_out, hd.out, opcodeEmitted_read]
  · rw [setResolving_out, setPrev_out, hd.out, opcodeEmitted_outSameOutside b s a ha]
  · simp only [setResolving, setPrev, hd.dec]
    rfl

/-- Settles O25: the entry of StreamExhausted after the decision, the opcode byte out. -/
theorem candidateRunsDry : Obligations.CandidateRunsDry := by
  intro s i v b slot k hrun hcand hv hroom hr hd
  have hdemux : (decide1 slot (opcodeEmitted b s)).2.demux = (opcodeEmitted b s).demux := decide1_demux _ _
  have hout : (decide1 slot (opcodeEmitted b s)).2.out = (opcodeEmitted b s).out := decide1_out _ _
  refine ⟨_, exec_candidate_dry hrun hcand hv hroom hr hd, ?_, fun a ha => ?_, ?_, ?_, ?_, decide1_range slot (opcodeEmitted b s),
    decide1_code slot (opcodeEmitted b s), decide1_prob slot (opcodeEmitted b s), fun j hj => decide1_other hj (opcodeEmitted b s),
    decide1_ports slot (opcodeEmitted b s),
    ((opcodeEmitted_frame b s).trans (decide1_frame slot _)).trans ⟨rfl, rfl, rfl, rfl, rfl, rfl⟩⟩
  · rw [raiseExhausted_out, hout, opcodeEmitted_read]
  · rw [raiseExhausted_out, hout, opcodeEmitted_outSameOutside b s a ha]
  · rw [raiseExhausted_dec (n := s.demux.len[3]), decide1_dec]
    · rfl
    · rw [hdemux]
      exact (opcodeEmitted_pos_three b s).trans hd
  · rw [raiseExhausted_demux, hdemux, opcodeEmitted_pos_zero]
  · unfold OtherCursorsSame
    rw [raiseExhausted_demux, hdemux]
    exact opcodeEmitted_otherCursorsSame b s

/-- A well-formed candidate takes its address from stream 1 or 2 (R155). -/
theorem candidate_stream {s : State} {i : Instr} {b : Byte} {slot : Slot} {k : StreamIx} (hwf : i.wellFormed = true)
    (hcand : candidateOf s i = some (b, slot, k)) : k ∉ [(0 : StreamIx), 3] := by
  cases i <;> simp only [candidateOf, reduceCtorEq, Option.some.injEq, Prod.mk.injEq] at hcand
  case resolve b' slot' k' =>
    obtain ⟨-, -, rfl⟩ := hcand
    simp only [Instr.wellFormed, Bool.and_eq_true, beq_iff_eq] at hwf
    rw [hwf.2, addressStream]
    split <;> decide
  all_goals
    obtain ⟨-, -, rfl⟩ := hcand
    decide

/-- Settles O26: after a decision 1 PATCH finds too few bytes and enters StreamExhausted. -/
theorem candidateLacksAddress : Obligations.CandidateLacksAddress := by
  intro s i v b slot k r hrun hwf hcand hv hroom hbit hr hshort
  obtain ⟨u, hu, hd⟩ := exec_candidate_settled hrun hcand hv hroom hr
  obtain ⟨hrange, hcode, hslot, hothers, hcursor⟩ := hd.decision
  obtain ⟨-, hlen, hpos⟩ := hd.cursors
  have hk := hpos k (candidate_stream hwf hcand)
  refine ⟨raiseExhausted k u, ?_, ?_, fun a ha => ?_, ?_, hd.opcode, hd.cursors,
    ⟨hrange, hcode, hslot, hothers, hcursor⟩, hd.ports, hd.frame.trans ⟨rfl, rfl, rfl, rfl, rfl, rfl⟩⟩
  · rw [hu, hbit, resolveBit, if_pos rfl, patch_exhausted (by rw [hlen, hk]; exact hshort), Res.bind_ended, Res.done_ended]
  · rw [raiseExhausted_out, hd.out, opcodeEmitted_read]
  · rw [raiseExhausted_out, hd.out, opcodeEmitted_outSameOutside b s a ha]
  · rw [raiseExhausted_dec hk, hd.dec]
    rfl

/-! ## PATCH and EMIT4 (R183, R184) -/

/-- What writing the patch leaves of the registers around it. -/
structure PatchFrame (s t : State) (p n : Nat) : Prop where
  outside : OutSameOutside s t p n
  resolving : p + n ≠ s.dec.originalSize.toNat → t.dec.resolving = s.dec.resolving
  latch : t.dec.b = s.dec.b
  rc : t.rc = s.rc
  prob : t.prob = s.prob
  ports : t.ports = s.ports
  frame : SessionFrame s t

theorem exec_emit4 {s : State} (h : s.dec.phase = .run) (dest : Word) :
    exec (.emit4 dest) s = (emit4 dest { s with dec := { s.dec with dest := dest } }).done :=
  inSession_run h _

/-- Settles O28: `emit4_spec` from the state with `dest` latched. -/
theorem emit4WritesWhatFits : Obligations.Emit4WritesWhatFits := by
  intro s dest n hrun hroom hn
  obtain ⟨t, ht, hw, hout, hres, hb, hrest⟩ :=
    emit4_spec (s := { s with dec := { s.dec with dest := dest } }) (dest := dest) hrun rfl hroom hn
  refine ⟨t, ?_, ⟨hw.bytes, hw.outPos, hw.prev, hw.last, hw.dest, hw.originalSize, hw.full, hw.room⟩, hout, hres, hb, ?_, ?_, ?_, ?_, ?_⟩
  · rw [exec_emit4 hrun, ht]
    split <;> rfl
  all_goals rw [hrest]
  exact ⟨rfl, rfl, rfl, rfl, rfl, rfl⟩

/-- PATCH with an address word: what it leaves, and that it ends the session where the patch fills OUT. -/
theorem patch_spec {s : State} {k : StreamIx} {a0 a1 a2 a3 : Byte} {dest : Word} {n : Nat} (hrun : s.dec.phase = .run)
    (hw : streamWord s k a0 a1 a2 a3) (hroom : s.dec.outPos.toNat < s.dec.originalSize.toNat)
    (hn : n = min 4 (s.dec.originalSize.toNat - s.dec.outPos.toNat))
    (hdest : (dest.toNat + s.dec.outPos.toNat + 4) % 2 ^ 32 =
      a0.toNat * 2 ^ 24 + a1.toNat * 2 ^ 16 + a2.toNat * 2 ^ 8 + a3.toNat) :
    ∃ t, (patch k s = if s.dec.outPos.toNat + n = s.dec.originalSize.toNat then .ended t else .ok () t) ∧
      PatchWritten s t s.dec.outPos.toNat n dest ∧ PatchFrame s t s.dec.outPos.toNat n ∧
      t.demux.pos[k] = s.demux.pos[k] + 4 ∧ OtherCursorsSame s t [k] := by
  have hd : rebase (be32 [a0, a1, a2, a3]) s.dec.outPos = dest := rebase_eq_iff.mpr (hdest.trans (be32_toNat a0 a1 a2 a3).symm)
  obtain ⟨t, ht, hp, hout, hres, hb, hrest⟩ := emit4_spec (s := patchRead k dest s) (dest := dest) hrun rfl hroom hn
  have hdemux : t.demux = (advance k 4 s).demux := by rw [hrest]; rfl
  refine ⟨t, ?_, ⟨hp.bytes, hp.outPos, hp.prev, hp.last, hp.dest, hp.originalSize, hp.full, hp.room⟩,
    ⟨hout, hres, hb, ?_, ?_, ?_, ?_⟩, ?_, ?_⟩
  · rw [patch_of_word hw, hd, ht]
    rfl
  · rw [hrest]
    rfl
  · rw [hrest]
    rfl
  · rw [hrest]
    rfl
  · rw [hrest]
    exact ⟨rfl, rfl, rfl, rfl, rfl, rfl⟩
  · rw [hdemux, advance_pos_same]
  · unfold OtherCursorsSame
    rw [hdemux]
    exact advance_otherCursorsSame k 4 s

theorem exec_patch {s : State} (h : s.dec.phase = .run) (b : Byte) (k : StreamIx) : exec (.patch b k) s = (patch k s).done :=
  inSession_run h _

/-- Settles O27: `patch_exhausted` and `patch_spec`. -/
theorem patchRebasesTheTarget : Obligations.PatchRebasesTheTarget := by
  intro s b k hrun
  refine ⟨fun hshort => ?_, fun a0 a1 a2 a3 dest n hw hroom hn hdest => ?_⟩
  · rw [exec_patch hrun, patch_exhausted hshort, Res.done_ended]
    rfl
  · obtain ⟨t, ht, hp, hf, hk, hcur⟩ := patch_spec hrun hw hroom hn hdest
    refine ⟨t, ?_, hp, hf.outside, hf.resolving, hf.latch, hk, hcur, hf.rc, hf.prob, hf.ports, hf.frame⟩
    rw [exec_patch hrun, ht]
    split <;> rfl

/-- After a decision 1, with an address word: the state RESOLVE answers is that of the patch, its latch cleared. -/
theorem resolveBit_one_of_patch {s t : State} {b : Byte} {k : StreamIx} {full : Prop} [Decidable full]
    (h : patch k s = if full then .ended t else .ok () t) (hfull : full → t.dec.resolving = false) :
    (resolveBit b k true s).done = .next (setResolving false t) := by
  rw [resolveBit, if_pos rfl, h]
  split
  · rename_i hf
    have e : setResolving false t = t := by rw [setResolving, ← hfull hf]
    rw [e]
    rfl
  · rfl

/-- Settles O24: RESOLVE's patch is `patch_spec` from where the decision leaves the candidate. -/
theorem candidateDecidedOnePatches : Obligations.CandidateDecidedOnePatches := by
  intro s i v b a0 a1 a2 a3 slot k r dest n hrun hwf hcand hv hw hroom hn hbit hr hdest
  obtain ⟨u, hu, hd⟩ := exec_candidate_settled hrun hcand hv hroom hr
  have hk := candidate_stream hwf hcand
  have hpos : u.dec.outPos.toNat = s.dec.outPos.toNat + 1 := by rw [hd.dec]; exact opcodeEmitted_outPos b (by omega)
  have hsize : u.dec.originalSize = s.dec.originalSize := by rw [hd.dec]; rfl
  obtain ⟨t, ht, hp, hf, hadv, hcur⟩ := patch_spec (dest := dest) (n := n) (by rw [hd.dec]; exact hrun)
    (hd.cursors.streamWord hd.frame.blob hk hw) (by rw [hpos, hsize]; exact hroom) (by rw [hpos, hsize]; exact hn)
    (by rw [hpos, ← hdest]; rfl)
  rw [hpos] at hp hf
  have hexec := hu.trans (hbit ▸ resolveBit_one_of_patch ht fun h => (hp.full (hpos ▸ h)).2.1)
  have hk' : 0 ∉ [k] ∧ 3 ∉ [k] := by simpa [eq_comm] using hk
  obtain ⟨hrange, hcode, hslot, hothers, hcursor⟩ := hd.decision
  refine ⟨setResolving false t, hexec, ?_, ⟨hp.bytes, hp.outPos, hp.prev, hp.last, hp.dest, hp.originalSize.trans hsize, ?_, ?_⟩,
    fun a ha => ?_, rfl, ?_, ?_, ?_, hd.cursors.trans hcur, ⟨?_, ?_, ?_, fun j hj => ?_, ?_⟩, hf.ports.trans hd.ports,
    (hd.frame.trans hf.frame).trans ⟨rfl, rfl, rfl, rfl, rfl, rfl⟩⟩
  · rw [setResolving_out, hf.outside _ (.inl (by omega)), hd.out, opcodeEmitted_read]
  · intro h
    obtain ⟨h1, -, h3⟩ := hp.full (by rw [hsize]; exact h)
    exact ⟨h1, rfl, by rw [← hsize]; exact h3⟩
  · intro h
    obtain ⟨h1, h2⟩ := hp.room (by rw [hsize]; exact h)
    exact ⟨h1, h2.trans (by rw [hd.dec]; rfl)⟩
  · rw [setResolving_out, hf.outside a (by omega), hd.out, opcodeEmitted_outSameOutside b s a (by omega)]
  · exact hf.latch.trans (by rw [hd.dec]; rfl)
  · exact (hcur.pos_eq hk'.1).trans hd.opcode
  · exact hadv.trans (congrArg (· + 4) (hd.cursors.pos_eq hk))
  · exact (congrArg (·.range.toNat) hf.rc).trans hrange
  · exact (congrArg (·.code.toNat) hf.rc).trans hcode
  · rw [setResolving_prob, hf.prob, hslot]
  · rw [setResolving_prob, hf.prob, hothers j hj]
  · exact (hcur.pos_eq hk'.2).trans hcursor

/-! ## OUT_EMIT (R185) -/

theorem exec_outEmit {s : State} (h : s.dec.phase = .run) (v : Byte) : exec (.outEmit v) s = (outEmit v s).done :=
  inSession_run h _

theorem outEmit_fault {s : State} (v : Byte) (h : s.dec.originalSize.toNat ≤ s.dec.outPos.toNat) :
    outEmit v s = .fault (.outOutOfRange s.dec.outPos.toNat) :=
  if_neg (by simpa [BitVec.ult] using h)

/-- Settles O29: `outEmit_ok` with room, `outEmit_fault` without. -/
theorem outEmitAppends : Obligations.OutEmitAppends := by
  intro s v hrun
  refine ⟨fun hroom => ⟨emitted v s, ?_, emitted_read_same v s, emitted_outSameOutside v s, outPos_succ hroom, rfl, rfl, rfl, rfl, rfl,
    ⟨rfl, rfl, rfl, rfl, rfl, rfl⟩⟩, fun hfull => ?_⟩
  · rw [exec_outEmit hrun, outEmit_ok v hroom, Res.done_ok]
  · rw [exec_outEmit hrun, outEmit_fault v hfull, Res.done_fault]

/-! ## STEP (R176) -/

theorem exec_step {s : State} (h : s.dec.phase = .run) : exec .step s = mainLoop s := inSession_run h _

theorem execMain_eq (op : MainOp) (s : State) : execMain op s = exec op.toInstr s := by cases op <;> rfl

theorem mainLoop_full {s : State} (h : s.dec.outPos = s.dec.originalSize) : mainLoop s = .next (finishComplete s) :=
  if_pos ((outFull_iff s).mpr h)

section
variable {s : State} (h : s.dec.outPos ≠ s.dec.originalSize)
include h

theorem mainLoop_exhausted (hlen : s.demux.len[0] ≤ s.demux.pos[0]) : mainLoop s = .next (raiseExhausted 0 s) := by
  rw [mainLoop, if_neg ((outFull_iff s).not.mpr h), curFetch_exhausted hlen]

theorem mainLoop_of_byte {b : Byte} (hb : streamByte s 0 0 = some b) : mainLoop s = exec (decodeMain s.dec.prevByte b) s := by
  rw [mainLoop, if_neg ((outFull_iff s).not.mpr h), curFetch_of_byte hb]
  exact execMain_eq _ _

end

/-- Settles O30: the three cases of the main loop's tests. -/
theorem stepIsTheMainLoop : Obligations.StepIsTheMainLoop := by
  intro s hrun
  rw [exec_step hrun]
  exact ⟨mainLoop_full, mainLoop_exhausted, fun _ h hb => mainLoop_of_byte h hb⟩

end Sys2Proof.Machine
end

section
/-! PROOF. START: the state it seeds, the seed that is too short, and the decoder's registers it leaves (R175, R192, R251). -/

namespace Sys2Proof.Machine

/-! ## The state START seeds -/

theorem startState_demux (s : State) : (startState s).demux = windows s.launch.desc s.blob.size := rfl

theorem exec_start {s : State} (hp : s.dec.phase ≠ .run) (hn : 20 ≤ s.blob.size) :
    exec .start s = (rcInit (startState s)).done :=
  if_neg (not_or.mpr ⟨hp, Nat.not_lt.mpr hn⟩)

/-- What stream3 offers after START's set-up: BLOB from its declared start on, as far as window and BLOB reach. -/
theorem startState_streamByte {s : State} {i : Nat}
    (h : declaredStart s.launch.desc 3 + i < min (declaredStart s.launch.desc 4) s.blob.size) :
    streamByte (startState s) 3 i = s.blob.cells.read (declaredStart s.launch.desc 3 + i) := by
  have hbase : (startState s).demux.base[(3 : StreamIx)] = declaredStart s.launch.desc 3 := by
    rw [startState_demux, windows_base]
    exact Nat.min_eq_left (by change declaredStart s.launch.desc 3 ≤ _; omega)
  have hend := windows_end s.launch.desc s.blob.size 3
  have hpos : (startState s).demux.pos[(3 : StreamIx)] = 0 := windows_pos _ _ 3
  have haddr : cursorAddress (startState s) 3 = declaredStart s.launch.desc 3 := by
    rw [cursorAddress, hbase, hpos, Nat.add_zero]
  change (startState s).demux.base[(3 : StreamIx)] + (startState s).demux.len[(3 : StreamIx)] =
    min (declaredStart s.launch.desc 4) s.blob.size at hend
  unfold streamByte
  rw [haddr, hpos, if_pos ⟨by omega, by change _ < s.blob.size; omega⟩]
  rfl

/-- Settles O32: the five bytes at the start of stream3 are the seed `rcInit_ok` takes from `startState`. -/
theorem startBeginsASession : Obligations.StartBeginsASession := by
  intro s s0 s1 s2 s3 s4 hp hn hfit hsize h0 h1 h2 h3 h4
  have hend : declaredStart s.launch.desc 3 + 5 ≤ min (declaredStart s.launch.desc 4) s.blob.size := by
    have : declaredStart s.launch.desc 4 = declaredStart s.launch.desc 3 + s.launch.desc.size[3].toNat := rfl
    omega
  have seed : ∀ i < 5, streamByte (startState s) 3 i = s.blob.cells.read (declaredStart s.launch.desc 3 + i) := fun i hi =>
    startState_streamByte (by omega)
  obtain ⟨code, hcode, hok⟩ := rcInit_ok ((seed 0 (by decide)).trans h0) ((seed 1 (by decide)).trans h1)
    ((seed 2 (by decide)).trans h2) ((seed 3 (by decide)).trans h3) ((seed 4 (by decide)).trans h4)
  refine ⟨setRc 0xFFFFFFFF code (advance 3 5 (startState s)), ?_, rfl, rfl, rfl, rfl, rfl, probInit_slot (demuxSetup s), hcode, rfl,
    fun k => ⟨windows_base _ _ k, windows_len _ _ k, ?_⟩, fun a => rfl, rfl, rfl, rfl, rfl, rfl⟩
  · rw [exec_start hp hn, hok, Res.done_ok]
  · rw [setRc_demux]
    split
    · rename_i hk
      rw [hk, advance_pos_same]
      exact congrArg (· + 5) (windows_pos _ _ 3)
    · rename_i hk
      rw [advance_pos_other hk]
      exact windows_pos _ _ k

/-! ## A seed that is too short (R192) -/

theorem advance_zero (k : StreamIx) (s : State) : advance k 0 s = s := by
  simp [advance]

theorem advance_advance (k : StreamIx) (m n : Nat) (s : State) : advance k n (advance k m s) = advance k (m + n) s := by
  simp [advance, Nat.add_assoc]

/-- The seed loop on a stream3 that has fewer bytes left than it asks for takes them all and enters StreamExhausted. -/
theorem seedLoop_short {m n : Nat} {s : State} (hlt : n < m) (hlen : s.demux.len[3] = s.demux.pos[3] + n)
    (hbytes : ∀ i < n, (streamByte s 3 i).isSome = true) :
    ∃ rc, seedLoop m s = .ended (raiseExhausted 3 { advance 3 n s with rc := rc }) := by
  induction n generalizing m s with
  | zero =>
    obtain ⟨m, rfl⟩ := Nat.exists_eq_succ_of_ne_zero hlt.ne'
    refine ⟨s.rc, ?_⟩
    rw [seedLoop, curRead1_exhausted hlen.le, advance_zero, Res.bind_ended]
  | succ n ih =>
    obtain ⟨m, rfl⟩ := Nat.exists_eq_succ_of_ne_zero (Nat.ne_of_gt (Nat.zero_lt_of_lt hlt))
    obtain ⟨v, hv⟩ := Option.isSome_iff_exists.mp (hbytes 0 (Nat.succ_pos n))
    obtain ⟨rc, hrc⟩ := ih (m := m) (s := setRc s.rc.range (shiftIn s.rc.code v) (advance 3 1 s)) (by omega)
      (by
        have := advance_pos_same 3 1 s
        change s.demux.len[3] = (advance 3 1 s).demux.pos[(3 : StreamIx)] + n
        rw [this]
        change s.demux.len[3] = s.demux.pos[3] + 1 + n
        omega)
      (fun i hi => by
        rw [streamByte_setRc, streamByte_advance]
        exact hbytes (1 + i) (by omega))
    refine ⟨rc, ?_⟩
    rw [seedLoop_step hv, hrc, Nat.add_comm n 1, ← advance_advance]
    rfl

/-- The length of stream3's window. -/
theorem startState_len_three (s : State) : (startState s).demux.len[(3 : StreamIx)] =
    min (declaredStart s.launch.desc 4) s.blob.size - min (declaredStart s.launch.desc 3) s.blob.size := by
  rw [startState_demux, windows_len, windows_base]
  rfl

/-- START on a stream3 of fewer than five bytes ends where the seed runs dry. -/
theorem rcInit_short {s : State} {n : Nat} (hplaced : ∀ a, a < s.blob.size → (s.blob.cells.read a).isSome = true)
    (hlen : (startState s).demux.len[(3 : StreamIx)] = n) (hn : n < 5) :
    ∃ rc, rcInit (startState s) = .ended (raiseExhausted 3 { advance 3 n (startState s) with rc := rc }) := by
  refine seedLoop_short hn ?_ fun i hi => ?_
  · change (startState s).demux.len[(3 : StreamIx)] = (windows s.launch.desc s.blob.size).pos[(3 : StreamIx)] + n
    rw [windows_pos, hlen, Nat.zero_add]
  · have hi' := startState_len_three s
    rw [hlen] at hi'
    rw [streamByte_setRc, startState_streamByte (by omega)]
    exact hplaced _ (by omega)

/-- Settles O33: `rcInit_short`, the cursor of stream3 at the end of its window. -/
theorem startWithoutSeedEndsPartial : Obligations.StartWithoutSeedEndsPartial := by
  intro s n hp hn hplaced hlen hlt
  obtain ⟨rc, hrc⟩ := rcInit_short hplaced ((startState_len_three s).trans hlen.symm) hlt
  have hpos : (advance 3 n (startState s)).demux.pos[(3 : StreamIx)] = n := by
    rw [advance_pos_same]
    exact (congrArg (· + n) (windows_pos _ _ 3)).trans (Nat.zero_add n)
  refine ⟨raiseExhausted 3 { advance 3 n (startState s) with rc := rc }, ?_, rfl, rfl, rfl, ?_, hpos, rfl, rfl, rfl, rfl, rfl⟩
  · rw [exec_start hp hn, hrc, Res.done_ended]
  · exact congrArg (fun p => Result.mk (.partialAt 3 p) 0) hpos

end Sys2Proof.Machine
end

section
/-! PROOF. Two states that agree on a session: every operation of a session answers agreeing states (R37, R38, R40, R281). -/

namespace Sys2Proof.Machine

/-- Two states agree on a session, and on the result record where it is over. -/
structure SessionAgree (s t : State) : Prop extends SessionEq s t where
  result : s.dec.phase = .done → t.dec.result = s.dec.result

/-- Two endings agree: both return the same value, both end, or both fault alike. -/
inductive Res.Agree {α : Type} : Res α → Res α → Prop
  | ok (a : α) {s t : State} (h : SessionAgree s t) : Agree (.ok a s) (.ok a t)
  | ended {s t : State} (h : SessionAgree s t) : Agree (.ended s) (.ended t)
  | fault (f : Fault) : Agree (.fault f) (.fault f)

theorem Res.Agree.bind {α β : Type} {r r' : Res α} {k : α → State → Res β} (h : r.Agree r')
    (hk : ∀ a s t, SessionAgree s t → (k a s).Agree (k a t)) : (r.bind k).Agree (r'.bind k) := by
  cases h with
  | ok a h => exact hk a _ _ h
  | ended h => exact .ended h
  | fault f => exact .fault f

/-- Where one of two agreeing operations answers a next state, so does the other, and the states agree. -/
theorem Res.Agree.next {r r' : Res Unit} {t : State} (h : r.Agree r') (ht : r.done = .next t) :
    ∃ t', r'.done = .next t' ∧ SessionAgree t t' := by
  cases h with
  | ok a h =>
    cases ht
    exact ⟨_, rfl, h⟩
  | ended h =>
    cases ht
    exact ⟨_, rfl, h⟩
  | fault f => cases ht

namespace SessionAgree

variable {s t : State} (h : SessionAgree s t)
include h

/-! ## Updates -/

theorem setRc (range code : Word) : SessionAgree (setRc range code s) (setRc range code t) := { h with rc := rfl }

theorem advance (k : StreamIx) (n : Nat) : SessionAgree (advance k n s) (advance k n t) :=
  { h with demux := by rw [Machine.advance, Machine.advance, h.demux] }

theorem setPrev (v : Byte) : SessionAgree (setPrev v s) (setPrev v t) := { h with prevByte := rfl }

theorem setResolving (r : Bool) : SessionAgree (setResolving r s) (setResolving r t) := { h with resolving := rfl }

theorem emitted (v : Byte) : SessionAgree (emitted v s) (emitted v t) :=
  { h with
    outPos := congrArg (· + 1) h.outPos
    out := by rw [Machine.emitted, Machine.emitted, h.out, h.outPos] }

theorem probUp (slot : Slot) : SessionAgree (probUp slot s) (probUp slot t) :=
  { h with prob := by rw [probUp_prob, probUp_prob, h.prob] }

theorem probDown (slot : Slot) : SessionAgree (probDown slot s) (probDown slot t) :=
  { h with prob := by rw [probDown_prob, probDown_prob, h.prob] }

/-- The dead latches are no part of a session. -/
theorem latches {r r' : Bool} (hr : r' = r) (b b' : Byte) (dest dest' : Word) (j j' : BitVec 2) :
    SessionAgree { s with dec := { s.dec with resolving := r, b := b, dest := dest, j := j } }
      { t with dec := { t.dec with resolving := r', b := b', dest := dest', j := j' } } :=
  { h with resolving := hr }

theorem finish (tag : EndTag) : SessionAgree (finish tag s) (finish tag t) :=
  { h with
    phase := rfl
    resolving := rfl
    result := fun _ => by rw [finish_dec_result, finish_dec_result, h.outPos] }

theorem raiseExhausted (k : StreamIx) : SessionAgree (raiseExhausted k s) (raiseExhausted k t) := by
  rw [Machine.raiseExhausted, Machine.raiseExhausted, h.demux]
  exact h.finish _

/-! ## Reads -/

theorem blobByte : blobByte t = blobByte s := by
  funext a
  rw [Machine.blobByte, Machine.blobByte, h.blob]

theorem cursorAddress (k : StreamIx) : cursorAddress t k = cursorAddress s k := by
  rw [Machine.cursorAddress, Machine.cursorAddress, h.demux]

theorem rem (k : StreamIx) : rem t k = rem s k := by rw [Machine.rem, Machine.rem, h.demux]

theorem outFull : outFull t = outFull s := by rw [Machine.outFull, Machine.outFull, h.outPos, h.originalSize]

theorem readOp {α : Type} (r : Except Fault α) : (readOp r s).Agree (readOp r t) := by
  cases r with
  | ok v => exact .ok v h
  | error f => exact .fault f

theorem curFetch (k : StreamIx) : (curFetch k s).Agree (curFetch k t) := by
  rw [Machine.curFetch, Machine.curFetch, h.demux, h.blobByte, h.cursorAddress]
  split
  · exact .ended (h.raiseExhausted k)
  · exact h.readOp _

theorem curRead1 (k : StreamIx) : (curRead1 k s).Agree (curRead1 k t) := by
  rw [Machine.curRead1, Machine.curRead1, h.demux, h.blobByte, h.cursorAddress]
  split
  · exact .ended (h.raiseExhausted k)
  · exact (h.readOp _).bind fun v _ _ h => .ok v (h.advance k 1)

theorem curRead4be (k : StreamIx) : (curRead4be k s).Agree (curRead4be k t) := by
  rw [Machine.curRead4be, Machine.curRead4be, h.rem, h.blobByte, h.cursorAddress]
  split
  · exact .ended (h.raiseExhausted k)
  · exact (h.readOp _).bind fun _ _ _ h => .ok _ (h.advance k 4)

/-! ## The range decoder -/

theorem seedLoop (n : Nat) : (seedLoop n s).Agree (seedLoop n t) := by
  induction n generalizing s t with
  | zero => exact .ok () h
  | succ n ih =>
    exact (h.curRead1 3).bind fun v _ _ h => by
      rw [h.rc]
      exact ih (h.setRc _ _)

theorem normLoop (n : Nat) : (normLoop n s).Agree (normLoop n t) := by
  induction n generalizing s t with
  | zero =>
    rw [Machine.normLoop, Machine.normLoop, needNorm, needNorm, h.rc]
    split
    · exact .ended (h.raiseExhausted 3)
    · exact .ok () h
  | succ n ih =>
    rw [Machine.normLoop, Machine.normLoop, needNorm, needNorm, h.rc]
    split
    · exact (h.curRead1 3).bind fun v _ _ h => by
        rw [h.rc]
        exact ih (h.setRc _ _)
    · exact .ok () h

theorem decide1 (slot : Slot) : (decide1 slot t).1 = (decide1 slot s).1 ∧ SessionAgree (decide1 slot s).2 (decide1 slot t).2 := by
  have hb (p : Prob) : bound t p = bound s p := by rw [bound, bound, h.rc]
  have hl (p : Prob) : lt t p = lt s p := by rw [lt, lt, hb, h.rc]
  rw [Machine.decide1, Machine.decide1, h.prob, hl, hb, h.rc]
  split
  · exact ⟨rfl, (h.setRc _ _).probUp slot⟩
  · exact ⟨rfl, (h.setRc _ _).probDown slot⟩

theorem decodeBit (slot : Slot) : (decodeBit slot s).Agree (decodeBit slot t) := by
  obtain ⟨hbit, hstate⟩ := h.decide1 slot
  rw [Machine.decodeBit, Machine.decodeBit, rcNormalize, rcNormalize, hstate.rem, hbit]
  exact (hstate.normLoop _).bind fun _ _ _ h => .ok _ h

/-! ## The decoder -/

theorem outEmit (v : Byte) : (outEmit v s).Agree (outEmit v t) := by
  rw [Machine.outEmit, Machine.outEmit, h.originalSize, h.outPos, h.out]
  split
  · have := h.emitted v
    rw [Machine.emitted, Machine.emitted, h.out, h.outPos] at this
    exact .ok () this
  · exact .fault _

theorem emitByte (dest : Word) (j : BitVec 2) : (emitByte dest j s).Agree (emitByte dest j t) := by
  refine ((h.latches h.resolving s.dec.b t.dec.b s.dec.dest t.dec.dest j j).outEmit _).bind fun _ s t h => ?_
  have h := h.setPrev (destByte dest j)
  dsimp only
  rw [h.outFull]
  split
  · exact .ended (h.finish _)
  · exact .ok () h

theorem emitBytes (dest : Word) (js : List (BitVec 2)) : (emitBytes dest js s).Agree (emitBytes dest js t) := by
  induction js generalizing s t with
  | nil => exact .ok () h
  | cons j js ih => exact (h.emitByte dest j).bind fun _ _ _ h => ih h

theorem patch (k : StreamIx) : (patch k s).Agree (patch k t) :=
  (h.curRead4be k).bind fun v s t h => by
    rw [h.outPos]
    exact (h.latches h.resolving s.dec.b t.dec.b _ _ s.dec.j t.dec.j).emitBytes _ _

theorem resolve (b : Byte) (slot : Slot) (k : StreamIx) : (resolve b slot k s).Agree (resolve b slot k t) := by
  refine ((h.latches (r := true) rfl b b s.dec.dest t.dec.dest s.dec.j t.dec.j).curRead1 0).bind fun _ _ _ h => (h.outEmit b).bind fun _ _ _ h => ?_
  rw [resolveEmitted, resolveEmitted, h.outFull]
  split
  · exact .ended (h.finish _)
  · refine (h.decodeBit slot).bind fun bit _ _ h => ?_
    rw [resolveBit, resolveBit]
    split
    · exact (h.patch k).bind fun _ _ _ h => .ok () (h.setResolving false)
    · exact .ok () ((h.setPrev b).setResolving false)

theorem copyLiteral : (copyLiteral s).Agree (copyLiteral t) :=
  (h.curRead1 0).bind fun v _ _ h => (h.outEmit v).bind fun _ _ _ h => .ok () (h.setPrev v)

/-- A gated operation answers agreeing states, whether the session runs or not. -/
theorem gate {r r' : Res Unit} (hr : r.Agree r') {u : State} (hu : inSession s r.done = .next u) :
    ∃ u', inSession t r'.done = .next u' ∧ SessionAgree u u' := by
  rcases inSession_next hu with ⟨hrun, hu⟩ | ⟨hrun, rfl⟩
  · rw [inSession_run (h.phase.trans hrun)]
    exact hr.next hu
  · exact ⟨t, inSession_other (by rwa [h.phase]) _, h⟩

/-- The instruction of a fetched byte answers agreeing states (R37). -/
theorem execMain (op : MainOp) {u : State} (hu : execMain op s = .next u) :
    ∃ u', execMain op t = .next u' ∧ SessionAgree u u' := by
  cases op with
  | call => exact h.gate (by rw [h.prevByte]; exact h.resolve _ _ _) hu
  | jmp => exact h.gate (h.resolve _ _ _) hu
  | jcc c => exact h.gate (h.resolve _ _ _) hu
  | lit b => exact h.gate h.copyLiteral hu

theorem mainLoop {u : State} (hu : mainLoop s = .next u) : ∃ u', mainLoop t = .next u' ∧ SessionAgree u u' := by
  have hfetch := h.curFetch 0
  unfold Machine.mainLoop at hu ⊢
  rw [h.outFull]
  split at hu
  · rename_i hf
    rw [if_pos hf]
    cases hu
    exact ⟨_, rfl, h.finish _⟩
  · rename_i hf
    rw [if_neg hf]
    generalize Machine.curFetch 0 s = r at hfetch hu
    generalize Machine.curFetch 0 t = r' at hfetch
    cases hfetch with
    | @ok b s t h =>
      dsimp only at hu ⊢
      rw [h.prevByte]
      exact h.execMain _ hu
    | ended h =>
      cases hu
      exact ⟨_, rfl, h⟩
    | fault f => cases hu

end SessionAgree

/-- Settles O35: the main loop answers agreeing states from agreeing states. -/
theorem mainLoopDependsOnTheSessionAlone : Obligations.MainLoopDependsOnTheSessionAlone := by
  intro s s' t h hrun ht
  rw [exec_step hrun] at ht
  have ha : SessionAgree s s' := { h with result := fun hd => by rw [hrun] at hd; cases hd }
  obtain ⟨t', ht', hag⟩ := ha.mainLoop ht
  exact ⟨t', by rw [exec_step (h.phase.trans hrun), ht'], hag.toSessionEq, hag.result⟩

/-- What START writes before the seed depends on the descriptor and BLOB alone, but for the free latches (R40). -/
theorem startState_sessionAgree {s s' : State} (hd : s'.launch.desc = s.launch.desc) (hb : s'.blob = s.blob) (range code : Word) :
    SessionAgree (setRc range code (startState s)) (setRc range code (startState s')) where
  rc := rfl
  prob := rfl
  demux := by rw [setRc_demux, setRc_demux, startState_demux, startState_demux, hd, hb]
  phase := rfl
  originalSize := congrArg Descriptor.originalSize hd
  outPos := rfl
  prevByte := rfl
  resolving := rfl
  blob := hb
  out := rfl
  result h := by cases h

/-- Settles O34: the seed loop from agreeing states. -/
theorem startForgetsEarlierSessions : Obligations.StartForgetsEarlierSessions := by
  intro s s' t hp hp' hn hd hb ht
  rw [exec_start hp hn] at ht
  obtain ⟨t', ht', hag⟩ := ((startState_sessionAgree hd hb Config.rangeInit 0).seedLoop Config.seedBytes).next ht
  exact ⟨t', by rw [exec_start hp' (by rw [hb]; exact hn)]; exact ht', hag.toSessionEq, hag.result⟩

end Sys2Proof.Machine
end

section
/-! PROOF. The values the extractor computes from header fields: the joined name, the octal size, the kind, the sanitised name
(R101, R214 to R218). -/

namespace Sys2Proof.Machine

/-! ## Names (R214) -/

/-- A field is its part before the first NUL and a rest that is empty or begins with the NUL. -/
theorem cstr_split (f : List Byte) :
    ∃ rest, f = cstr f ++ rest ∧ 0 ∉ cstr f ∧ (rest = [] ∨ rest.head? = some 0) := by
  refine ⟨f.dropWhile (· != 0), List.takeWhile_append_dropWhile.symm, fun h => absurd (List.mem_takeWhile_imp h) (by decide), ?_⟩
  have h := List.head?_dropWhile_not (· != (0 : Byte)) f
  cases hd : f.dropWhile (· != 0) with
  | nil => exact .inl rfl
  | cons a l =>
    rw [hd] at h
    have ha : a = 0 := by simpa using h
    exact .inr (congrArg some ha)

/-- Settles O45: both fields split at their first NUL, and `joinedName` puts the parts together. -/
theorem tarNameJoinsPrefixAndName : Obligations.TarNameJoinsPrefixAndName := by
  intro s hdone
  obtain ⟨nameRest, hname, hname0, hnameRest⟩ := cstr_split (headerField s.tar.hdr 0 100)
  obtain ⟨preRest, hpre, hpre0, hpreRest⟩ := cstr_split (headerField s.tar.hdr 345 155)
  refine ⟨tarName s, _, _, nameRest, preRest, inExtraction_done hdone _, hname, hname0, hnameRest, hpre, hpre0, hpreRest,
    fun h => ?_, fun h => ?_, rfl⟩
  · rw [tarName_tar_full, joinedName]
    exact if_pos h
  · rw [tarName_tar_full, joinedName, List.append_assoc]
    exact if_neg h

/-! ## Sizes (R101, R216) -/

/-- Trimming takes the NULs and spaces at the end and nothing else (R101). -/
theorem trimField_append {digits pad : List Byte} (hpad : ∀ b ∈ pad, b = 0 ∨ b = 0x20)
    (hlast : ∀ b, digits.getLast? = some b → b ≠ 0 ∧ b ≠ 0x20) : trimField (digits ++ pad) = digits := by
  have hkeep : digits.reverse.dropWhile (fun b => b == 0 || b == 0x20) = digits.reverse := by
    cases h : digits.reverse with
    | nil => rfl
    | cons b l =>
      obtain ⟨h0, h1⟩ := hlast b (by rw [← List.head?_reverse, h]; rfl)
      exact List.dropWhile_cons_of_neg (by simpa using ⟨h0, h1⟩)
  have hdrop : ∀ b ∈ pad.reverse, (b == 0 || b == 0x20) = true := fun b hb => by
    simpa using hpad b (List.mem_reverse.mp hb)
  rw [trimField, List.reverse_append, List.dropWhile_append_of_pos hdrop, hkeep, List.reverse_reverse]

/-- The digits' value in base 8, the last digit least significant (R101). -/
theorem octalNat_eq_ofDigits (f : List Byte) : octalNat f = Nat.ofDigits 8 (f.reverse.map fun b => b.toNat - 0x30) := by
  induction f using List.reverseRecOn with
  | nil => rfl
  | append_singleton l b ih =>
    rw [List.reverse_append, List.reverse_singleton, List.singleton_append, List.map_cons, Nat.ofDigits_cons, ← ih, octalNat,
      List.foldl_append, Nat.add_comm, Nat.mul_comm]
    rfl

theorem all_isOctal_iff (f : List Byte) : f.all isOctal = true ↔ ∀ b ∈ f, 0x30 ≤ b.toNat ∧ b.toNat ≤ 0x37 := by
  simp [isOctal]

theorem exec_tarSize {s : State} (h : s.dec.phase = .done) : exec .tarSize s = (tarSize s).done := inExtraction_done h _

/-- Settles O46: trimming leaves the digits, which are all octal or not. -/
theorem tarSizeReadsOctal : Obligations.TarSizeReadsOctal := by
  intro s digits pad hdone hfield hpad hlast
  have htrim := trimField_append hpad hlast
  refine ⟨fun hall => ?_, fun ⟨b, hb, hbad⟩ => ?_⟩
  · have hsize : sizeOfField (digits ++ pad) = some (octalNat digits) := by
      rw [sizeOfField, htrim]
      exact if_pos ((all_isOctal_iff _).mpr hall)
    rw [exec_tarSize hdone, tarSize, hfield, hsize, octalNat_eq_ofDigits]
    rfl
  · have hnot : ¬ digits.all isOctal = true := fun h => by
      have := (all_isOctal_iff _).mp h b hb
      omega
    have hsize : sizeOfField (digits ++ pad) = none := by
      rw [sizeOfField, htrim]
      exact if_neg hnot
    rw [exec_tarSize hdone, tarSize, hfield, hsize]
    rfl

/-! ## Kinds (R217) -/

theorem endsInSlash_iff (full : List Byte) : endsInSlash full = true ↔ ∃ l, full = l ++ [0x2F] := by
  rw [endsInSlash, beq_iff_eq, List.getLast?_eq_some_iff]

/-- A directory by flag or by name (R217). -/
theorem tarKind_isdir_iff (s : State) :
    (tarKind s).tar.isdir = true ↔ s.tar.hdr[156].toNat = 0x35 ∨ ∃ l, s.tar.full = l ++ [0x2F] := by
  have hflag : s.tar.hdr[156] = 0x35 ↔ s.tar.hdr[156].toNat = 0x35 := byte_eq_iff _ _
  rw [tarKind, classifyType, ← endsInSlash_iff, ← hflag]
  split
  · rename_i h
    exact iff_of_true rfl (.inl h)
  · rename_i h
    exact (or_iff_right h).symm

theorem tarType_eq (op : TypeOp) (s : State) : tarType op s = { s with tar := { s.tar with isdir := (tarType op s).tar.isdir } } := by
  cases op <;> rfl

/-- Settles O47: `tarKind_isdir_iff`. -/
theorem tarKindTestsFlagAndSlash : Obligations.TarKindTestsFlagAndSlash := fun s hdone =>
  ⟨tarKind s, inExtraction_done hdone _, tarKind_isdir_iff s, tarType_eq _ s⟩

/-! ## Sanitised names (R218) -/

/-- A byte that does not begin a ".." stays. -/
theorem replaceDots_cons {a : Byte} {l : List Byte} (h : a = 0x2E → l.head? ≠ some 0x2E) :
    replaceDots (a :: l) = a :: replaceDots l := by
  cases l with
  | nil => rfl
  | cons b l => exact if_neg fun ⟨ha, hb⟩ => h ha (congrArg some hb)

theorem replaceDots_dots (l : List Byte) : replaceDots (0x2E :: 0x2E :: l) = 0x5F :: replaceDots l := rfl

/-- A run of `n` dots becomes `n / 2` underscores and `n mod 2` dots. -/
theorem replaceDots_run {l : List Byte} (hl : l.head? ≠ some 0x2E) (n : Nat) :
    replaceDots (List.replicate n 0x2E ++ l) = List.replicate (n / 2) 0x5F ++ List.replicate (n % 2) 0x2E ++ replaceDots l := by
  induction n using Nat.twoStepInduction with
  | zero => rfl
  | one => exact replaceDots_cons fun _ => hl
  | more n ih _ =>
    have hdiv : (n + 2) / 2 = n / 2 + 1 := by omega
    have hmod : (n + 2) % 2 = n % 2 := by omega
    rw [hdiv, hmod, List.replicate_succ, List.replicate_succ, List.cons_append, List.cons_append, replaceDots_dots, ih,
      List.replicate_succ]
    rfl

/-- Each run of dots is halved on its own, and every other byte stays. -/
theorem replaceDots_runs {runs : List (Nat × Byte)} (h : ∀ r ∈ runs, r.2 ≠ 0x2E) (last : Nat) :
    replaceDots (runs.flatMap (fun r => List.replicate r.1 0x2E ++ [r.2]) ++ List.replicate last 0x2E) =
      runs.flatMap (fun r => List.replicate (r.1 / 2) 0x5F ++ List.replicate (r.1 % 2) 0x2E ++ [r.2]) ++
        List.replicate (last / 2) 0x5F ++ List.replicate (last % 2) 0x2E := by
  induction runs with
  | nil => simpa [replaceDots] using replaceDots_run (l := []) (by decide) last
  | cons r runs ih =>
    obtain ⟨hr, hrest⟩ := List.forall_mem_cons.mp h
    rw [List.flatMap_cons, List.flatMap_cons, List.append_assoc, List.append_assoc, List.singleton_append,
      replaceDots_run (l := r.2 :: _) (fun e => hr (Option.some.inj e)), replaceDots_cons (fun e => absurd e hr), ih hrest]
    simp only [List.append_assoc, List.cons_append, List.nil_append]

/-- The first byte stays or becomes an underscore. -/
theorem replaceDots_head {a : Byte} (ha : a ≠ 0x5F) {l : List Byte} (h : (replaceDots l).head? = some a) : l.head? = some a := by
  cases l with
  | nil => exact h
  | cons b l =>
    by_cases hd : b = 0x2E ∧ l.head? = some 0x2E
    · obtain ⟨rfl, hl⟩ := hd
      obtain ⟨l, rfl⟩ := List.head?_eq_some_iff.mp hl
      exact absurd (Option.some.inj h).symm ha
    · rw [replaceDots_cons fun e => not_and.mp hd e] at h
      exact h

/-- ".." at the front or further on. -/
theorem dots_infix_cons {a : Byte} {l : List Byte} (h : [0x2E, 0x2E] <:+: a :: l) :
    a = 0x2E ∧ l.head? = some 0x2E ∨ [0x2E, 0x2E] <:+: l := by
  rcases List.infix_cons_iff.mp h with hp | hi
  · obtain ⟨ha, t, ht⟩ := List.cons_prefix_cons.mp hp
    exact .inl ⟨ha.symm, by rw [← ht]; rfl⟩
  · exact .inr hi

theorem replaceDots_no_dots (l : List Byte) : ¬ [0x2E, 0x2E] <:+: replaceDots l := by
  induction l using replaceDots.induct with
  | case1 => exact fun h => by simpa [replaceDots] using h.length_le
  | case2 a => exact fun h => by simpa [replaceDots] using h.length_le
  | case3 a b l hab ih =>
    obtain ⟨rfl, rfl⟩ := hab
    intro h
    rcases dots_infix_cons h with ⟨ha, -⟩ | h
    · cases ha
    · exact ih h
  | case4 a b l hab ih =>
    intro h
    rw [replaceDots, if_neg hab] at h
    rcases dots_infix_cons h with ⟨ha, hb⟩ | h
    · exact hab ⟨ha, Option.some.inj (replaceDots_head (by decide) hb)⟩
    · exact ih h

theorem replaceDots_eq_self {l : List Byte} (h : ¬ [0x2E, 0x2E] <:+: l) : replaceDots l = l := by
  induction l with
  | nil => rfl
  | cons a l ih =>
    rw [replaceDots_cons fun ha hl => ?_, ih fun hi => h (List.infix_cons_iff.mpr (.inr hi))]
    obtain ⟨t, rfl⟩ := List.head?_eq_some_iff.mp hl
    exact h ⟨[], t, by rw [ha]; rfl⟩

/-- A name without a leading slash has none to lose. -/
theorem dropSlashes_eq_self {l : List Byte} (h : l.head? ≠ some 0x2F) : l.dropWhile (· == 0x2F) = l :=
  List.dropWhile_beq_eq_self_of_head?_ne h

theorem dropSlashes_replicate {l : List Byte} (h : l.head? ≠ some 0x2F) (n : Nat) :
    (List.replicate n 0x2F ++ l).dropWhile (· == 0x2F) = l := by
  rw [List.dropWhile_append_of_pos (fun a ha => by rw [List.eq_of_mem_replicate ha]; rfl), dropSlashes_eq_self h]

theorem sanitize_head (full : List Byte) : (sanitize full).head? ≠ some 0x2F := fun h => by
  have hnot := List.head?_dropWhile_not (· == (0x2F : Byte)) full
  rw [replaceDots_head (by decide) h] at hnot
  cases hnot

/-- Settles O48: `replaceDots_runs` on what is left without the slashes, and what `replaceDots` answers in general. -/
theorem tarSanitizeNeutralisesTraversal : Obligations.TarSanitizeNeutralisesTraversal := by
  intro s hdone
  refine ⟨tarSanitize s, inExtraction_done hdone _, ?_, sanitize_head _, replaceDots_no_dots _, fun hslash hdots => ?_, rfl⟩
  · intro slashes last runs rest hruns hrest hhead hfull
    rw [tarSanitize_tar_clean, hfull, sanitize, dropSlashes_replicate hhead, hrest, replaceDots_runs hruns]
  · rw [tarSanitize_tar_clean, sanitize, dropSlashes_eq_self hslash, replaceDots_eq_self hdots]

end Sys2Proof.Machine
end

section
/-! PROOF. The loader and the steps of the extractor: LOAD_HEADER, TAR_STEP by its outcomes, and its parts (R210 to R226, R283). -/

namespace Sys2Proof.Machine

/-! ## LOAD_HEADER (R283) -/

theorem execLoadHeader_of_header {s : State} {h : Vector Byte 20} (hn : 20 ≤ s.blob.size)
    (hh : ∀ i : Fin 20, s.blob.cells.read i = some h[i]) : exec .loadHeader s = .next (loadDescriptor h.toList s) := by
  have hrun : readRun (blobByte s) 0 20 = .ok h.toList := by
    refine readRun_ok (by simp) fun i hi => ?_
    have hi' : i < 20 := by simpa using hi
    have hb : s.blob.cells.read i = some h[i] := hh ⟨i, hi'⟩
    rw [Nat.zero_add, blobByte, if_pos (by omega), hb]
    simp
  show execLoadHeader s = _
  rw [execLoadHeader, show Config.headerBytes = 20 from rfl, if_neg (Nat.not_lt.mpr hn), hrun]
  rfl

/-- A word of the descriptor, by the header bytes it stands in (R91). -/
theorem headerWord_toList (h : Vector Byte 20) {o : Nat} (ho : o + 4 ≤ 20) :
    (headerWord h.toList o).toNat = h[o].toNat + h[o + 1].toNat * 2 ^ 8 + h[o + 2].toNat * 2 ^ 16 + h[o + 3].toNat * 2 ^ 24 := by
  rw [headerWord_toNat (by simpa using ho)]
  simp only [Vector.getElem_toList]

/-- The loader's test is on the exact end of stream3 (R253). -/
theorem sizesMismatch_iff (d : Descriptor) {n : Nat} (hn : 20 ≤ n) : sizesMismatch d n = true ↔ declaredStart d 4 ≠ n := by
  rw [sizesMismatch, bne_iff_ne]
  show _ ≠ n - 20 ↔ 20 + d.size[0].toNat + d.size[1].toNat + d.size[2].toNat + d.size[3].toNat ≠ n
  omega

/-- Settles O40: five header words read by `headerWord_toList`, and the mismatch test in exact sums. -/
theorem loadHeaderReadsTheDescriptor : Obligations.LoadHeaderReadsTheDescriptor := by
  intro s h
  refine ⟨fun hn => if_pos hn, fun hn hh => ⟨_, execLoadHeader_of_header hn hh, headerWord_toList h (by decide), fun k => ?_,
    sizesMismatch_iff _ hn, rfl, rfl, rfl⟩⟩
  match k with
  | 0 => exact headerWord_toList h (o := 4) (by decide)
  | 1 => exact headerWord_toList h (o := 8) (by decide)
  | 2 => exact headerWord_toList h (o := 12) (by decide)
  | 3 => exact headerWord_toList h (o := 16) (by decide)

/-! ## TAR_STEP on a known header (R211) -/

/-- Settles O41: TAR_START_OP answers `tarStartOp s`. -/
theorem tarStartOpBeginsAnExtraction : Obligations.TarStartOpBeginsAnExtraction := fun _ hdone => inExtraction_done hdone _

/-- With no room for a header the extraction stops. -/
theorem tarStep_truncated {s : State} (h : imgLen s < s.tar.tpos + 512) : tarStep s = .ended (tarStopWith .truncated s) := if_pos h

section
variable {s : State} {h : Header} (hh : HeaderAt s h)
include hh

/-- A magic that stops the extraction ends the step with its reason. -/
theorem tarStep_of_bad_magic {r : TarStop}
    (hm : tarMagic (classifyMagic (headerField h 257 8)) { s with tar := { s.tar with hdr := h } } =
      .ended (tarStopWith r { s with tar := { s.tar with hdr := h } })) :
    tarStep s = .ended (tarStopWith r s) := by
  rw [tarStep_of_header hh, tarCheckMagic, hm, Res.bind_ended]
  rfl

theorem tarStep_endMarker (hm : headerField h 257 5 = [0, 0, 0, 0, 0]) : tarStep s = .ended (tarStopWith .endMarker s) := by
  refine tarStep_of_bad_magic hh ?_
  rw [classifyMagic_end (by rw [magic_field, hm])]
  rfl

theorem tarStep_magicMismatch (h0 : headerField h 257 5 ≠ [0, 0, 0, 0, 0])
    (hu : headerField h 257 5 ≠ [0x75, 0x73, 0x74, 0x61, 0x72]) : tarStep s = .ended (tarStopWith .magicMismatch s) := by
  obtain ⟨m, hm⟩ := classifyMagic_other (bs := headerField h 257 8) (by rwa [magic_field]) (by rwa [magic_field])
  refine tarStep_of_bad_magic hh ?_
  rw [hm]
  rfl

theorem tarStep_badSize (hm : headerField h 257 5 = [0x75, 0x73, 0x74, 0x61, 0x72]) (hs : sizeOfField (headerField h 124 12) = none) :
    tarStep s = .ended (tarStopWith .badSize s) := by
  rw [tarStep_of_header hh, tarCheckMagic_valid (by exact hm), Res.bind_ok, tarEntry, tarSize, tarName_tar_hdr, hs]
  rfl

end

/-- The kind of a parsed entry is that of its flag and name. -/
theorem entryParsed_isdir (h : Header) (size : Nat) (s : State) :
    (entryParsed h size s).tar.isdir = true ↔ h[156].toNat = 0x35 ∨ (joinedName h).getLast? = some 0x2F := by
  have hflag : h[156] = 0x35 ↔ h[156].toNat = 0x35 := byte_eq_iff _ _
  rw [← hflag]
  simp [entryParsed, endsInSlash]

theorem entryParsed_isFile {h : Header} (hflag : h[156].toNat ≠ 0x35) (hslash : (joinedName h).getLast? ≠ some 0x2F) (size : Nat)
    (s : State) : (entryParsed h size s).tar.isdir = false :=
  Bool.eq_false_iff.mpr fun e => ((entryParsed_isdir h size s).mp e).elim hflag hslash

/-- Settles O42: the five stops, each from the step's first test that fails. -/
theorem tarStepStopsByReason : Obligations.TarStepStopsByReason := by
  intro s h hdone hrun
  refine ⟨fun hlen => ?_, fun hh hm => ?_, fun hh h0 hu => ?_, fun hh hm hs => ?_, fun size hh hm hs hflag hslash hlen => ?_⟩
  · rw [exec_tarStep hdone hrun, tarStep_truncated hlen]
    rfl
  · rw [exec_tarStep hdone hrun, tarStep_endMarker hh hm]
    rfl
  · rw [exec_tarStep hdone hrun, tarStep_magicMismatch hh h0 hu]
    rfl
  · rw [exec_tarStep hdone hrun, tarStep_badSize hh hm hs]
    rfl
  · rw [exec_tarStep_valid hdone hrun hh hm hs, tarEmit, entryParsed_isFile hflag hslash, if_neg (by decide), tarFile, if_pos (by exact hlen)]
    rfl

/-- Settles O43: the event of a directory, whose advance is one block. -/
theorem tarStepCreatesADirectory : Obligations.TarStepCreatesADirectory := by
  intro s h size hdone hrun hh hm hs hkind
  have hdir := (entryParsed_isdir h size s).mpr hkind
  refine ⟨tarDiscard (tarAdvance (tarCountUp (tarDir (entryParsed h size s)))), ?_, rfl, ?_,
    ⟨rfl, rfl, rfl, rfl, rfl, rfl, fun _ => rfl, rfl, rfl, rfl⟩⟩
  · rw [exec_tarStep_valid hdone hrun hh hm hs, tarEmit, if_pos hdir]
    rfl
  · simp only [tarDiscard, tarAdvance, tarCountUp, tarDir_tar, tarAdvanceBy, hdir]
    rfl

/-- A file's content is padded to whole blocks (R221). -/
theorem size_add_tarPad (size : Nat) : size + tarPad size = (size + 511) / 512 * 512 := by
  unfold tarPad Config.tarBlock
  split <;> omega

theorem tarFile_of_content {s : State} {content : List Byte} (hc : ContentAt s content) (hsize : s.tar.size = content.length) :
    tarFile s = .ok () (sinkEvent (.writeFile s.tar.clean content) s) := by
  have himg := hc.inImage
  rw [tarFile, hsize, show Config.tarBlock = 512 from rfl, if_neg (by omega), content_read hc]
  rfl

/-- Settles O44: the event of a file, whose advance is the header and its content in whole blocks. -/
theorem tarStepWritesAFile : Obligations.TarStepWritesAFile := by
  intro s h content hdone hrun hh hm hs hc hflag hslash
  have hfile := entryParsed_isFile hflag hslash content.length s
  have hc' : ContentAt (entryParsed h content.length s) content := ⟨hc.inImage, hc.inOut, hc.bytes⟩
  refine ⟨tarDiscard (tarAdvance (tarCountUp (sinkEvent (.writeFile (sanitize (joinedName h)) content) (entryParsed h content.length s)))),
    ?_, rfl, ?_, ⟨rfl, rfl, rfl, rfl, rfl, rfl, fun _ => rfl, rfl, rfl, rfl⟩⟩
  · rw [exec_tarStep_valid hdone hrun hh hm hs, tarEmit, hfile, if_neg (by decide), tarFile_of_content hc' rfl]
    rfl
  · have hadv : tarAdvanceBy false content.length = 512 + (content.length + 511) / 512 * 512 := by
      rw [← size_add_tarPad, ← Nat.add_assoc]
      rfl
    rw [Nat.add_assoc, ← hadv]
    simp only [tarDiscard, tarAdvance, tarCountUp, sinkEvent_tar, hfile]
    rfl

/-! ## The parts (R219 to R221) and the selectors (R212, R213, R217) -/

/-- Settles O49: TAR_DIR's event, and TAR_FILE's by `tarFile_of_content` or its first test. -/
theorem tarEventsGoToTheSink : Obligations.TarEventsGoToTheSink := by
  intro s content hdone
  have hexec : exec .tarFile s = (tarFile s).done := inExtraction_done hdone _
  refine ⟨inExtraction_done hdone _, fun hsize hc => ?_, fun hlen => ?_⟩
  · rw [hexec, tarFile_of_content hc hsize.symm]
    rfl
  · rw [hexec, tarFile, if_pos (by exact hlen)]
    rfl

/-- Settles O50: `tarAdvanceBy`, with the padding of `size_add_tarPad`. -/
theorem tarAdvanceKeepsBlocks : Obligations.TarAdvanceKeepsBlocks := by
  intro s hdone
  have htpos : (tarAdvance s).tar.tpos = s.tar.tpos + tarAdvanceBy s.tar.isdir s.tar.size := rfl
  refine ⟨tarAdvance s, inExtraction_done hdone _, fun hdir => ?_, fun hfile => ⟨(s.tar.size + 511) / 512, ?_, ?_, ?_⟩, rfl⟩
  · rw [htpos, hdir]
    rfl
  · have hpad := size_add_tarPad s.tar.size
    rw [htpos, hfile]
    show s.tar.tpos + (512 + s.tar.size + tarPad s.tar.size) = _
    omega
  · omega
  · omega

/-- Settles O51: each selector's branch of `tarMagic` or `tarType`. -/
theorem headerSelectorsAct : Obligations.HeaderSelectorsAct := by
  intro s m f hdone
  exact ⟨inExtraction_done hdone _, inExtraction_done hdone _, inExtraction_done hdone _, inExtraction_done hdone _,
    inExtraction_done hdone _, tarType (.file f) s, inExtraction_done hdone _, endsInSlash_iff _, tarType_eq _ s⟩

/-! ## What TAR_STEP can do -/

/-- The state after an entry with the event `e` that takes `n` bytes of the image. -/
def entryTaken (e : SinkEvent) (n : Nat) (s : State) : State :=
  { s with tar := { s.tar.discard with tpos := s.tar.tpos + n, count := s.tar.count + 1 }, sink := s.sink ++ [e] }

/-- How a part of TAR_STEP from the state `s` can end: it stops, it has taken an entry of at least a block, or it faults on a read inside
the image. -/
inductive TarOutcome (s : State) : Res Unit → Prop
  | stopped (r : TarStop) : TarOutcome s (.ended (tarStopWith r s))
  | taken (e : SinkEvent) {n : Nat} (hn : 512 ≤ n) : TarOutcome s (.ok () (entryTaken e n s))
  | faulted {a n : Nat} {f : Fault} (hin : a + n ≤ imgLen s) (hf : outRun s a n = .error f) : TarOutcome s (.fault f)

theorem le_tarAdvanceBy (isdir : Bool) (size : Nat) : 512 ≤ tarAdvanceBy isdir size := by
  cases isdir
  · show 512 ≤ 512 + size + tarPad size
    omega
  · exact le_rfl

/-- The rest of a step whose header is held as `x`: the event, the count and the advance. -/
theorem tarEmit_outcome {s : State} {x : Tar} (hx : x.discard = s.tar.discard) (htpos : x.tpos = s.tar.tpos) (hcount : x.count = s.tar.count) :
    TarOutcome s ((tarEmit { s with tar := x }).bind fun _ s => .ok () (tarDiscard (tarAdvance (tarCountUp s)))) := by
  have taken (e : SinkEvent) :
      tarDiscard (tarAdvance (tarCountUp (sinkEvent e { s with tar := x }))) = entryTaken e (tarAdvanceBy x.isdir x.size) s := by
    have : (tarDiscard (tarAdvance (tarCountUp (sinkEvent e { s with tar := x })))).tar =
        { x.discard with tpos := x.tpos + tarAdvanceBy x.isdir x.size, count := x.count + 1 } := rfl
    rw [hx, htpos, hcount] at this
    rw [entryTaken, ← this]
    rfl
  rw [tarEmit]
  split
  · rw [Res.bind_ok, tarDir, taken]
    exact .taken _ (le_tarAdvanceBy _ _)
  · rw [tarFile]
    split
    · have : tarStopWith .truncated { s with tar := x } = tarStopWith .truncated s := by
        simp only [tarStopWith, hx]
      rw [this]
      exact .stopped _
    · rename_i hin
      have hrun (a n : Nat) : outRun { s with tar := x } a n = outRun s a n := rfl
      rw [hrun]
      cases hc : outRun s (x.tpos + Config.tarBlock) x.size with
      | ok content =>
        simp only [readOp, Res.bind_ok, taken]
        exact .taken _ (le_tarAdvanceBy _ _)
      | error f => exact .faulted (Nat.le_of_not_lt hin) hc

/-- TAR_STEP stops, or finds a header in the image and takes its entry, or faults on a read inside the image. -/
theorem tarStep_outcome (s : State) : TarOutcome s (tarStep s) := by
  by_cases hin : s.tar.tpos + 512 ≤ imgLen s
  · rw [tarStep, tarReadHeader, show Config.tarBlock = 512 from rfl, if_neg (Nat.not_lt.mpr hin)]
    cases hh : outRun s s.tar.tpos 512 with
    | error f => exact .faulted hin hh
    | ok bs =>
      simp only [readOp, Res.bind_ok, tarCheckMagic]
      cases classifyMagic (headerField (Header.ofBytes bs) 257 8) with
      | endMark => exact .stopped .endMarker
      | other m => exact .stopped .magicMismatch
      | ustar | gnu =>
        simp only [tarMagic, Res.bind_ok, tarEntry, tarSize, tarName_tar_hdr]
        cases sizeOfField (headerField (Header.ofBytes bs) 124 12) with
        | none => exact .stopped .badSize
        | some size =>
          have hkind (u : State) : tarSanitize (tarKind u) = { u with tar := (tarSanitize (tarKind u)).tar } := by
            rw [tarKind, tarType_eq]
            rfl
          simp only [Res.bind_ok]
          rw [hkind]
          exact tarEmit_outcome (s := s) (by rw [tarKind, tarType_eq]; rfl) (by rw [tarKind, tarType_eq]; rfl)
            (by rw [tarKind, tarType_eq]; rfl)
  · rw [tarStep_truncated (Nat.lt_of_not_le hin)]
    exact .stopped _

/-- Settles O52: of the outcomes of TAR_STEP only the entry taken leaves the extraction running, and with no room for a header it stops. -/
theorem tarStepAdvances : Obligations.TarStepAdvances := by
  intro s t hdone hrun ht hgoes
  rw [exec_tarStep hdone hrun] at ht
  have hin : s.tar.tpos + 512 ≤ imgLen s := by
    by_contra hlt
    rw [tarStep_truncated (Nat.lt_of_not_le hlt)] at ht
    cases ht
    cases hgoes
  have ho := tarStep_outcome s
  generalize tarStep s = r at ho ht
  cases ho with
  | stopped r =>
    cases ht
    cases hgoes
  | taken e hn =>
    cases ht
    exact ⟨Nat.add_le_add_left hn _, hin, rfl, by simp [entryTaken]⟩
  | faulted => cases ht

end Sys2Proof.Machine
end

section
/-! PROOF. What a step is: the action of a session, of an extraction, of a command (R7, R8, R290). -/

namespace Sys2Proof.Machine

/-! ## A step of a session (R176, R286, R284) -/

/-- While a session runs, a step is an iteration of the main loop unless one of the three commands answered at once is next. -/
theorem step_of_session {s : State} (hrun : s.dec.phase = .run) (hpow : s.cmds.head? ≠ some .powerOn)
    (hstart : s.cmds.head? ≠ some (.issue .start)) (hplace : ∀ bytes, s.cmds.head? ≠ some (.place bytes)) :
    step s = exec .step s := by
  refine step_run ?_
  rw [← coreAction_run hrun]
  cases hc : s.cmds with
  | nil => exact nextAction_none hc
  | cons c rest =>
    rw [hc] at hpow hstart hplace
    exact nextAction_waits hc ((waits_run hrun).mpr ⟨fun e => hpow (congrArg some e), fun e => hstart (congrArg some e),
      fun bytes e => hplace bytes (congrArg some e)⟩)

/-- START in `Run` is taken and has no effect (R286). -/
theorem step_start_in_session {s : State} {rest : List Cmd} (hrun : s.dec.phase = .run) (hc : s.cmds = .issue .start :: rest) :
    step s = .next { s with cmds := rest } := by
  have hw : (Cmd.issue .start).waits s = false := Bool.eq_false_iff.mpr fun h => ((waits_run hrun).mp h).2.1 rfl
  rw [step_run (nextAction_takes hc hw)]
  exact exec_start_no_effect (.inl hrun)

/-- Placing a buffer in `Run` is refused (R284). -/
theorem step_place_in_session {s : State} {bytes : List Byte} {rest : List Cmd} (hrun : s.dec.phase = .run)
    (hc : s.cmds = .place bytes :: rest) : step s = .refused .blobWriteDuringRun := by
  have hw : (Cmd.place bytes).waits s = false := Bool.eq_false_iff.mpr fun h => ((waits_run hrun).mp h).2.2 bytes rfl
  exact step_refuse ((nextAction_takes hc hw).trans (if_pos hrun))

/-- Settles O53: the step is STEP, which executes what the fetched byte decodes to. -/
theorem stepRunsTheDecodedInstruction : Obligations.StepRunsTheDecodedInstruction := by
  intro s b i hpow hstart hplace hrun hroom hb hi
  cases hi
  rw [step_of_session hrun hpow hstart hplace, exec_step hrun, mainLoop_of_byte hroom hb]

/-! ## Every step -/

/-- What a step from `s` is: an iteration of a session or of an extraction, a command taken, or the state as it was. -/
inductive Stepped (s : State) : Out → Prop
  | session (hrun : s.dec.phase = .run) : Stepped s (exec .step s)
  | extraction (hp : s.dec.phase ≠ .run) (ht : s.tar.running = true) : Stepped s (exec .tarStep s)
  | settled (l : Launch) (c : List Cmd) : Stepped s (.next { s with launch := l, cmds := c })
  | placed (hp : s.dec.phase ≠ .run) (bytes : List Byte) (c : List Cmd) : Stepped s (.next (placeBlob bytes { s with cmds := c }))
  | issued (hp : s.dec.phase ≠ .run) (ht : s.tar.running = false) (op : HostOp) (c : List Cmd) :
    Stepped s (exec op.instr { s with cmds := c })
  | reset (c : List Cmd) : Stepped s (.next { State.reset with cmds := c, free := s.free })
  | refused (hrun : s.dec.phase = .run) {bytes : List Byte} {rest : List Cmd} (hc : s.cmds = .place bytes :: rest) :
    Stepped s (.refused .blobWriteDuringRun)

/-- With no command taken, the core goes on by itself. -/
theorem stepped_core {s : State} (h : nextAction s = coreAction s) : Stepped s (step s) := by
  by_cases hrun : s.dec.phase = .run
  · rw [step_run (h.trans (coreAction_run hrun))]
    exact .session hrun
  · by_cases ht : s.tar.running = true
    · rw [step_run (h.trans (coreAction_tar hrun ht))]
      exact .extraction hrun ht
    · rw [step_settle (h.trans (coreAction_rest hrun (Bool.eq_false_iff.mpr ht)))]
      exact .settled s.launch s.cmds

/-- With nothing running, the command at the head is taken. -/
theorem stepped_command {s : State} {c : Cmd} {rest : List Cmd} (hc : s.cmds = c :: rest) (hp : s.dec.phase ≠ .run)
    (ht : s.tar.running = false) : Stepped s (step s) := by
  have h := nextAction_takes hc (waits_idle c hp ht)
  cases c with
  | place bytes =>
    rw [step_settle (h.trans (if_neg hp))]
    exact .placed hp bytes rest
  | setDescriptor d =>
    rw [step_settle h]
    exact .settled _ rest
  | setTarStart n =>
    rw [step_settle h]
    exact .settled _ rest
  | issue op =>
    rw [step_run h]
    exact .issued hp ht op rest
  | await =>
    rw [step_settle h]
    exact .settled s.launch rest
  | powerOn =>
    rw [step_settle h]
    exact .reset rest

theorem step_powerOn {s : State} {rest : List Cmd} (hc : s.cmds = .powerOn :: rest) :
    step s = .next { State.reset with cmds := rest, free := s.free } :=
  step_settle (nextAction_takes hc rfl)

theorem step_stepped (s : State) : Stepped s (step s) := by
  cases hc : s.cmds with
  | nil => exact stepped_core (nextAction_none hc)
  | cons c rest =>
    by_cases hpow : c = .powerOn
    · subst hpow
      rw [step_powerOn hc]
      exact .reset rest
    · by_cases hrun : s.dec.phase = .run
      · cases hw : c.waits s with
        | true => exact stepped_core (nextAction_waits hc hw)
        | false =>
          have hnot := (waits_run (c := c) hrun).not.mp (by rw [hw]; decide)
          by_cases hstart : c = .issue .start
          · subst hstart
            rw [step_start_in_session hrun hc]
            exact .settled s.launch rest
          · obtain ⟨bytes, rfl⟩ : ∃ bytes, c = .place bytes := by
              by_contra hplace
              exact hnot ⟨hpow, hstart, not_exists.mp hplace⟩
            rw [step_place_in_session hrun hc]
            exact .refused hrun hc
      · by_cases ht : s.tar.running = true
        · exact stepped_core (nextAction_waits hc ((waits_tar hrun ht).mpr hpow))
        · exact stepped_command hc hrun (Bool.eq_false_iff.mpr ht)

/-! ## The statements on single steps -/

/-- A step that answers a state during a session, power-on reset apart: the main loop, or a START taken. -/
theorem step_next_in_session {s t : State} (hrun : s.dec.phase = .run) (hpow : s.cmds.head? ≠ some .powerOn) (ht : step s = .next t) :
    exec .step s = .next t ∨ s.cmds.head? = some (.issue .start) ∧ t = { s with cmds := s.cmds.tail } := by
  by_cases hstart : s.cmds.head? = some (.issue .start)
  · obtain ⟨rest, hc⟩ := List.head?_eq_some_iff.mp hstart
    rw [step_start_in_session hrun hc] at ht
    cases ht
    exact .inr ⟨hstart, by rw [hc]; rfl⟩
  · by_cases hplace : ∃ bytes, s.cmds.head? = some (.place bytes)
    · obtain ⟨bytes, hb⟩ := hplace
      obtain ⟨rest, hc⟩ := List.head?_eq_some_iff.mp hb
      rw [step_place_in_session hrun hc] at ht
      cases ht
    · rw [step_of_session hrun hpow hstart (not_exists.mp hplace)] at ht
      exact .inl ht

/-- Settles O54: one rule of the sequencer per clause. -/
theorem stepTakesPendingOperations : Obligations.StepTakesPendingOperations := by
  intro s op bytes rest
  refine ⟨fun hc hp ht => step_run (nextAction_takes hc (waits_idle _ hp ht)),
    fun hc hp ht => step_run ((nextAction_none hc).trans (coreAction_tar hp ht)),
    fun hc hp ht => step_settle ((nextAction_none hc).trans (coreAction_rest hp ht)),
    fun hc hrun => step_place_in_session hrun hc, fun hc hp ht => ?_, fun t hrun hpow ht => step_next_in_session hrun hpow ht⟩
  refine ⟨placeBlob bytes { s with cmds := rest }, step_settle ((nextAction_takes hc (waits_idle _ hp ht)).trans (if_neg hp)), rfl,
    fun j hj => ?_, rfl⟩
  rw [placeBlob_blob, Memory.read_ofBytes, if_pos (Nat.zero_le j), Nat.sub_zero, List.getElem?_eq_getElem hj]

/-- An iteration of the main loop leaves the launch record alone. -/
theorem exec_step_launch {s t : State} (ht : exec .step s = .next t) : t.launch = s.launch :=
  (untouched_sessionKept fun l _ _ => l = s.launch).ofStep rfl ht

/-- Settles O55: one rule of the sequencer per clause, and what an iteration of the main loop leaves alone. -/
theorem hostWritesAndWaits : Obligations.HostWritesAndWaits := by
  intro s c d n rest
  refine ⟨fun hc hp ht => step_settle (nextAction_takes hc (waits_idle _ hp ht)),
    fun hc hp ht => step_settle (nextAction_takes hc (waits_idle _ hp ht)),
    fun hc hp ht => step_settle (nextAction_takes hc (waits_idle _ hp ht)),
    fun hc hrun h1 h2 h3 => step_run ((nextAction_waits hc ((waits_run hrun).mpr ⟨h1, h2, h3⟩)).trans (coreAction_run hrun)),
    fun hc hp ht h1 => step_run ((nextAction_waits hc ((waits_tar hp ht).mpr h1)).trans (coreAction_tar hp ht)),
    fun t hrun hpow ht => ?_⟩
  rcases step_next_in_session hrun hpow ht with hstep | ⟨-, rfl⟩
  · exact ⟨exec_step_launch hstep, exec_blob hstep⟩
  · exact ⟨rfl, rfl⟩

/-- Settles O56: the command is never held back, and answers the reset state. -/
theorem powerOnResetsTheMachine : Obligations.PowerOnResetsTheMachine :=
  ⟨fun _ _ hc => ⟨_, step_powerOn hc, rfl, rfl, rfl, rfl, rfl⟩, rfl, rfl, rfl, rfl⟩

theorem reset_memWf : State.reset.memWf := ⟨List.Pairwise.nil, List.Pairwise.nil⟩

/-- Settles O57: instructions keep the canonical form by `exec_memWf`; a buffer is placed in it. -/
theorem everyStepKeepsMemoriesCanonical : Obligations.EveryStepKeepsMemoriesCanonical := by
  intro s t h ht
  have hs := step_stepped s
  rw [ht] at hs
  generalize ho : Host.Outcome.next t = o at hs
  cases hs with
  | session | extraction => exact exec_memWf h ho.symm
  | settled =>
    cases ho
    exact h
  | placed _ bytes =>
    cases ho
    exact ⟨Memory.ofBytes_wf 0 bytes, h.2⟩
  | issued _ _ op c => exact exec_memWf (s := { s with cmds := c }) h ho.symm
  | reset =>
    cases ho
    exact reset_memWf
  | refused => cases ho

end Sys2Proof.Machine
end

section
/-! PROOF. The invariant of a lawful run, kept by every step, which never faults (R127, R144, R186, R191). -/

namespace Sys2Proof.Machine

/-! ## What an iteration of the main loop leaves -/

/-- An iteration has emitted `n` bytes and touched nothing outside the session. -/
structure IterationEmits (s t : State) (n : Nat) : Prop where
  resolving : t.dec.resolving = false
  originalSize : t.dec.originalSize = s.dec.originalSize
  outPos : t.dec.outPos.toNat = s.dec.outPos.toNat + n
  room : s.dec.outPos.toNat + n ≤ s.dec.originalSize.toNat
  bytes : ∀ i < n, (t.out.read (s.dec.outPos.toNat + i)).isSome = true
  outside : OutSameOutside s t s.dec.outPos.toNat n
  frame : SessionFrame s t

/-- The iteration has ended the session, with a record true of it. -/
structure IterationEnds (s t : State) (n : Nat) : Prop extends IterationEmits s t n where
  phase : t.dec.phase = .done
  length : t.dec.result.length = t.dec.outPos
  complete : t.dec.result.tag = .complete → t.dec.outPos = t.dec.originalSize

/-- The iteration goes on: one byte of stream0 and `n - 1` of the address streams were consumed. -/
structure IterationAdvances (s t : State) (n : Nat) : Prop extends IterationEmits s t n where
  phase : t.dec.phase = .run
  emits : 0 < n
  prev : t.out.read (s.dec.outPos.toNat + n - 1) = some t.dec.prevByte
  base : t.demux.base = s.demux.base
  len : t.demux.len = s.demux.len
  cursor : ∀ k : StreamIx, t.demux.pos[k] ≤ s.demux.len[k]
  opcode : t.demux.pos[0] = s.demux.pos[0] + 1
  address : t.demux.pos[1] + t.demux.pos[2] + 1 = s.demux.pos[1] + s.demux.pos[2] + n
  range : 2 ^ 24 ≤ t.rc.range.toNat
  slots : SlotsReachable t

theorem not_idle_of_run {s : State} (hrun : s.dec.phase = .run) : s.dec.phase ≠ .idle := by
  rw [hrun]
  decide

theorem IterationEmits.bounded {s t : State} {n : Nat} (g : IterationEmits s t n) :
    t.dec.outPos.toNat ≤ t.dec.originalSize.toNat := by
  rw [g.outPos, g.originalSize]
  exact g.room

section
variable {s t : State} {n : Nat} (h : s.Inv) (hrun : s.dec.phase = .run)
include h hrun

theorem tar_idle_of_run : s.tar.running = false :=
  Bool.eq_false_iff.mpr fun ht => by
    rw [(h.tar ht).1] at hrun
    cases hrun

/-- The bytes below the new `out_pos` are exactly those written. -/
theorem IterationEmits.written (g : IterationEmits s t n) (a : Nat) : (t.out.read a).isSome = true ↔ a < t.dec.outPos.toNat := by
  have hw := h.written (not_idle_of_run hrun)
  rw [g.outPos]
  by_cases ha : a < s.dec.outPos.toNat ∨ s.dec.outPos.toNat + n ≤ a
  · rw [g.outside a ha, hw]
    omega
  · obtain ⟨i, rfl⟩ := Nat.exists_eq_add_of_le (Nat.le_of_not_lt (not_or.mp ha).1)
    exact iff_of_true (g.bytes i (by omega)) (by omega)

theorem IterationEnds.inv (g : IterationEnds s t n) : t.Inv where
  placed := by rw [g.frame.blob]; exact h.placed
  resolving := g.resolving
  run hr := by rw [g.phase] at hr; cases hr
  bounded _ := g.bounded
  written _ := g.written h hrun
  done _ := ⟨g.length, g.complete⟩
  tar ht := by rw [g.frame.tar, tar_idle_of_run h hrun] at ht; cases ht
  discarded := by rw [g.frame.tar]; exact h.discarded

theorem IterationAdvances.runInv (g : IterationAdvances s t n) : RunInv t where
  window := by rw [g.base, g.len, g.frame.blob]; exact (h.run hrun).window
  cursor := by rw [g.len]; exact g.cursor
  range := g.range
  probs := g.slots
  count := by
    have h1 := (h.run hrun).count
    have h2 := g.opcode
    have h3 := g.address
    have h4 := g.outPos
    omega
  prev := by
    have hpos := g.outPos
    have hemits := g.emits
    rw [if_neg fun e => by rw [e] at hpos; change 0 = _ at hpos; omega, hpos]
    exact g.prev

theorem IterationAdvances.inv (g : IterationAdvances s t n) : t.Inv where
  placed := by rw [g.frame.blob]; exact h.placed
  resolving := g.resolving
  run _ := g.runInv h hrun
  bounded _ := g.bounded
  written _ := g.written h hrun
  done hd := by rw [g.phase] at hd; cases hd
  tar ht := by rw [g.frame.tar, tar_idle_of_run h hrun] at ht; cases ht
  discarded := by rw [g.frame.tar]; exact h.discarded

end

/-! ## Streams in a lawful run (R70) -/

section
variable {s : State} (hplaced : ∀ a, a < s.blob.size → (s.blob.cells.read a).isSome = true) (h : RunInv s)
include hplaced h

/-- Where the window reaches, the stream offers a byte. -/
theorem exists_streamByte {k : StreamIx} {i : Nat} (hi : s.demux.pos[k] + i < s.demux.len[k]) : ∃ v, streamByte s k i = some v := by
  have hw := h.window k
  have hin : cursorAddress s k + i < s.blob.size := by
    unfold cursorAddress
    omega
  obtain ⟨v, hv⟩ := Option.isSome_iff_exists.mp (hplaced _ hin)
  exact ⟨v, by rw [streamByte, if_pos ⟨hi, hin⟩, hv]⟩

theorem exists_streamWord {k : StreamIx} (hi : s.demux.pos[k] + 4 ≤ s.demux.len[k]) :
    ∃ a0 a1 a2 a3, streamWord s k a0 a1 a2 a3 := by
  obtain ⟨a0, h0⟩ := exists_streamByte hplaced h (k := k) (i := 0) (by omega)
  obtain ⟨a1, h1⟩ := exists_streamByte hplaced h (k := k) (i := 1) (by omega)
  obtain ⟨a2, h2⟩ := exists_streamByte hplaced h (k := k) (i := 2) (by omega)
  obtain ⟨a3, h3⟩ := exists_streamByte hplaced h (k := k) (i := 3) (by omega)
  exact ⟨a0, a1, a2, a3, h0, h1, h2, h3⟩

/-- In a lawful run a decision settles or finds stream3 used up (R127). -/
theorem settled_or_dry (slot : Slot) :
    (∃ r, settled s slot = some r) ∨ decidedRange s slot < 2 ^ 24 ∧ s.demux.pos[3] = s.demux.len[3] := by
  have hlow := le_decidedRange h.range (h.probs slot)
  have hcur : s.demux.pos[3] ≤ s.demux.len[3] := h.cursor 3
  unfold settled
  by_cases hge : 2 ^ 24 ≤ decidedRange s slot
  · exact .inl ⟨_, if_pos hge⟩
  · rcases Nat.lt_or_ge s.demux.pos[3] s.demux.len[3] with hlt | hle
    · obtain ⟨v, hv⟩ := exists_streamByte hplaced h (k := 3) (i := 0) hlt
      rw [if_neg hge, if_pos hlow, hv]
      exact .inl ⟨_, rfl⟩
    · exact .inr ⟨by omega, by omega⟩

end

theorem streamByte_lt {s : State} {k : StreamIx} {i : Nat} {v : Byte} (h : streamByte s k i = some v) :
    s.demux.pos[k] + i < s.demux.len[k] := (streamByte_some h).1

/-- The byte a settled decision consumes is in the window of stream3. -/
theorem settled_cursor {s : State} {slot : Slot} {r : Nat × Nat × Nat} (h : settled s slot = some r)
    (hcur : s.demux.pos[3] ≤ s.demux.len[3]) : s.demux.pos[3] + r.2.2 ≤ s.demux.len[3] := by
  unfold settled at h
  split at h
  · cases h
    exact hcur
  · split at h
    · obtain ⟨v, hv, rfl⟩ := Option.map_eq_some_iff.mp h
      exact streamByte_lt hv
    · cases h

theorem DecisionTaken.slotsReachable {s t : State} {slot : Slot} {r : Nat × Nat × Nat} (h : DecisionTaken s t slot r)
    (hs : SlotsReachable s) : SlotsReachable t := fun i => by
  by_cases hi : i = slot
  · rw [hi, h.slotValue]
    exact decidedProb_reach (hs slot)
  · rw [h.others i hi]
    exact hs i

theorem DecisionTaken.range_normalised {s t : State} {slot : Slot} {r : Nat × Nat × Nat} (h : DecisionTaken s t slot r)
    (hr : settled s slot = some r) : 2 ^ 24 ≤ t.rc.range.toNat := by
  rw [h.range]
  exact (settled_spec hr).1

/-- After an opcode byte and a settled decision no cursor is past its window, if those of the address streams are not. -/
theorem decided_cursor_le {s t : State} {v : Byte} {slot : Slot} {r : Nat × Nat × Nat} (h : RunInv s) (hv : streamByte s 0 0 = some v)
    (hr : settled s slot = some r) (hpos : t.demux.pos[0] = s.demux.pos[0] + 1) (hd : DecisionTaken s t slot r) {l : StreamIx}
    (hl : l ∉ [(0 : StreamIx), 3] → t.demux.pos[l] ≤ s.demux.len[l]) : t.demux.pos[l] ≤ s.demux.len[l] := by
  by_cases h0 : l = 0
  · subst h0
    exact hpos.trans_le (streamByte_lt hv)
  · by_cases h3 : l = 3
    · subst h3
      exact hd.cursor.trans_le (settled_cursor hr (h.cursor 3))
    · exact hl (by simp [h0, h3])

theorem stream_one_or_two {k : StreamIx} (h : k ∉ [(0 : StreamIx), 3]) : k = 1 ∨ k = 2 := by
  revert k
  decide

/-- The one byte an opcode or a literal adds. -/
theorem one_byte {s t : State} {b : Byte} (h : t.out.read s.dec.outPos.toNat = some b) :
    ∀ i < 1, (t.out.read (s.dec.outPos.toNat + i)).isSome = true := fun i hi => by
  rw [Nat.lt_one_iff.mp hi, Nat.add_zero, h]
  rfl

theorem opcode_and_patch_bytes {s t : State} {b : Byte} {n : Nat} {dest : Word} (h : t.out.read s.dec.outPos.toNat = some b)
    (hp : PatchWritten s t (s.dec.outPos.toNat + 1) n dest) :
    ∀ i < n + 1, (t.out.read (s.dec.outPos.toNat + i)).isSome = true := fun i hi => by
  cases i with
  | zero =>
    rw [Nat.add_zero, h]
    rfl
  | succ i =>
    rw [Nat.add_comm i 1, ← Nat.add_assoc, hp.bytes i (by omega)]
    rfl

/-! ## One iteration (R176) -/

theorem room_of_not_full {s : State} (h : s.Inv) (hrun : s.dec.phase = .run) (hne : s.dec.outPos ≠ s.dec.originalSize) :
    s.dec.outPos.toNat < s.dec.originalSize.toNat :=
  lt_of_le_of_ne (h.bounded (not_idle_of_run hrun)) fun e => hne (BitVec.eq_of_toNat_eq e)

/-- A literal advances the session by its byte. -/
theorem lit_advances {s : State} {v : Byte} (h : s.Inv) (hrun : s.dec.phase = .run) (hv : streamByte s 0 0 = some v)
    (hroom : s.dec.outPos.toNat < s.dec.originalSize.toNat) : ∃ t, exec (.lit v) s = .next t ∧ IterationAdvances s t 1 := by
  obtain ⟨-, t, ht, hread, hout, hdec, hpos, ⟨hbase, hlen, hcur⟩, hrc, hprob, -, hframe⟩ := litCopiesOneByte s v hrun hv hroom
  refine ⟨t, ht, ⟨?_, ?_, ?_, hroom, one_byte hread, hout, hframe⟩, ?_, Nat.one_pos, ?_, hbase, hlen, fun k => ?_, hpos, ?_, ?_, ?_⟩
  · rw [hdec]
    exact h.resolving
  · rw [hdec]
  · rw [hdec]
    exact outPos_succ hroom
  · rw [hdec]
    exact hrun
  · rw [hdec]
    exact hread
  · by_cases hk : k = 0
    · subst hk
      exact hpos.trans_le (streamByte_lt hv)
    · rw [hcur k (by simpa using hk)]
      exact (h.run hrun).cursor k
  · have h1 : t.demux.pos[1] = s.demux.pos[1] := hcur 1 (by decide)
    have h2 : t.demux.pos[2] = s.demux.pos[2] := hcur 2 (by decide)
    omega
  · rw [hrc]
    exact (h.run hrun).range
  · intro k
    rw [hprob]
    exact (h.run hrun).probs k

section
variable {s : State} {i : Instr} {v b : Byte} {slot : Slot} {k : StreamIx} {r : Nat × Nat × Nat} (hrun : s.dec.phase = .run)
  (hcand : candidateOf s i = some (b, slot, k)) (hv : streamByte s 0 0 = some v)
include hrun hcand hv

/-- A candidate whose opcode byte fills OUT ends the session. -/
theorem candidate_fills (hfull : s.dec.outPos.toNat + 1 = s.dec.originalSize.toNat) :
    ∃ t, exec i s = .next t ∧ IterationEnds s t 1 := by
  obtain ⟨t, ht, hread, hout, hdec, -, -, -, -, -, hframe⟩ := candidateThatFillsOutCompletes s i v b slot k hrun hcand hv hfull
  exact ⟨t, ht, ⟨by rw [hdec], by rw [hdec], by rw [hdec, hfull], hfull.le, one_byte hread, hout, hframe⟩, by rw [hdec], by rw [hdec],
    fun _ => by rw [hdec]⟩

section
variable (hroom : s.dec.outPos.toNat + 1 < s.dec.originalSize.toNat)
include hroom

/-- A candidate whose decision runs dry ends the session. -/
theorem candidate_dry (hr : decidedRange s slot < 2 ^ 24) (hd : s.demux.pos[3] = s.demux.len[3]) :
    ∃ t, exec i s = .next t ∧ IterationEnds s t 1 := by
  obtain ⟨t, ht, hread, hout, hdec, -, -, -, -, -, -, -, hframe⟩ := candidateRunsDry s i v b slot k hrun hcand hv hroom hr hd
  refine ⟨t, ht, ⟨by rw [hdec], by rw [hdec], ?_, hroom.le, one_byte hread, hout, hframe⟩, by rw [hdec], by rw [hdec], fun hc => ?_⟩
  · rw [hdec]
    exact outPos_succ (by omega)
  · rw [hdec] at hc
    cases hc

/-- A candidate decided 1 without an address word ends the session. -/
theorem candidate_lacks (hwf : i.wellFormed = true) (hr : settled s slot = some r) (hbit : decidedOne s slot = true)
    (hshort : s.demux.len[k] < s.demux.pos[k] + 4) :
    ∃ t, exec i s = .next t ∧ IterationEnds s t 1 := by
  obtain ⟨t, ht, hread, hout, hdec, -, -, -, -, hframe⟩ :=
    candidateLacksAddress s i v b slot k r hrun hwf hcand hv hroom hbit hr hshort
  refine ⟨t, ht, ⟨by rw [hdec], by rw [hdec], ?_, hroom.le, one_byte hread, hout, hframe⟩, by rw [hdec], by rw [hdec], fun hc => ?_⟩
  · rw [hdec]
    exact outPos_succ (by omega)
  · rw [hdec] at hc
    cases hc

/-- A candidate decided 0 advances the session by its opcode byte. -/
theorem candidate_zero (h : s.Inv) (hr : settled s slot = some r) (hbit : decidedOne s slot = false) :
    ∃ t, exec i s = .next t ∧ IterationAdvances s t 1 := by
  obtain ⟨t, ht, hread, hout, hdec, hpos, ⟨hbase, hlen, hcur⟩, hd, -, hframe⟩ :=
    candidateDecidedZero s i v b slot k r hrun hcand hv hroom hbit hr
  refine ⟨t, ht, ⟨by rw [hdec], by rw [hdec], ?_, hroom.le, one_byte hread, hout, hframe⟩, ?_, Nat.one_pos, ?_, hbase, hlen, fun l => ?_,
    hpos, ?_, hd.range_normalised hr, hd.slotsReachable (h.run hrun).probs⟩
  · rw [hdec]
    exact outPos_succ (by omega)
  · rw [hdec]
    exact hrun
  · rw [hdec]
    exact hread
  · exact decided_cursor_le (h.run hrun) hv hr hpos hd fun hl => (hcur l hl).trans_le ((h.run hrun).cursor l)
  · have h1 : t.demux.pos[1] = s.demux.pos[1] := hcur 1 (by decide)
    have h2 : t.demux.pos[2] = s.demux.pos[2] := hcur 2 (by decide)
    omega

/-- A candidate decided 1 with an address word emits its patch: the session ends where that fills OUT, and advances by five bytes else. -/
theorem candidate_patches (h : s.Inv) (hwf : i.wellFormed = true) (hr : settled s slot = some r) (hbit : decidedOne s slot = true)
    (hword : s.demux.pos[k] + 4 ≤ s.demux.len[k]) :
    ∃ t, exec i s = .next t ∧ ((∃ n, IterationEnds s t n) ∨ ∃ n, IterationAdvances s t n) := by
  obtain ⟨a0, a1, a2, a3, hw⟩ := exists_streamWord h.placed (h.run hrun) hword
  have hsucc : (s.dec.outPos + 1).toNat = s.dec.outPos.toNat + 1 := outPos_succ (by omega)
  have hdest := rebase_eq_iff.mp (rfl : rebase (be32 [a0, a1, a2, a3]) (s.dec.outPos + 1) = _)
  rw [hsucc, be32_toNat] at hdest
  generalize rebase (be32 [a0, a1, a2, a3]) (s.dec.outPos + 1) = dest at hdest
  obtain ⟨n, hn⟩ : ∃ n, n = min 4 (s.dec.originalSize.toNat - (s.dec.outPos.toNat + 1)) := ⟨_, rfl⟩
  obtain ⟨t, ht, hread, hp, hout, hres, -, hpos, hk, ⟨hbase, hlen, hcur⟩, hd, -, hframe⟩ :=
    candidateDecidedOnePatches s i v b a0 a1 a2 a3 slot k r dest n hrun hwf hcand hv hw hroom hn hbit hr hdest
  have hemits : IterationEmits s t (n + 1) :=
    ⟨hres, hp.originalSize, by rw [hp.outPos]; omega, by omega, opcode_and_patch_bytes hread hp, hout, hframe⟩
  refine ⟨t, ht, ?_⟩
  by_cases hfull : s.dec.outPos.toNat + 1 + n = s.dec.originalSize.toNat
  · obtain ⟨hphase, -, hresult⟩ := hp.full hfull
    have hend : t.dec.outPos = s.dec.originalSize := BitVec.eq_of_toNat_eq (hp.outPos.trans hfull)
    exact .inl ⟨n + 1, hemits, hphase, by rw [hresult, hend], fun _ => by rw [hend, hp.originalSize]⟩
  · obtain ⟨hphase, -⟩ := hp.room hfull
    have hstream := candidate_stream hwf hcand
    have hk12 := stream_one_or_two hstream
    refine .inr ⟨n + 1, hemits, hphase, Nat.succ_pos n, ?_, hbase, hlen, fun l => ?_, hpos, ?_, hd.range_normalised hr,
      hd.slotsReachable (h.run hrun).probs⟩
    · have hlast := hp.bytes (n - 1) (by omega)
      rw [hp.prev, ← hlast]
      congr 1
      omega
    · refine decided_cursor_le (h.run hrun) hv hr hpos hd fun hl => ?_
      by_cases hlk : l = k
      · rw [hlk, hk]
        exact hword
      · rw [hcur l (by simpa [hlk] using hl)]
        exact (h.run hrun).cursor l
    · have hn4 : n = 4 := by omega
      rcases hk12 with rfl | rfl
      · have h2 : t.demux.pos[2] = s.demux.pos[2] := hcur 2 (by decide)
        have h1 : t.demux.pos[1] = s.demux.pos[1] + 4 := hk
        omega
      · have h1 : t.demux.pos[1] = s.demux.pos[1] := hcur 1 (by decide)
        have h2 : t.demux.pos[2] = s.demux.pos[2] + 4 := hk
        omega

end

/-- A candidate ends the session or advances it, in every case of its decision (R182). -/
theorem candidate_lawful (h : s.Inv) (hwf : i.wellFormed = true) (hne : s.dec.outPos ≠ s.dec.originalSize) :
    ∃ t, exec i s = .next t ∧ ((∃ n, IterationEnds s t n) ∨ ∃ n, IterationAdvances s t n) := by
  have hlt := room_of_not_full h hrun hne
  by_cases hfull : s.dec.outPos.toNat + 1 = s.dec.originalSize.toNat
  · obtain ⟨t, ht, g⟩ := candidate_fills hrun hcand hv hfull
    exact ⟨t, ht, .inl ⟨1, g⟩⟩
  · have hroom : s.dec.outPos.toNat + 1 < s.dec.originalSize.toNat := by omega
    rcases settled_or_dry h.placed (h.run hrun) slot with ⟨r, hr⟩ | ⟨hr, hd⟩
    · cases hbit : decidedOne s slot with
      | false =>
        obtain ⟨t, ht, g⟩ := candidate_zero hrun hcand hv hroom h hr hbit
        exact ⟨t, ht, .inr ⟨1, g⟩⟩
      | true =>
        rcases Nat.lt_or_ge s.demux.len[k] (s.demux.pos[k] + 4) with hshort | hword
        · obtain ⟨t, ht, g⟩ := candidate_lacks hrun hcand hv hroom hwf hr hbit hshort
          exact ⟨t, ht, .inl ⟨1, g⟩⟩
        · exact candidate_patches hrun hcand hv hroom h hwf hr hbit hword
    · obtain ⟨t, ht, g⟩ := candidate_dry hrun hcand hv hroom hr hd
      exact ⟨t, ht, .inl ⟨1, g⟩⟩

end

/-- A byte decodes to the literal it is or to a candidate. -/
theorem decodeMain_lit_or_candidate (s : State) (v : Byte) :
    decodeMain s.dec.prevByte v = .lit v ∨ ∃ c, candidateOf s (decodeMain s.dec.prevByte v) = some c := by
  rw [decodeMain_nat]
  split_ifs
  · exact .inr ⟨_, rfl⟩
  · exact .inr ⟨_, rfl⟩
  · exact .inr ⟨_, rfl⟩
  · exact .inl rfl

/-- An end of the session at the head of an iteration, nothing emitted. -/
theorem finish_ends {s : State} (h : s.Inv) (hrun : s.dec.phase = .run) {tag : EndTag}
    (hc : tag = .complete → s.dec.outPos = s.dec.originalSize) : IterationEnds s (finish tag s) 0 :=
  ⟨⟨rfl, rfl, rfl, h.bounded (not_idle_of_run hrun), fun _ hi => absurd hi (Nat.not_lt_zero _), fun _ _ => rfl,
    ⟨rfl, rfl, rfl, rfl, rfl, rfl⟩⟩, rfl, rfl, hc⟩

/-- In a lawful run an iteration of the main loop answers a state: it has ended the session or advanced it (R176). -/
theorem exec_step_lawful {s : State} (h : s.Inv) (hrun : s.dec.phase = .run) :
    ∃ t, exec .step s = .next t ∧ ((∃ n, IterationEnds s t n) ∨ ∃ n, IterationAdvances s t n) := by
  obtain ⟨hfull, hdry, hbyte⟩ := stepIsTheMainLoop s hrun
  by_cases hne : s.dec.outPos = s.dec.originalSize
  · exact ⟨_, hfull hne, .inl ⟨0, finish_ends h hrun fun _ => hne⟩⟩
  · rcases Nat.lt_or_ge s.demux.pos[0] s.demux.len[0] with hlt | hge
    · obtain ⟨v, hv⟩ := exists_streamByte h.placed (h.run hrun) (k := 0) (i := 0) hlt
      rw [hbyte v hne hv]
      rcases decodeMain_lit_or_candidate s v with hlit | ⟨⟨b, slot, k⟩, hcand⟩
      · rw [hlit]
        obtain ⟨t, ht, g⟩ := lit_advances h hrun hv (room_of_not_full h hrun hne)
        exact ⟨t, ht, .inr ⟨1, g⟩⟩
      · have hwf := (Bool.and_eq_true_iff.mp (decodeMain_wellFormedAt_encode s.dec.prevByte v).1).1
        exact candidate_lawful hrun hcand hv h hwf hne
    · exact ⟨_, hdry hne hge, .inl ⟨0, finish_ends h hrun fun e => (by cases e)⟩⟩

/-- Settles O31: the two ways `exec_step_lawful` leaves. -/
theorem stepAdvancesOrEnds : Obligations.StepAdvancesOrEnds := by
  intro s h hrun
  obtain ⟨t, ht, ⟨n, g⟩ | ⟨n, g⟩⟩ := exec_step_lawful h hrun
  · exact ⟨t, ht, .inl g.phase⟩
  · refine ⟨t, ht, .inr ⟨g.phase, g.opcode, ?_⟩⟩
    rw [g.outPos]
    exact Nat.lt_add_of_pos_right g.emits

/-! ## START, the loader and the extractor in a lawful run -/

/-- The launch record and the commands are no part of the invariant. -/
theorem State.Inv.of_settled {s : State} (h : s.Inv) (l : Launch) (c : List Cmd) : State.Inv { s with launch := l, cmds := c } :=
  { h with run := fun hr => { h.run hr with } }

theorem exec_loadHeader_lawful {s : State} (h : s.Inv) : ∃ t, exec .loadHeader s = .next t ∧ t.Inv := by
  have hex : ∃ t, execLoadHeader s = .next t := by
    rw [execLoadHeader]
    split
    · exact ⟨_, rfl⟩
    · rename_i hn
      obtain ⟨vs, hvs⟩ : ∃ vs, readRun (blobByte s) 0 Config.headerBytes = .ok vs := by
        refine readRun_exists fun i hi => ?_
        have hin : 0 + i < s.blob.size := by omega
        obtain ⟨v, hv⟩ := Option.isSome_iff_exists.mp (h.placed _ hin)
        exact ⟨v, by rw [blobByte, if_pos hin, hv]⟩
      rw [hvs]
      exact ⟨_, rfl⟩
  obtain ⟨t, ht⟩ := hex
  refine ⟨t, ht, ?_⟩
  rw [execLoadHeader_next ht]
  exact h.of_settled _ _

/-- The state START seeds, once the seed is taken, is the head of the main loop (R175). -/
theorem seeded_runInv {s : State} (h5 : 5 ≤ (startState s).demux.len[(3 : StreamIx)]) (code : Word) :
    RunInv (setRc 0xFFFFFFFF code (advance 3 5 (startState s))) where
  window k := (windows_end _ _ k).trans_le (Nat.min_le_right _ _)
  cursor k := by
    rw [setRc_demux]
    by_cases hk : k = 3
    · subst hk
      rw [advance_pos_same]
      exact (congrArg (· + 5) (windows_pos _ _ 3)).trans_le h5
    · rw [advance_pos_other hk]
      exact (windows_pos _ _ k).trans_le (Nat.zero_le _)
  range := (by decide : 2 ^ 24 ≤ (0xFFFFFFFF : Word).toNat)
  probs := probInit_slotsReachable (demuxSetup s)
  count := by
    have h0 (k : StreamIx) (hk : k ≠ 3) : (advance 3 5 (startState s)).demux.pos[k] = 0 :=
      (advance_pos_other hk 5 _).trans (windows_pos _ _ k)
    have hc : (advance 3 5 (startState s)).demux.pos[(0 : StreamIx)] + (advance 3 5 (startState s)).demux.pos[(1 : StreamIx)] +
        (advance 3 5 (startState s)).demux.pos[(2 : StreamIx)] = 0 := by
      rw [h0 0 (by decide), h0 1 (by decide), h0 2 (by decide)]
    exact hc.symm
  prev := by
    rw [if_pos]
    · rfl
    · rfl

theorem nothing_written (a : Nat) : (Memory.read [] a).isSome = true ↔ a < (0 : Word).toNat := by
  simp

section
variable {s : State} (h : s.Inv)
include h

/-- START ends an extraction and keeps nothing of its entry. -/
theorem startState_discarded : (startState s).tar = (startState s).tar.discard := by
  show ({ s.tar with running := false } : Tar) = Tar.discard { s.tar with running := false }
  rw [h.discarded]
  rfl

theorem seeded_inv (h5 : 5 ≤ (startState s).demux.len[(3 : StreamIx)]) (code : Word) :
    (setRc 0xFFFFFFFF code (advance 3 5 (startState s))).Inv where
  placed := h.placed
  resolving := rfl
  run _ := seeded_runInv h5 code
  bounded _ := Nat.zero_le _
  written _ := nothing_written
  done e := by cases e
  tar e := by cases e
  discarded := startState_discarded h

theorem unseeded_inv (n : Nat) (rc : RangeDecoder) : (raiseExhausted 3 { advance 3 n (startState s) with rc := rc }).Inv where
  placed := h.placed
  resolving := rfl
  run e := by cases e
  bounded _ := Nat.zero_le _
  written _ := nothing_written
  done _ := ⟨rfl, fun e => by cases e⟩
  tar e := by cases e
  discarded := startState_discarded h

theorem exec_start_lawful : ∃ t, exec .start s = .next t ∧ t.Inv := by
  by_cases hno : s.dec.phase = .run ∨ s.blob.size < 20
  · exact ⟨s, exec_start_no_effect hno, h⟩
  · obtain ⟨hp, hn⟩ := not_or.mp hno
    rw [exec_start hp (Nat.le_of_not_lt hn)]
    rcases Nat.lt_or_ge (startState s).demux.len[(3 : StreamIx)] 5 with hlt | hge
    · obtain ⟨rc, hrc⟩ := rcInit_short h.placed rfl hlt
      rw [hrc]
      exact ⟨_, rfl, unseeded_inv h _ rc⟩
    · have hlen := startState_len_three s
      have seed (i : Nat) (hi : i < 5) : ∃ v, streamByte (startState s) 3 i = some v := by
        rw [startState_streamByte (by omega)]
        exact Option.isSome_iff_exists.mp (h.placed _ (by omega))
      obtain ⟨s0, h0⟩ := seed 0 (by decide)
      obtain ⟨s1, h1⟩ := seed 1 (by decide)
      obtain ⟨s2, h2⟩ := seed 2 (by decide)
      obtain ⟨s3, h3⟩ := seed 3 (by decide)
      obtain ⟨s4, h4⟩ := seed 4 (by decide)
      obtain ⟨code, -, hok⟩ := rcInit_ok h0 h1 h2 h3 h4
      rw [hok]
      exact ⟨_, rfl, seeded_inv h hge code⟩

end

theorem exec_tarStartOp_lawful {s : State} (h : s.Inv) : ∃ t, exec .tarStartOp s = .next t ∧ t.Inv := by
  by_cases hdone : s.dec.phase = .done
  · have hdiscard : s.tar = s.tar.discard := h.discarded
    have htar : (tarStartOp s).tar = (tarStartOp s).tar.discard := by
      simp only [tarStartOp]
      rw [hdiscard]
      rfl
    exact ⟨tarStartOp s, inExtraction_done hdone _,
      { h with run := fun hr => { h.run hr with }, tar := fun _ => ⟨hdone, rfl⟩, discarded := htar }⟩
  · exact ⟨s, inExtraction_other hdone _, h⟩

/-- In a lawful run every byte of the image can be read. -/
theorem exists_outRun {s : State} (h : s.Inv) (hdone : s.dec.phase = .done) {a n : Nat} (hin : a + n ≤ imgLen s) :
    ∃ vs, outRun s a n = .ok vs := by
  have hidle : s.dec.phase ≠ .idle := by rw [hdone]; decide
  have himg : imgLen s = s.dec.outPos.toNat := congrArg BitVec.toNat (h.done hdone).1
  have hle := h.bounded hidle
  rw [outRun_eq]
  refine readRun_exists fun i hi => ?_
  have hlt : a + i < s.dec.outPos.toNat := by omega
  obtain ⟨v, hv⟩ := Option.isSome_iff_exists.mp ((h.written hidle _).mpr hlt)
  exact ⟨v, by rw [outByte, outByteIn, if_pos (by omega), hv]⟩

theorem exec_tarStep_lawful {s : State} (h : s.Inv) (hrun : s.tar.running = true) : ∃ t, exec .tarStep s = .next t ∧ t.Inv := by
  obtain ⟨hdone, hstop⟩ := h.tar hrun
  rw [exec_tarStep hdone hrun]
  have ho := tarStep_outcome s
  generalize tarStep s = r at ho
  cases ho with
  | stopped r => exact ⟨_, rfl, { h with run := fun hr => { h.run hr with }, tar := fun e => (by cases e), discarded := rfl }⟩
  | taken e hn => exact ⟨_, rfl, { h with run := fun hr => { h.run hr with }, tar := fun _ => ⟨hdone, hstop⟩, discarded := rfl }⟩
  | faulted hin hf =>
    obtain ⟨vs, hvs⟩ := exists_outRun h hdone hin
    rw [hvs] at hf
    cases hf

theorem placeBlob_inv {s : State} (h : s.Inv) (hp : s.dec.phase ≠ .run) (bytes : List Byte) (c : List Cmd) :
    (placeBlob bytes { s with cmds := c }).Inv :=
  { h with placed := fun a => (Memory.read_ofBytes_isSome bytes a).mpr, run := fun hr => absurd hr hp }

theorem reset_inv : State.reset.Inv where
  placed _ h := absurd h (Nat.not_lt_zero _)
  resolving := rfl
  run h := by cases h
  bounded h := absurd rfl h
  written h := absurd rfl h
  done h := by cases h
  tar h := by cases h
  discarded := rfl

/-- Settles O58: nothing has run, and both memories are empty. -/
theorem resetMeetsTheInvariant : Obligations.ResetMeetsTheInvariant := ⟨reset_inv, reset_memWf⟩

/-! ## Every step -/

/-- From a state that meets the invariant a step answers one that meets it, or the host places a buffer in `Run` and is refused. -/
theorem step_lawful {s : State} (h : s.Inv) :
    (∃ t, step s = .next t ∧ t.Inv) ∨
      s.dec.phase = .run ∧ (∃ bytes rest, s.cmds = .place bytes :: rest) ∧ step s = .refused .blobWriteDuringRun := by
  have hs := step_stepped s
  generalize step s = o at hs ⊢
  cases hs with
  | session hrun =>
    obtain ⟨t, ht, ⟨n, g⟩ | ⟨n, g⟩⟩ := exec_step_lawful h hrun
    · exact .inl ⟨t, ht, g.inv h hrun⟩
    · exact .inl ⟨t, ht, g.inv h hrun⟩
  | extraction hp ht => exact .inl (exec_tarStep_lawful h ht)
  | settled l c => exact .inl ⟨_, rfl, h.of_settled l c⟩
  | placed hp bytes c => exact .inl ⟨_, rfl, placeBlob_inv h hp bytes c⟩
  | issued hp ht op c =>
    have hc := h.of_settled s.launch c
    cases op with
    | loadHeader => exact .inl (exec_loadHeader_lawful hc)
    | start => exact .inl (exec_start_lawful hc)
    | tarStart => exact .inl (exec_tarStartOp_lawful hc)
  | reset c => exact .inl ⟨_, rfl, { reset_inv with run := fun e => (by cases e) }⟩
  | refused hrun hc => exact .inr ⟨hrun, ⟨_, _, hc⟩, rfl⟩

/-- Settles O59: `step_lawful`, a refused step answering no state. -/
theorem everyStepKeepsTheInvariant : Obligations.EveryStepKeepsTheInvariant := by
  intro s t h ht
  rcases step_lawful h with ⟨u, hu, hinv⟩ | ⟨-, -, href⟩
  · rw [hu] at ht
    cases ht
    exact hinv
  · rw [href] at ht
    cases ht

/-- Settles O60: `step_lawful`. -/
theorem lawfulRunsNeverFault : Obligations.LawfulRunsNeverFault := fun _ h =>
  (step_lawful h).imp_left fun ⟨t, ht, _⟩ => ⟨t, ht⟩

end Sys2Proof.Machine
end
